-- ==== Sys2Proof/Word.lean ====
section
/-! DEFINITION. The word types: the 64-bit values and the bytes of `00_scope.md` R15 and `20_memory.md` R60. -/

namespace Sys2Proof

/-- A 64-bit value, `u64` or `i64` (R15): a BitPacker word, a field, a timestamp, a value pattern, a result. -/
abbrev Word := BitVec 64

/-- An unsigned byte, `u8` (R15): a ByteBuffer byte, an opcode, an immediate, a status byte. -/
abbrev Byte := BitVec 8

end Sys2Proof
end

