-- ==== Sys2Proof/Machine/Bits.lean ====
section
/-! DEFINITION. The helper functions of `00_scope.md` R17 and R18, and the byte order of `20_memory.md` R57. All total. -/

namespace Sys2Proof.Machine

/-- The number of clear bits of `x` above its highest set bit among bits `n-1` to 0 (`n` when there is none). -/
def clzBelow (x : Word) : Nat → Nat
  | 0 => 0
  | n + 1 => if x.getLsbD n then 0 else clzBelow x n + 1

/-- `clz64(x)` (R17): the number of leading zero bits, 64 when `x = 0`. -/
def clz64 (x : Word) : Nat := clzBelow x 64

/-- The number of clear bits of `x` from bit `64 - n` up to its lowest set bit there (`n` when there is none). -/
def ctzAbove (x : Word) : Nat → Nat
  | 0 => 0
  | n + 1 => if x.getLsbD (63 - n) then 0 else ctzAbove x n + 1

/-- `ctz64(x)` (R17): the number of trailing zero bits, 64 when `x = 0`. -/
def ctz64 (x : Word) : Nat := ctzAbove x 64

/-- `bitlen(x) = 64 - clz64(x)` (R17), the number of significant bits. -/
def bitlen (x : Word) : Nat := 64 - clz64 x

/-- `lzb(x) = clz64(x) div 8` (R17), the leading zero bytes. -/
def lzb (x : Word) : Nat := clz64 x / 8

/-- `tzb(x) = ctz64(x) div 8` (R17), the trailing zero bytes. -/
def tzb (x : Word) : Nat := ctz64 x / 8

/-- `zigzag(d) = ((d >>s 63) ^ (d << 1))` (R17). -/
def zigzag (d : Word) : Word := d.sshiftRight 63 ^^^ (d <<< 1)

/-- `unzigzag(u) = (u >>u 1) ^ (0 - (u & 1))` (R17). -/
def unzigzag (u : Word) : Word := (u >>> 1) ^^^ (0 - (u &&& 1))

/-- `isNaN(v)` (R18): `v[62:52] = 0x7FF` and `v[51:0] != 0`. -/
def isNaN (v : Word) : Bool := v.extractLsb' 52 11 == 0x7FF#11 && v.extractLsb' 0 52 != 0#52

/-- `x[8i+7 : 8i]`, byte `i` of `x` counted from the least significant. -/
def byteOf (x : Word) (i : Nat) : Byte := x.extractLsb' (8 * i) 8

/-- The `n` low bytes of `x`, most significant first (R57). -/
def lowBytes (x : Word) : Nat → List Byte
  | 0 => []
  | n + 1 => byteOf x n :: lowBytes x n

/-- The 8 bytes of `x`, most significant first (R57, R124). -/
def bytes64 (x : Word) : List Byte := lowBytes x 8

/-- One more byte below the bytes read so far: `(r << 8) | b` (R124: the first byte is the most significant). -/
def pushByte (r : Word) (b : Byte) : Word := (r <<< 8) ||| b.setWidth 64

/-- The value of a byte string, most significant first (R57, R124); 0 for the empty string. -/
def wordOfBytes (l : List Byte) : Word := l.foldl pushByte 0

/-- One more bit below the bits read so far: `(r << 1) | b` (R105, R107). -/
def pushBit (r : Word) (b : Bool) : Word := (r <<< 1) ||| (if b then 1 else 0)

/-- The value of a bit string in stream order, first bit most significant (R54). -/
def wordOfBits (l : List Bool) : Word := l.foldl pushBit 0

/-- The low `w` bits of `v` in stream order, most significant first (R52). -/
def fieldBits (v : Word) : Nat → List Bool
  | 0 => []
  | w + 1 => v.getLsbD w :: fieldBits v w

end Sys2Proof.Machine
end

