-- ==== Sys2Proof/Config.lean ====
section
/-! DEFINITION. The parameters of an instance (`00_scope.md` R9 to R13) and the free values: what the spec leaves unspecified
after a fault (`10_state.md` R44), as constants without a body. -/

namespace Sys2Proof

/-- `WIN_CAP = 127` (R9). -/
def winCap : Nat := 127

/-- The OPEN parameters of an instance (R10 to R13). They are fixed for an instance and no command changes them. -/
structure Config where
  /-- `NCOL_MAX` (R10): the number of HistoryWindows, 1 to 255. -/
  ncolMax : Nat
  /-- `BP_MAX_WORDS` (R11): the words of BitPacker storage, at least 4. -/
  bpMaxWords : Nat
  /-- `BB_MAX_BYTES` (R11): the bytes of ByteBuffer storage. -/
  bbMaxBytes : Nat
  /-- `NAN_SENTINEL` (R12): a not-a-number pattern. -/
  nanSentinel : Word
  /-- `ZERO_FILL_WINDOW` (R13). -/
  zeroFill : Bool
  deriving DecidableEq, Repr

/-- The bounds R10 to R12 put on the parameters. -/
def Config.wf (c : Config) : Bool :=
  decide (1 ≤ c.ncolMax) && decide (c.ncolMax ≤ 255) && decide (4 ≤ c.bpMaxWords) && Machine.isNaN c.nanSentinel

/-- The parameters of the instance `State.reset` describes: those every test vector of `95_test_vectors.md` section 0 uses.
DESIGN CHOICE for the three capacities, which the spec leaves OPEN (log entry 1). -/
def Config.standard : Config where
  ncolMax := 8
  bpMaxWords := 1024
  bbMaxBytes := 4096
  nanSentinel := 0x7FF8000000000000#64
  zeroFill := false

/-- FREE VALUE (log entry 3): a bit pattern the spec leaves unspecified after a fault (R44). `seed` says which fault, `slot`
which register or store, `idx` which element of a store. It has no body, so nothing can be proved of its value. -/
opaque Config.freeWord (seed slot idx : Nat) : Word

/-- FREE VALUE (log entry 3): a count the spec leaves unspecified after a fault (R44). -/
opaque Config.freeNat (seed slot idx : Nat) : Nat

end Sys2Proof
end

