-- ==== Sys2Proof/Syntax.lean ====
section
/-! DEFINITION. The instructions: one constructor per row of `spec/opcode_table.json`. 30 commands of the host's port
(`30_encoding.md` R74), each with its immediate and data operand, and 13 codes of the compressed stream (R78 to R88, R103),
which the Decoder reads from the BitPacker and the ByteBuffer. -/

namespace Sys2Proof

inductive Instr where
  /-- `NOP` (R200). -/
  | nop
  /-- `CORE.RESET` (R201). -/
  | coreReset
  /-- `CORE.STATUS` (R202). -/
  | coreStatus
  /-- `BP.APPEND WIDTH, bits` (R101). -/
  | bpAppend (width : Byte) (din : Word)
  /-- `BP.CLOSE` (R103). -/
  | bpClose
  /-- `BP.READ WIDTH` (R105). -/
  | bpRead (width : Byte)
  /-- `BP.SIZE` (R106). -/
  | bpSize
  /-- `BP.READRUN MAXBITS` (R107). -/
  | bpReadrun (maxbits : Byte)
  /-- `BP.FREEZE` (R104). -/
  | bpFreeze
  /-- `BB.PUT byte` (R121): the byte is `DIN[7:0]`. -/
  | bbPut (din : Word)
  /-- `BB.GET` (R122). -/
  | bbGet
  /-- `BB.LEN` (R123). -/
  | bbLen
  /-- `HW.INIT COL` (R131). -/
  | hwInit (col : Byte)
  /-- `HW.ADD COL, value` (R132). -/
  | hwAdd (col : Byte) (din : Word)
  /-- `HW.CONTAINS COL, value` (R133). -/
  | hwContains (col : Byte) (din : Word)
  /-- `HW.BEST COL, value` (R134). -/
  | hwBest (col : Byte) (din : Word)
  /-- `HW.AT COL, offset` (R135). -/
  | hwAt (col : Byte) (din : Word)
  /-- `HW.COUNT COL` (R136). -/
  | hwCount (col : Byte)
  /-- `ENC.BEGIN anchor` (R150). -/
  | encBegin (din : Word)
  /-- `ENC.ROW N, timestamp` (R151). -/
  | encRow (n : Byte) (din : Word)
  /-- `ENC.VAL value` (R157). -/
  | encVal (din : Word)
  /-- `ENC.FINISH` (R164). -/
  | encFinish
  /-- `ENC.BITSIZE` (R165). -/
  | encBitsize
  /-- `DEC.INIT N` (R180). -/
  | decInit (n : Byte)
  /-- `DEC.NEXT` (R181). -/
  | decNext
  /-- `DEC.TS` (R190). -/
  | decTs
  /-- `DEC.VAL COL` (R191). -/
  | decVal (col : Byte)
  /-- `EXP.NWORDS` (R204). -/
  | expNwords
  /-- `EXP.WORD index` (R205). -/
  | expWord (din : Word)
  /-- `EXP.BYTE index` (R207). -/
  | expByte (din : Word)
  /-- `TS.ANCHOR` (R79): the 64-bit anchor field. -/
  | tsAnchor (a : Word)
  /-- `TS.FIRSTDELTA` (R79): the first row's 32-bit delta field. -/
  | tsFirstdelta (d : BitVec 32)
  /-- `TS.DOD0` (R80): the code `0`. -/
  | tsDod0
  /-- `TS.DOD7` (R80): `10` and a 7-bit payload. -/
  | tsDod7 (u : BitVec 7)
  /-- `TS.DOD9` (R80): `110` and a 9-bit payload. -/
  | tsDod9 (u : BitVec 9)
  /-- `TS.DOD12` (R80): `1110` and a 12-bit payload. -/
  | tsDod12 (u : BitVec 12)
  /-- `TS.DOD32` (R80): `1111` and a 32-bit payload that is not all ones. -/
  | tsDod32 (u : BitVec 32)
  /-- `TS.EOS` (R81): `1111` and 32 ones. -/
  | tsEos
  /-- `BP.TRAILER` (R103, R109): `1111`, 128 ones, `0`. -/
  | bpTrailer
  /-- `VAL.EXACT` (R83): the byte `h < 0x80`. -/
  | valExact (h : BitVec 7)
  /-- `VAL.XOR` (R84, R85): header `0x80 | k`, info byte `t : l`, then `l` data bytes whose value is `y`. -/
  | valXor (k : BitVec 7) (t l : BitVec 4) (y : Word)
  /-- `VAL.ESCAPE` (R86): `0xFF` and the 8 bytes of `v`. -/
  | valEscape (v : Word)
  /-- `VAL.FIRST` (R88): the 8 bytes of `v`, no header. -/
  | valFirst (v : Word)
  deriving DecidableEq, Repr

end Sys2Proof
end

