-- ==== Sys2Proof/Decode.lean ====
section
/-! DEFINITION. Decoding and encoding. Commands stand on the host's port as a 16-bit command word and a 64-bit data operand
(`30_encoding.md` R70 to R75). Stream codes stand in the BitPacker as bit strings or in the ByteBuffer as byte strings (R78 to
R88), and which code is read depends on where it stands (R79, R88). Every decoder is total and refuses by `none`: a command word
that matches no row (R75), or a string that ends inside a code. -/

namespace Sys2Proof

open Machine

/-- One transaction of the command port as the host presents it (R70): `CW` and `DIN`. -/
structure Command where
  cw : BitVec 16
  din : Word
  deriving DecidableEq, Repr

/-- The timestamp codes of R80 and R81, which the Decoder tells apart by their prefix. -/
inductive TsCode where
  | dod0
  | dod7 (u : BitVec 7)
  | dod9 (u : BitVec 9)
  | dod12 (u : BitVec 12)
  | dod32 (u : BitVec 32)
  | eos
  deriving DecidableEq, Repr

/-- The value codes of R83 to R86, which the Decoder tells apart by their first byte (R87). -/
inductive ValCode where
  | exact (h : BitVec 7)
  | xor (k : BitVec 7) (t l : BitVec 4) (y : Word)
  | escape (v : Word)
  deriving DecidableEq, Repr

/-- The instruction a timestamp code is. -/
def TsCode.toInstr : TsCode → Instr
  | .dod0 => .tsDod0
  | .dod7 u => .tsDod7 u
  | .dod9 u => .tsDod9 u
  | .dod12 u => .tsDod12 u
  | .dod32 u => .tsDod32 u
  | .eos => .tsEos

/-- The instruction a value code is. -/
def ValCode.toInstr : ValCode → Instr
  | .exact h => .valExact h
  | .xor k t l y => .valXor k t l y
  | .escape v => .valEscape v

/-- Where an encoded instruction stands: on the command port, or at one of the positions of the compressed stream (R68, R79,
R88). -/
inductive Place where
  /-- The command port (R70). -/
  | port
  /-- Stream bit 0 of the BitPacker (R79). -/
  | anchor
  /-- The 32 bits after the anchor (R79). -/
  | firstDelta
  /-- A later row's timestamp code (R80, R81). -/
  | tsRow
  /-- What `BP.CLOSE` appends (R103). -/
  | trailer
  /-- A first-row value in the ByteBuffer (R88). -/
  | firstVal
  /-- A later row's value code in the ByteBuffer (R83 to R87). -/
  | rowVal
  deriving DecidableEq, Repr

/-- An encoded instruction: a command transaction, a bit string in stream order, or a byte string in ByteBuffer order. -/
inductive Encoded where
  | command (c : Command)
  | bits (l : List Bool)
  | bytes (l : List Byte)
  deriving DecidableEq, Repr

/-- `OP = CW[15:8]` (R71). -/
def opField (cw : BitVec 16) : Byte := cw.extractLsb' 8 8

/-- `IMM = CW[7:0]` (R71). -/
def immField (cw : BitVec 16) : Byte := cw.extractLsb' 0 8

/-- A command whose `IMM` is reserved: a non-zero `IMM` matches no row (R74, R75). -/
def rsv (imm : Byte) (i : Instr) : Option Instr := if imm = 0 then some i else none

/-- The opcode map of R74. Every opcode not in it is unassigned (R75). -/
def decodeOp (op : Nat) (imm : Byte) (din : Word) : Option Instr :=
  match op with
  | 0x00 => rsv imm .nop
  | 0x01 => rsv imm .coreReset
  | 0x02 => rsv imm .coreStatus
  | 0x10 => some (.bpAppend imm din)
  | 0x11 => rsv imm .bpClose
  | 0x12 => some (.bpRead imm)
  | 0x13 => rsv imm .bpSize
  | 0x14 => some (.bpReadrun imm)
  | 0x15 => rsv imm .bpFreeze
  | 0x20 => rsv imm (.bbPut din)
  | 0x21 => rsv imm .bbGet
  | 0x22 => rsv imm .bbLen
  | 0x30 => some (.hwInit imm)
  | 0x31 => some (.hwAdd imm din)
  | 0x32 => some (.hwContains imm din)
  | 0x33 => some (.hwBest imm din)
  | 0x34 => some (.hwAt imm din)
  | 0x35 => some (.hwCount imm)
  | 0x40 => rsv imm (.encBegin din)
  | 0x41 => some (.encRow imm din)
  | 0x42 => rsv imm (.encVal din)
  | 0x43 => rsv imm .encFinish
  | 0x44 => rsv imm .encBitsize
  | 0x50 => some (.decInit imm)
  | 0x51 => rsv imm .decNext
  | 0x52 => rsv imm .decTs
  | 0x53 => some (.decVal imm)
  | 0x60 => rsv imm .expNwords
  | 0x61 => rsv imm (.expWord din)
  | 0x62 => rsv imm (.expByte din)
  | _ => none

/-- The command a transaction stands for; `none` for an illegal encoding (R75). A `DIN` the command does not use is ignored
(R72). -/
def decodeCommand (c : Command) : Option Instr := decodeOp (opField c.cw).toNat (immField c.cw) c.din

/-- The prefix of a timestamp code, as `readRunLength(maxBits)` accumulates it (R80, R107). -/
def readRunBits : Nat → Word → List Bool → Option (Word × List Bool)
  | 0, r, l => some (r, l)
  | _ + 1, _, [] => none
  | n + 1, r, b :: l => if b then readRunBits n (pushBit r b) l else some (pushBit r b, l)

/-- A field of `w` bits at the head of a bit string (R54). -/
def takeField (w : Nat) (l : List Bool) : Option (Word × List Bool) :=
  if l.length < w then none else some (wordOfBits (l.take w), l.drop w)

/-- The payload width that follows the prefix value `p` (R80, R185). -/
def tsPayloadWidth (p : Word) : Nat :=
  if p = 0 then 0 else if p = 2 then 7 else if p = 6 then 9 else if p = 14 then 12 else 32

/-- The timestamp code with prefix value `p` and payload `u` (R80, R81, R185). -/
def tsOfPrefix (p u : Word) : TsCode :=
  if p = 0 then .dod0
  else if p = 2 then .dod7 (u.setWidth 7)
  else if p = 6 then .dod9 (u.setWidth 9)
  else if p = 14 then .dod12 (u.setWidth 12)
  else if u.setWidth 32 = BitVec.allOnes 32 then .eos
  else .dod32 (u.setWidth 32)

/-- The timestamp code at the head of a bit string and the bits after it (R82); `none` where the string ends inside the code. -/
def decodeTs (l : List Bool) : Option (TsCode × List Bool) :=
  match readRunBits 4 0 l with
  | none => none
  | some (p, l1) =>
    match takeField (tsPayloadWidth p) l1 with
    | none => none
    | some (u, l2) => some (tsOfPrefix p u, l2)

/-- `n` bytes at the head of a byte string, most significant first (R57, R124). -/
def takeBytes (n : Nat) (l : List Byte) : Option (Word × List Byte) :=
  if l.length < n then none else some (wordOfBytes (l.take n), l.drop n)

/-- `T = info >>u 4` (R85, R187). -/
def infoT (info : Byte) : BitVec 4 := info.extractLsb' 4 4

/-- `L = info & 0xF` (R85, R187). -/
def infoL (info : Byte) : BitVec 4 := info.extractLsb' 0 4

/-- The value code at the head of a byte string and the bytes after it (R87); `none` where the string ends inside the code. No
data byte belongs to a code whose info byte has `T + L > 8` (R187). -/
def decodeVal : List Byte → Option (ValCode × List Byte)
  | [] => none
  | h :: l =>
    if h.toNat < 0x80 then some (.exact (h.setWidth 7), l)
    else if h = 0xFF then
      match takeBytes 8 l with
      | none => none
      | some (v, l1) => some (.escape v, l1)
    else
      match l with
      | [] => none
      | info :: l1 =>
        if 8 < (infoT info).toNat + (infoL info).toNat then some (.xor (h.setWidth 7) (infoT info) (infoL info) 0, l1)
        else
          match takeBytes (infoL info).toNat l1 with
          | none => none
          | some (y, l2) => some (.xor (h.setWidth 7) (infoT info) (infoL info) y, l2)

/-- The 133 bits of the trailer (R14, R103): `1111`, 64 ones, 64 ones, `0`. -/
def trailerBits : List Bool := List.replicate 132 true ++ [false]

/-- The instruction that the whole of an encoded string stands for at a place; `none` where it stands for none, or where
something is left over. -/
def decodeAt : Place → Encoded → Option Instr
  | .port, .command c => decodeCommand c
  | .anchor, .bits l =>
    match takeField 64 l with
    | some (a, []) => some (.tsAnchor a)
    | _ => none
  | .firstDelta, .bits l =>
    match takeField 32 l with
    | some (d, []) => some (.tsFirstdelta (d.setWidth 32))
    | _ => none
  | .tsRow, .bits l =>
    match decodeTs l with
    | some (c, []) => some c.toInstr
    | _ => none
  | .trailer, .bits l => if l = trailerBits then some .bpTrailer else none
  | .firstVal, .bytes l =>
    match takeBytes 8 l with
    | some (v, []) => some (.valFirst v)
    | _ => none
  | .rowVal, .bytes l =>
    match decodeVal l with
    | some (c, []) => some c.toInstr
    | _ => none
  | _, _ => none

/-- The bits `nbits - 1` to 0 of `w`, first character of the table's pattern first. -/
def tableBits (nbits w : Nat) : List Bool := (List.range nbits).map fun j => w.testBit (nbits - 1 - j)

/-- The bytes of a table word of `n` bytes, first byte of the code first, then zeros for the operand bytes the table gives no
bits (R84: a `VAL.XOR` row holds the header and the info byte only). -/
def tableBytes (n w : Nat) : List Byte :=
  ((List.range n).map fun j => BitVec.ofNat 8 (w >>> (8 * (n - 1 - j)))) ++ List.replicate 8 0

/-- The row's value code at the head of a table word's bytes. -/
def decodeTableVal (l : List Byte) : Option Instr :=
  match decodeVal l with
  | some (c, _) => some c.toInstr
  | none => none

/-- The instruction this decoder reads from a word of `spec/opcode_table.json`. A 16-bit word below `0x8000` is a command word
with `DIN = 0`. The table does not say where a stream code stands, and a 16-bit word from `0xE000` is both a `TS.DOD12` and a
`VAL.XOR`: it is read as `TS.DOD12`, whose prefix `1110` it holds (log entry 9). -/
def decodeTableWord (nbits w : Nat) : Option Instr :=
  if nbits = 16 then
    if w < 0x8000 then decodeCommand ⟨BitVec.ofNat 16 w, 0⟩
    else if w / 0x1000 = 0xE then decodeAt .tsRow (.bits (tableBits 16 w))
    else decodeTableVal (tableBytes 2 w)
  else if nbits = 8 then decodeTableVal (tableBytes 1 w)
  else if nbits = 1 ∨ nbits = 9 ∨ nbits = 12 ∨ nbits = 36 then decodeAt .tsRow (.bits (tableBits nbits w))
  else if nbits = 40 then decodeAt .tsRow (.bits (tableBits 36 w))
  else if nbits = 32 then decodeAt .firstDelta (.bits (tableBits 32 w))
  else if nbits = 64 then decodeAt .anchor (.bits (tableBits 64 w))
  else if nbits = 72 then decodeTableVal (tableBytes 9 w)
  else if nbits = 133 ∨ nbits = 136 then decodeAt .trailer (.bits (tableBits 133 w))
  else none

/-! ## The encoder -/

/-- The opcode of a command (R74). A stream code has none: it is read by `DEC.INIT` (the anchor) or `DEC.NEXT`, whose opcode
`FAULT_OP` takes when the code faults (R225). -/
def opcodeOf : Instr → Byte
  | .nop => 0x00
  | .coreReset => 0x01
  | .coreStatus => 0x02
  | .bpAppend _ _ => 0x10
  | .bpClose => 0x11
  | .bpRead _ => 0x12
  | .bpSize => 0x13
  | .bpReadrun _ => 0x14
  | .bpFreeze => 0x15
  | .bbPut _ => 0x20
  | .bbGet => 0x21
  | .bbLen => 0x22
  | .hwInit _ => 0x30
  | .hwAdd _ _ => 0x31
  | .hwContains _ _ => 0x32
  | .hwBest _ _ => 0x33
  | .hwAt _ _ => 0x34
  | .hwCount _ => 0x35
  | .encBegin _ => 0x40
  | .encRow _ _ => 0x41
  | .encVal _ => 0x42
  | .encFinish => 0x43
  | .encBitsize => 0x44
  | .decInit _ => 0x50
  | .decNext => 0x51
  | .decTs => 0x52
  | .decVal _ => 0x53
  | .expNwords => 0x60
  | .expWord _ => 0x61
  | .expByte _ => 0x62
  | .tsAnchor _ => 0x50
  | .tsFirstdelta _ => 0x51
  | .tsDod0 => 0x51
  | .tsDod7 _ => 0x51
  | .tsDod9 _ => 0x51
  | .tsDod12 _ => 0x51
  | .tsDod32 _ => 0x51
  | .tsEos => 0x51
  | .bpTrailer => 0x51
  | .valExact _ => 0x51
  | .valXor _ _ _ _ => 0x51
  | .valEscape _ => 0x51
  | .valFirst _ => 0x51

/-- `CW` (R71). -/
def commandWord (op imm : Byte) : BitVec 16 := op ++ imm

/-- A command transaction; a command that uses no `DIN` is sent with `DIN = 0` (R76). -/
def sendCommand (i : Instr) (imm : Byte) (din : Word) : Encoded := .command ⟨commandWord (opcodeOf i) imm, din⟩

/-- The bits of a timestamp code: the prefix, then the payload's bits, most significant first (R80, R81). -/
def encodeTs : TsCode → List Bool
  | .dod0 => [false]
  | .dod7 u => [true, false] ++ fieldBits (u.setWidth 64) 7
  | .dod9 u => [true, true, false] ++ fieldBits (u.setWidth 64) 9
  | .dod12 u => [true, true, true, false] ++ fieldBits (u.setWidth 64) 12
  | .dod32 u => [true, true, true, true] ++ fieldBits (u.setWidth 64) 32
  | .eos => List.replicate 36 true

/-- The bytes of a value code (R83 to R86). A code with `T + L > 8` has only its header and info byte (R187). -/
def encodeVal : ValCode → List Byte
  | .exact h => [h.setWidth 8]
  | .xor k t l y =>
    (0x80#8 ||| k.setWidth 8) :: (t ++ l : BitVec 8) :: (if 8 < t.toNat + l.toNat then [] else lowBytes y l.toNat)
  | .escape v => 0xFF#8 :: bytes64 v

/-- Where an instruction stands. -/
def placeOf : Instr → Place
  | .tsAnchor _ => .anchor
  | .tsFirstdelta _ => .firstDelta
  | .tsDod0 | .tsDod7 _ | .tsDod9 _ | .tsDod12 _ | .tsDod32 _ | .tsEos => .tsRow
  | .bpTrailer => .trailer
  | .valFirst _ => .firstVal
  | .valExact _ | .valXor _ _ _ _ | .valEscape _ => .rowVal
  | .nop | .coreReset | .coreStatus => .port
  | .bpAppend _ _ | .bpClose | .bpRead _ | .bpSize | .bpReadrun _ | .bpFreeze => .port
  | .bbPut _ | .bbGet | .bbLen => .port
  | .hwInit _ | .hwAdd _ _ | .hwContains _ _ | .hwBest _ _ | .hwAt _ _ | .hwCount _ => .port
  | .encBegin _ | .encRow _ _ | .encVal _ | .encFinish | .encBitsize => .port
  | .decInit _ | .decNext | .decTs | .decVal _ => .port
  | .expNwords | .expWord _ | .expByte _ => .port

/-- The encoding of an instruction (R71, R72, R76, R79 to R88, R103). -/
def encode : Instr → Encoded
  | .nop => sendCommand .nop 0 0
  | .coreReset => sendCommand .coreReset 0 0
  | .coreStatus => sendCommand .coreStatus 0 0
  | .bpAppend w din => sendCommand (.bpAppend w din) w din
  | .bpClose => sendCommand .bpClose 0 0
  | .bpRead w => sendCommand (.bpRead w) w 0
  | .bpSize => sendCommand .bpSize 0 0
  | .bpReadrun m => sendCommand (.bpReadrun m) m 0
  | .bpFreeze => sendCommand .bpFreeze 0 0
  | .bbPut din => sendCommand (.bbPut din) 0 din
  | .bbGet => sendCommand .bbGet 0 0
  | .bbLen => sendCommand .bbLen 0 0
  | .hwInit col => sendCommand (.hwInit col) col 0
  | .hwAdd col din => sendCommand (.hwAdd col din) col din
  | .hwContains col din => sendCommand (.hwContains col din) col din
  | .hwBest col din => sendCommand (.hwBest col din) col din
  | .hwAt col din => sendCommand (.hwAt col din) col din
  | .hwCount col => sendCommand (.hwCount col) col 0
  | .encBegin din => sendCommand (.encBegin din) 0 din
  | .encRow n din => sendCommand (.encRow n din) n din
  | .encVal din => sendCommand (.encVal din) 0 din
  | .encFinish => sendCommand .encFinish 0 0
  | .encBitsize => sendCommand .encBitsize 0 0
  | .decInit n => sendCommand (.decInit n) n 0
  | .decNext => sendCommand .decNext 0 0
  | .decTs => sendCommand .decTs 0 0
  | .decVal col => sendCommand (.decVal col) col 0
  | .expNwords => sendCommand .expNwords 0 0
  | .expWord din => sendCommand (.expWord din) 0 din
  | .expByte din => sendCommand (.expByte din) 0 din
  | .tsAnchor a => .bits (fieldBits a 64)
  | .tsFirstdelta d => .bits (fieldBits (d.setWidth 64) 32)
  | .tsDod0 => .bits (encodeTs .dod0)
  | .tsDod7 u => .bits (encodeTs (.dod7 u))
  | .tsDod9 u => .bits (encodeTs (.dod9 u))
  | .tsDod12 u => .bits (encodeTs (.dod12 u))
  | .tsDod32 u => .bits (encodeTs (.dod32 u))
  | .tsEos => .bits (encodeTs .eos)
  | .bpTrailer => .bits trailerBits
  | .valExact h => .bytes (encodeVal (.exact h))
  | .valXor k t l y => .bytes (encodeVal (.xor k t l y))
  | .valEscape v => .bytes (encodeVal (.escape v))
  | .valFirst v => .bytes (bytes64 v)

end Sys2Proof
end

