-- ==== Sys2Proof/Machine/State.lean ====
section
/-! DEFINITION. The state of the core (`10_state.md` R20 to R46) as plain data, the model's own fields beside it, and the state
after reset (R42, R240). -/

namespace Sys2Proof.Machine

/-- The values of `PHASE` (R23), in the order of their codes 0 to 7. -/
inductive Phase where
  /-- `IDLE = 0`: no session. -/
  | idle
  /-- `ENC_FIRST = 1`: Encoder begun, no row yet. -/
  | encFirst
  /-- `ENC_ROW = 2`: Encoder inside a row, waiting for column values. -/
  | encRow
  /-- `ENC_RUN = 3`: Encoder between rows, at least one row done. -/
  | encRun
  /-- `ENC_DONE = 4`: Encoder finished, artifact ready. -/
  | encDone
  /-- `DEC_FIRST = 5`: Decoder initialised, no row decoded yet. -/
  | decFirst
  /-- `DEC_RUN = 6`: Decoder has a current row. -/
  | decRun
  /-- `DEC_DONE = 7`: Decoder reached end of stream. -/
  | decDone
  deriving DecidableEq, Repr

/-- The values of `BP_MODE` (R25): `WRITE = 0`, `READ = 1`. -/
inductive BpMode where
  | write
  | read
  deriving DecidableEq, Repr

/-- The hardware's fault codes (R221), in the order of their numbers `0x01` to `0x0F`. A hardware fault is a next state of the
machine (R225), not a stop of the model. -/
inductive FaultCode where
  | illegalCommand
  | sequence
  | bpMode
  | bpWidth
  | bpRange
  | bpUnderflow
  | bpOverflow
  | bbUnderflow
  | bbOverflow
  | hwIndex
  | hwEmpty
  | column
  | colcount
  | malformed
  | expIndex
  deriving DecidableEq, Repr

/-- A store indexed from 0 (R59): (index, value) pairs in one canonical form, indices strictly rising and no value 0. An
unlisted index holds 0, the reset contents R42 gives. -/
abbrev Store (w : Nat) := List (Nat × BitVec w)

/-- The byte store, `BB_B` (R30). -/
abbrev Memory := List Host.Cell

/-- A HistoryWindow (R31): the entries `HW_E[c][0 .. 126]`, offset 0 the most recent, and the count `HW_N[c]`. -/
structure Window where
  e : List Word
  n : Nat
  deriving DecidableEq, Repr

/-- A response of the command port (R70, R73). -/
structure Response where
  st : Byte
  r0 : Word
  r1 : Word
  deriving DecidableEq, Repr

/-- Everything the spec gives the core, and the model's own fields `cfg`, `port`, `resp`, `dcol`, `freeSeed`. -/
structure State where
  /-- The instance's parameters (R9 to R13). No command changes them (log entry 1). -/
  cfg : Config
  /-- `PHASE` (R23). -/
  phase : Phase
  /-- `FAULT` (R24): the code of the first fault since reset, 0 when none. -/
  fault : Byte
  /-- `FAULT_OP` (R24): the opcode of the command that raised it. -/
  faultOp : Byte
  /-- `BP_MODE` (R25). -/
  bpMode : BpMode
  /-- `BP_W` (R26). -/
  bpW : Store 64
  /-- `BP_NBITS` (R27). -/
  bpNbits : Nat
  /-- `BP_RPOS` (R28). -/
  bpRpos : Nat
  /-- `BB_B` (R30). -/
  bbB : Memory
  /-- `BB_LEN` (R30). -/
  bbLen : Nat
  /-- `BB_RPOS` (R30). -/
  bbRpos : Nat
  /-- `HW_E[c]` and `HW_N[c]` (R31), column 0 first. -/
  hw : List Window
  /-- `ANCHOR` (R32). -/
  anchor : Word
  /-- `TS` (R33). -/
  ts : Word
  /-- `DELTA` (R34). -/
  delta : Word
  /-- `NCOLS` (R35). -/
  ncols : Byte
  /-- `VIDX` (R36). -/
  vidx : Byte
  /-- `FIRST` (R37). -/
  first : Bool
  /-- `STORED_V` (R38), column 0 first. -/
  storedV : List Word
  /-- The host's commands not yet executed, the one presented first (R70; log entry 2). -/
  port : List Command
  /-- The response of the last command, none since power-on (R70, R241; log entry 4). -/
  resp : Option Response
  /-- The column a `DEC.NEXT` has reached (the loop variable of R182 and R186), 0 between commands (log entry 6). -/
  dcol : Nat
  /-- The number of faults taken, from which the values a fault leaves unspecified are drawn (R44; log entry 3). -/
  freeSeed : Nat
  deriving DecidableEq, Repr

/-- A window as reset and `HW.INIT` leave it (R42, R131): 127 entries of 0, all of them populated when `ZERO_FILL_WINDOW`. -/
def Window.empty (zeroFill : Bool) : Window := ⟨List.replicate winCap 0, if zeroFill then winCap else 0⟩

/-- The core after power-on with parameters `cfg` (R42, R240, R241). -/
def State.powerOn (cfg : Config) : State where
  cfg := cfg
  phase := .idle
  fault := 0
  faultOp := 0
  bpMode := .write
  bpW := []
  bpNbits := 0
  bpRpos := 0
  bbB := []
  bbLen := 0
  bbRpos := 0
  hw := List.replicate cfg.ncolMax (Window.empty cfg.zeroFill)
  anchor := 0
  ts := 0
  delta := 0
  ncols := 0
  vidx := 0
  first := false
  storedV := List.replicate cfg.ncolMax 0
  port := []
  resp := none
  dcol := 0
  freeSeed := 0

/-- The machine right after reset (R42, R240), with the parameters of `95_test_vectors.md` section 0 (log entry 1). -/
def State.reset : State := State.powerOn Config.standard

/-- The model's own stops. There is none: every contract violation the spec names is a hardware fault whose effect R225 gives,
which is a next state; no address map exists whose holes could be accessed (R59). Raised by nothing; safe. -/
inductive Fault where
  deriving DecidableEq, Repr

/-- The model's refusals. The core's own refusal of a command (R226) is a next state with the response `0xFF`, not one of
these. -/
inductive Refusal where
  /-- An instruction without a meaning yet. Raised by a refused arm of `exec` only; no arm is refused. Safe. -/
  | notModelled (mnemonic : String)
  deriving DecidableEq, Repr

/-- What a step or an instruction answers. -/
abbrev Out := Host.Outcome State Fault Refusal

end Sys2Proof.Machine
end

