-- ==== Sys2Proof/Machine/Store.lean ====
section
/-! DEFINITION. Reading and writing the core's stores by index (`20_memory.md` R59, R60), and the stream bits of the BitPacker
(R50 to R54). -/

namespace Sys2Proof.Machine

/-- What an index the store does not list holds: 0, the reset contents of `BP_W` and `BB_B` (R42). -/
def Store.unlisted (w : Nat) : BitVec w := 0

/-- The value at index `i`. -/
def Store.get {w : Nat} : Store w → Nat → BitVec w
  | [], _ => Store.unlisted w
  | (j, v) :: m, i => if j = i then v else Store.get m i

/-- The store with `v` at index `i`, in canonical form: writing what an unlisted index holds removes the entry. -/
def Store.set {w : Nat} : Store w → Nat → BitVec w → Store w
  | [], i, v => if v = Store.unlisted w then [] else [(i, v)]
  | (j, u) :: m, i, v =>
    if i < j then (if v = Store.unlisted w then (j, u) :: m else (i, v) :: (j, u) :: m)
    else if i = j then (if v = Store.unlisted w then m else (i, v) :: m)
    else (j, u) :: Store.set m i v

/-- Indices rise strictly from at least `lo`, and no entry holds what an unlisted index holds. -/
def Store.wfFrom {w : Nat} : Nat → Store w → Bool
  | _, [] => true
  | lo, (j, v) :: m => decide (lo ≤ j) && decide (v ≠ Store.unlisted w) && Store.wfFrom (j + 1) m

/-- The canonical form. -/
def Store.wf {w : Nat} (m : Store w) : Bool := Store.wfFrom 0 m

/-- The canonical form of the ByteBuffer's byte store. -/
def Memory.wf (m : Memory) : Bool := Store.wf (w := 8) m

/-- The store of the indices `lo` to `lo + n - 1` with the values `f` gives them, in canonical form. -/
def Store.ofFn {w : Nat} (f : Nat → BitVec w) : Nat → Nat → Store w
  | _, 0 => []
  | lo, n + 1 => if f lo = Store.unlisted w then Store.ofFn f (lo + 1) n else (lo, f lo) :: Store.ofFn f (lo + 1) n

/-- One byte of the ByteBuffer, `BB_B[j]` (R30). -/
def readByte (m : Memory) (j : Nat) : Byte := Store.get (w := 8) m j

/-- The ByteBuffer store with byte `j` written. -/
def writeByte (m : Memory) (j : Nat) (b : Byte) : Memory := Store.set (w := 8) m j b

/-- One word of the BitPacker store, `BP_W[i]` (R26). -/
def readWord (m : Store 64) (i : Nat) : Word := Store.get m i

/-- `x` with bit `i` set to `b`. -/
def withBit (x : Word) (i : Nat) (b : Bool) : Word :=
  if b then x ||| BitVec.twoPow 64 i else x &&& ~~~(BitVec.twoPow 64 i)

/-- Stream bit `k`, `S[k] = BP_W[k div 64][63 - (k mod 64)]` (R51). -/
def streamBit (m : Store 64) (k : Nat) : Bool := (readWord m (k / 64)).getLsbD (63 - k % 64)

/-- `S[k] <- b` (R51). -/
def setStreamBit (m : Store 64) (k : Nat) (b : Bool) : Store 64 :=
  Store.set m (k / 64) (withBit (readWord m (k / 64)) (63 - k % 64) b)

/-- The field of width `w` and value `v` at stream bit `n`: `S[n + j] <- v[w-1-j]` for `j` from 0 to `w - 1` (R52, R101). -/
def putField (m : Store 64) (n : Nat) (v : Word) : Nat → Store 64
  | 0 => m
  | w + 1 => putField (setStreamBit m n (v.getLsbD w)) (n + 1) v w

/-- The `w` bits from stream bit `p` shifted into `r` one by one (R54, R105). -/
def getField (m : Store 64) (p : Nat) (r : Word) : Nat → Word
  | 0 => r
  | w + 1 => getField m (p + 1) (pushBit r (streamBit m p)) w

/-- The stream bits `p` to `p + n - 1`, in stream order. -/
def streamBits (m : Store 64) (p n : Nat) : List Bool := (List.range n).map fun j => streamBit m (p + j)

/-- The bytes `p` to `p + n - 1` of the ByteBuffer, in order. -/
def storeBytes (m : Memory) (p n : Nat) : List Byte := (List.range n).map fun j => readByte m (p + j)

/-- A bit string written to the stream from bit `n` on (R50). -/
def putBits (m : Store 64) : Nat → List Bool → Store 64
  | _, [] => m
  | n, b :: l => putBits (setStreamBit m n b) (n + 1) l

/-- A byte string written to the ByteBuffer store from index `n` on (R57). -/
def putBytes (m : Memory) : Nat → List Byte → Memory
  | _, [] => m
  | n, b :: l => putBytes (writeByte m n b) (n + 1) l

/-- The word-level form of an append (R102), equal to the bit loop where the stream bits from `n` on are 0. -/
def putFieldWords (m : Store 64) (n : Nat) (v : Word) (w : Nat) : Store 64 :=
  let t := n / 64
  let o := n % 64
  if o + w ≤ 64 then Store.set m t (readWord m t ||| (v <<< (64 - o - w)))
  else Store.set (Store.set m t (readWord m t ||| (v >>> (o + w - 64)))) (t + 1) (v <<< (128 - o - w))

end Sys2Proof.Machine
end

