-- ==== Sys2Proof/Machine/Flags.lean ====
section
/-! DEFINITION. The core has no condition codes or flags register (`10_state.md` R43). What a command reports instead: the status
byte `ST` (`30_encoding.md` R73), the fault codes (`60_exceptions.md` R221) and the status word (`10_state.md` R46). -/

namespace Sys2Proof.Machine

/-- The 8-bit code of a fault (R221). -/
def faultByte : FaultCode → Byte
  | .illegalCommand => 0x01
  | .sequence => 0x02
  | .bpMode => 0x03
  | .bpWidth => 0x04
  | .bpRange => 0x05
  | .bpUnderflow => 0x06
  | .bpOverflow => 0x07
  | .bbUnderflow => 0x08
  | .bbOverflow => 0x09
  | .hwIndex => 0x0A
  | .hwEmpty => 0x0B
  | .column => 0x0C
  | .colcount => 0x0D
  | .malformed => 0x0E
  | .expIndex => 0x0F

/-- `ST` of a command that completed (R73). -/
def stOk : Byte := 0x00

/-- `ST` of a command the faulted core refused (R73, R226). -/
def stRefused : Byte := 0xFF

/-- The 3-bit code of `PHASE` (R23). -/
def phaseCode : Phase → BitVec 3
  | .idle => 0
  | .encFirst => 1
  | .encRow => 2
  | .encRun => 3
  | .encDone => 4
  | .decFirst => 5
  | .decRun => 6
  | .decDone => 7

/-- The phase with a given code (R23): every 3-bit code is one. -/
def phaseOfCode (c : BitVec 3) : Phase :=
  if c = 0 then .idle else if c = 1 then .encFirst else if c = 2 then .encRow else if c = 3 then .encRun
  else if c = 4 then .encDone else if c = 5 then .decFirst else if c = 6 then .decRun else .decDone

/-- The 1-bit code of `BP_MODE` (R25). -/
def modeCode : BpMode → BitVec 1
  | .write => 0
  | .read => 1

/-- The slots that name the free values of `Config.freeWord` and `Config.freeNat`, one for each register or store of R44, and
one for the fields of the status word read while faulted (R46). -/
def slotPhase : Nat := 0
def slotBpMode : Nat := 1
def slotBpW : Nat := 2
def slotBpNbits : Nat := 3
def slotBpRpos : Nat := 4
def slotBbB : Nat := 5
def slotBbLen : Nat := 6
def slotBbRpos : Nat := 7
def slotHwE : Nat := 8
def slotHwN : Nat := 9
def slotAnchor : Nat := 10
def slotTs : Nat := 11
def slotDelta : Nat := 12
def slotNcols : Nat := 13
def slotVidx : Nat := 14
def slotFirst : Nat := 15
def slotStoredV : Nat := 16
def slotStatus : Nat := 17

/-- The status word while `FAULT = 0` (R46, R202): `{0[63:41], FIRST, VIDX, NCOLS, FAULT_OP, FAULT, 0[7:4], BP_MODE, PHASE}`. -/
def liveStatusWord (s : State) : Word :=
  0#23 ++ BitVec.ofBool s.first ++ s.vidx ++ s.ncols ++ s.faultOp ++ s.fault ++ 0#4 ++ modeCode s.bpMode ++ phaseCode s.phase

/-- The status word while `FAULT != 0`: only `FAULT` and `FAULT_OP` are defined and every other field is any value (R44, R46),
the same one until the next fault (R61). -/
def faultedStatusWord (s : State) : Word :=
  let free := Config.freeWord s.freeSeed slotStatus 0
  free.extractLsb' 24 40 ++ s.faultOp ++ s.fault ++ free.extractLsb' 0 8

/-- The status word `CORE.STATUS` returns (R46, R202). -/
def statusWord (s : State) : Word := if s.fault = 0 then liveStatusWord s else faultedStatusWord s

end Sys2Proof.Machine
end

