-- ==== Sys2Proof/Machine/Operands.lean ====
section
/-! DEFINITION. The operand forms of the commands (`30_encoding.md` R71, R72): the immediate as a width, a bit count, a column or
a column count, and the parts of `DIN`; and the checks on them that several commands share. -/

namespace Sys2Proof.Machine

/-- The outcome of an operation inside a command: a value, or `raise Fault(CODE)` (R19, R225). -/
abbrev Comp (α : Type) := Except FaultCode α

/-- `raise Fault(CODE)` (R19). -/
def raise {α : Type} (c : FaultCode) : Comp α := Except.error c

/-- `zext_64(IMM)` as a number (R71): no sign-extension, scaling or shifting. -/
abbrev immNat (imm : Byte) : Nat := imm.toNat

/-- The byte operand of `BB.PUT`, `DIN[7:0]` (R72, R121). -/
abbrev dinByte (din : Word) : Byte := din.extractLsb' 0 8

/-- An index operand, `DIN` as `u64` (R72). -/
abbrev dinIndex (din : Word) : Nat := din.toNat

/-- The check `w < 1 or w > 64` of R101, R105 and R107. -/
def badWidth (w : Nat) : Bool := decide (w < 1) || decide (64 < w)

/-- The check `w < 64 and (v >>u w) != 0` of R101. -/
def outOfRange (v : Word) (w : Nat) : Bool := decide (w < 64) && (v >>> w != 0)

/-- The column check of R130, `COLUMN` when `c >= NCOL_MAX`. -/
def columnCheck (s : State) (col : Byte) : Comp Nat :=
  if s.cfg.ncolMax ≤ immNat col then raise .column else .ok (immNat col)

/-- The column count check of R151 and R180, `COLUMN` when `n > NCOL_MAX`. -/
def countCheck (s : State) (n : Byte) : Comp Unit :=
  if s.cfg.ncolMax < immNat n then raise .column else .ok ()

end Sys2Proof.Machine
end

