-- ==== Sys2Proof/Machine/Ops.lean ====
section
/-! DEFINITION. The operations the commands share: responding, taking a fault (`60_exceptions.md` R225), refusing (R226), leaving
a fault by reset (`70_reset_and_hazards.md` R240), and the BitPacker, ByteBuffer and HistoryWindow operations of `00_scope.md`
R19. -/

namespace Sys2Proof.Machine

/-! ## Responses, faults and reset -/

/-- The response of a completed command, `ST = 0x00` (R73). -/
def respond (r0 r1 : Word) (s : State) : State := { s with resp := some ⟨stOk, r0, r1⟩ }

/-- The refusal of a command by a faulted core: `ST = 0xFF`, `R0 = R1 = 0`, no effect (R226). -/
def refuse (s : State) : State := { s with resp := some ⟨stRefused, 0, 0⟩ }

/-- Every register and store but `FAULT` and `FAULT_OP` at a value the spec does not specify (R44): free values drawn with the
seed, which then moves on (log entry 3). The stores keep their sizes. -/
def unspecify (s : State) : State :=
  let w := Config.freeWord s.freeSeed
  let n := Config.freeNat s.freeSeed
  { s with
    phase := phaseOfCode ((w slotPhase 0).setWidth 3)
    bpMode := if (w slotBpMode 0).getLsbD 0 then .read else .write
    bpW := Store.ofFn (w slotBpW) 0 s.cfg.bpMaxWords
    bpNbits := n slotBpNbits 0
    bpRpos := n slotBpRpos 0
    bbB := Store.ofFn (w := 8) (fun j => (w slotBbB j).setWidth 8) 0 s.cfg.bbMaxBytes
    bbLen := n slotBbLen 0
    bbRpos := n slotBbRpos 0
    hw := (List.range s.cfg.ncolMax).map fun c =>
      ⟨(List.range winCap).map fun k => w slotHwE (winCap * c + k), n slotHwN c⟩
    anchor := w slotAnchor 0
    ts := w slotTs 0
    delta := w slotDelta 0
    ncols := (w slotNcols 0).setWidth 8
    vidx := (w slotVidx 0).setWidth 8
    first := (w slotFirst 0).getLsbD 0
    storedV := (List.range s.cfg.ncolMax).map (w slotStoredV)
    dcol := 0
    freeSeed := s.freeSeed + 1 }

/-- Taking a fault (R225): `FAULT <- CODE`, `FAULT_OP <- OP`, the response `ST = CODE`, `R0 = R1 = 0`, and every other register
and store unspecified. There is no handler, no vector and no saved program counter. -/
def takeFault (c : FaultCode) (op : Byte) (s : State) : State :=
  { unspecify s with fault := faultByte c, faultOp := op, resp := some ⟨faultByte c, 0, 0⟩ }

/-- Reset (R240): every register and store at its value of R42. It is the only way out of a fault (R226). The parameters are
not changed (R240); the host's pending commands and the count of faults taken are not the core's and stay (log entries 2, 3). -/
def resetCore (s : State) : State := { State.powerOn s.cfg with port := s.port, resp := s.resp, freeSeed := s.freeSeed }

/-- The frame of a command that a faulted core refuses (R226, R227): refusal first, then the command's own checks and effects,
whose first failing check ends it by the fault mechanism. -/
def runCommand (i : Instr) (s : State) (body : State → Comp (State × Word × Word)) : Out :=
  if s.fault ≠ 0 then .next (refuse s)
  else
    match body s with
    | .ok (t, r0, r1) => .next (respond r0 r1 t)
    | .error c => .next (takeFault c (opcodeOf i) s)

/-- A command word that matches no row: `ILLEGAL_COMMAND`, with the opcode of the word (R75, R221, R225, R227). -/
def illegalCommand (cw : BitVec 16) (s : State) : Out :=
  if s.fault ≠ 0 then .next (refuse s) else .next (takeFault .illegalCommand (opField cw) s)

/-- The frame of a stream code: it is read only inside `DEC.INIT` or `DEC.NEXT`, so a faulted core refuses it and a phase in
which that command is illegal raises `SEQUENCE`; it has no response of its own (R255; log entry 7). -/
def runCode (i : Instr) (phases : List Phase) (s : State) (body : State → Comp State) : Out :=
  if s.fault ≠ 0 then .next (refuse s)
  else if s.phase ∉ phases then .next (takeFault .sequence (opcodeOf i) s)
  else
    match body s with
    | .ok t => .next t
    | .error c => .next (takeFault c (opcodeOf i) s)

/-! ## BitPacker (R100 to R107) -/

/-- `ceil(BP_NBITS / 64)`, the number of words in use (R29). -/
def wordsInUse (s : State) : Nat := (s.bpNbits + 63) / 64

/-- `HEAD = BP_RPOS div 64` (R29): words below it are evicted. -/
def headWord (s : State) : Nat := s.bpRpos / 64

/-- `REMAINING = BP_NBITS - BP_RPOS` (R29). -/
def remaining (s : State) : Nat := s.bpNbits - s.bpRpos

/-- `FREE`, the free bits in the current tail word (R29). -/
def freeBits (s : State) : Nat := (64 - s.bpNbits % 64) % 64

/-- `USED`, the used bits in the current head word (R29). -/
def usedBits (s : State) : Nat := s.bpRpos % 64

/-- `BPAppend(v, w)` (R101). -/
def bpAppend (v : Word) (w : Nat) (s : State) : Comp State :=
  if s.bpMode ≠ .write then raise .bpMode
  else if badWidth w then raise .bpWidth
  else if outOfRange v w then raise .bpRange
  else if 64 * s.cfg.bpMaxWords < s.bpNbits + w then raise .bpOverflow
  else .ok { s with bpW := putField s.bpW s.bpNbits v w, bpNbits := s.bpNbits + w }

/-- Entering read mode at the first bit (R103, R104). -/
def enterRead (s : State) : State := { s with bpMode := .read, bpRpos := 0 }

/-- `BPClose()` (R103): the 133 trailer bits, checked to fit before any is appended, then read mode. -/
def bpClose (s : State) : Comp State :=
  if s.bpMode ≠ .write then raise .bpMode
  else if 64 * s.cfg.bpMaxWords < s.bpNbits + 133 then raise .bpOverflow
  else do
    let s1 ← bpAppend 0b1111 4 s
    let s2 ← bpAppend 0xFFFFFFFFFFFFFFFF 64 s1
    let s3 ← bpAppend 0xFFFFFFFFFFFFFFFF 64 s2
    let s4 ← bpAppend 0 1 s3
    return enterRead s4

/-- The freeze alone (R104). -/
def bpFreeze (s : State) : Comp State := if s.bpMode ≠ .write then raise .bpMode else .ok (enterRead s)

/-- `BPRead(w)` (R105). -/
def bpRead (w : Nat) (s : State) : Comp (Word × State) :=
  if s.bpMode ≠ .read then raise .bpMode
  else if badWidth w then raise .bpWidth
  else if s.bpNbits - s.bpRpos < w then raise .bpUnderflow
  else .ok (getField s.bpW s.bpRpos 0 w, { s with bpRpos := s.bpRpos + w })

/-- The loop of R107 with `n` bits still allowed. -/
def readRunLoop : Nat → Word → State → Comp (Word × State)
  | 0, r, s => .ok (r, s)
  | n + 1, r, s =>
    if s.bpNbits - s.bpRpos < 1 then raise .bpUnderflow
    else
      let b := streamBit s.bpW s.bpRpos
      let s1 := { s with bpRpos := s.bpRpos + 1 }
      if b then readRunLoop n (pushBit r b) s1 else .ok (pushBit r b, s1)

/-- `BPReadRun(m)` (R107). -/
def bpReadRun (m : Nat) (s : State) : Comp (Word × State) :=
  if s.bpMode ≠ .read then raise .bpMode
  else if badWidth m then raise .bpWidth
  else readRunLoop m 0 s

/-- What `BP.SIZE` counts (R106): bits written in write mode, bits remaining in read mode. -/
def bpSizeBits (s : State) : Nat := if s.bpMode = .write then s.bpNbits else s.bpNbits - s.bpRpos

/-! ## ByteBuffer (R120 to R124) -/

/-- `BBPut(b)` (R121). -/
def bbPut (b : Byte) (s : State) : Comp State :=
  if s.cfg.bbMaxBytes ≤ s.bbLen then raise .bbOverflow
  else .ok { s with bbB := writeByte s.bbB s.bbLen b, bbLen := s.bbLen + 1 }

/-- Several `BBPut` in order, faulting as the first failing one does (R124). -/
def bbPutAll : List Byte → State → Comp State
  | [], s => .ok s
  | b :: l, s => do
    let s1 ← bbPut b s
    bbPutAll l s1

/-- `BBPut64(x)` (R124). -/
def bbPut64 (x : Word) (s : State) : Comp State := bbPutAll (bytes64 x) s

/-- `BBGet()` (R122). -/
def bbGet (s : State) : Comp (Byte × State) :=
  if s.bbLen ≤ s.bbRpos then raise .bbUnderflow
  else .ok (readByte s.bbB s.bbRpos, { s with bbRpos := s.bbRpos + 1 })

/-- `n` more `BBGet()` calls shifted into `r` (R124). -/
def bbGetLoop : Nat → Word → State → Comp (Word × State)
  | 0, r, s => .ok (r, s)
  | n + 1, r, s => do
    let (b, s1) ← bbGet s
    bbGetLoop n (pushByte r b) s1

/-- `BBGetN(L)` (R124). -/
def bbGetN (n : Nat) (s : State) : Comp (Word × State) := bbGetLoop n 0 s

/-- `BBGet64()` (R124). -/
def bbGet64 (s : State) : Comp (Word × State) := bbGetN 8 s

/-! ## HistoryWindow (R130 to R136) -/

/-- Window `c` (R31). A column the instance does not have reads as an empty window; every caller has checked the column. -/
def window (s : State) (c : Nat) : Window := s.hw.getD c ⟨[], 0⟩

/-- The state with window `c` replaced. -/
def setWindow (s : State) (c : Nat) (x : Window) : State := { s with hw := s.hw.set c x }

/-- `HW_E[c][k]` (R31). -/
def Window.entry (x : Window) (k : Nat) : Word := x.e.getD k 0

/-- `HWInit(c)` (R131). -/
def hwInit (c : Nat) (s : State) : State := setWindow s c (Window.empty s.cfg.zeroFill)

/-- `for c in 0 .. n-1: HWInit(c)` (R152, R180). -/
def hwInitBelow : Nat → State → State
  | 0, s => s
  | n + 1, s => hwInit n (hwInitBelow n s)

/-- `add(value)` on a window (R132): the entries up to offset `min(HW_N, 126)` move one offset up, `v` goes to offset 0. -/
def Window.push (v : Word) (x : Window) : Window :=
  ⟨v :: (x.e.take (min x.n 126) ++ x.e.drop (min x.n 126 + 1)), min (x.n + 1) winCap⟩

/-- `HWAdd(c, v)` (R132). -/
def hwAdd (c : Nat) (v : Word) (s : State) : State := setWindow s c ((window s c).push v)

/-- `HWContains(c, v)` (R133): the lowest populated offset that holds `v`. -/
def Window.find (v : Word) (x : Window) : Option Nat := (List.range x.n).find? fun k => x.entry k == v

/-- The score of an entry against `v`, `lzb(x) + tzb(x)` of their XOR (R134). -/
def score (e v : Word) : Nat := lzb (e ^^^ v) + tzb (e ^^^ v)

/-- One turn of the scan of R134: a strictly greater score takes over. -/
def bestStep (v : Word) (x : Window) (best : Nat × Int) (k : Nat) : Nat × Int :=
  if best.2 < (score (x.entry k) v : Int) then (k, (score (x.entry k) v : Int)) else best

/-- The scan of R134 over offsets 0 to `n - 1`, from `bk = 0`, `bs = -1`. -/
def Window.bestBelow (v : Word) (x : Window) (n : Nat) : Nat × Int := (List.range n).foldl (bestStep v x) (0, -1)

/-- `HWBest(c, v)` (R134): the winning offset and its entry. -/
def Window.best (v : Word) (x : Window) : Comp (Nat × Word) :=
  if x.n = 0 then raise .hwEmpty
  else .ok ((x.bestBelow v x.n).1, x.entry (x.bestBelow v x.n).1)

/-- `HWAt(c, k)` (R135). -/
def Window.entryAt (k : Nat) (x : Window) : Comp Word := if x.n ≤ k then raise .hwIndex else .ok (x.entry k)

end Sys2Proof.Machine
end

