-- ==== Sys2Proof/Machine/BitPacker.lean ====
section
/-! DEFINITION. BitPacker commands (`40_bitpacker.md` R100 to R107). Legal in every phase (D22). -/

namespace Sys2Proof.Machine

/-- A count as a 64-bit result, modulo 2^64 (R15; log entry 11). -/
def countWord (n : Nat) : Word := BitVec.ofNat 64 n

/-- `BP.APPEND WIDTH, bits` (R101). -/
def execBpAppend (width : Byte) (din : Word) (s : State) : Out :=
  runCommand (.bpAppend width din) s fun s => do
    let t ← bpAppend din (immNat width) s
    return (t, 0, 0)

/-- `BP.CLOSE` (R103). -/
def execBpClose (s : State) : Out :=
  runCommand .bpClose s fun s => do
    let t ← bpClose s
    return (t, 0, 0)

/-- `BP.READ WIDTH` (R105). -/
def execBpRead (width : Byte) (s : State) : Out :=
  runCommand (.bpRead width) s fun s => do
    let (r, t) ← bpRead (immNat width) s
    return (t, r, 0)

/-- `BP.SIZE` (R106). -/
def execBpSize (s : State) : Out := runCommand .bpSize s fun s => .ok (s, countWord (bpSizeBits s), 0)

/-- `BP.READRUN MAXBITS` (R107). -/
def execBpReadrun (maxbits : Byte) (s : State) : Out :=
  runCommand (.bpReadrun maxbits) s fun s => do
    let (r, t) ← bpReadRun (immNat maxbits) s
    return (t, r, 0)

/-- `BP.FREEZE` (R104). -/
def execBpFreeze (s : State) : Out :=
  runCommand .bpFreeze s fun s => do
    let t ← bpFreeze s
    return (t, 0, 0)

end Sys2Proof.Machine
end

