-- ==== Sys2Proof/Machine/ByteBuffer.lean ====
section
/-! DEFINITION. ByteBuffer commands (`41_bytebuffer.md` R120 to R124). Legal in every phase (D22). -/

namespace Sys2Proof.Machine

/-- `BB.PUT byte` (R121): `DIN[63:8]` is ignored. -/
def execBbPut (din : Word) (s : State) : Out :=
  runCommand (.bbPut din) s fun s => do
    let t ← bbPut (dinByte din) s
    return (t, 0, 0)

/-- `BB.GET` (R122). -/
def execBbGet (s : State) : Out :=
  runCommand .bbGet s fun s => do
    let (b, t) ← bbGet s
    return (t, b.setWidth 64, 0)

/-- `BB.LEN` (R123). -/
def execBbLen (s : State) : Out := runCommand .bbLen s fun s => .ok (s, countWord s.bbLen, countWord s.bbRpos)

end Sys2Proof.Machine
end

