-- ==== Sys2Proof/Machine/Decoder.lean ====
section
/-! DEFINITION. Decoder commands (`44_decoder.md` R180 to R191): reading the codes of the stream, and what each code does. -/

namespace Sys2Proof.Machine

/-! ## What a stream code does when the Decoder reads it -/

/-- The anchor field (R180). -/
def takeAnchor (a : Word) (s : State) : State := { s with anchor := a }

/-- The first row's timestamp (R183): `TS <- ANCHOR + fd`, `DELTA <- fd`. -/
def takeFirstDelta (d : BitVec 32) (s : State) : State :=
  { s with ts := s.anchor + d.setWidth 64, delta := d.setWidth 64 }

/-- A later row's timestamp from the payload `u` (R185): `DELTA <- DELTA + dod`, `TS <- TS + DELTA`. -/
def takeDod (u : Word) (s : State) : State :=
  { s with delta := s.delta + unzigzag u, ts := s.ts + (s.delta + unzigzag u) }

/-- End of stream (R181, R184, R185). -/
def takeEnd (s : State) : State := { s with phase := .decDone }

/-- A decoded value (R182, R188): into the window and the row, and on to the next column. -/
def storeValue (v : Word) (s : State) : State :=
  let s1 := hwAdd s.dcol v s
  { s1 with storedV := s1.storedV.set s.dcol v, dcol := s.dcol + 1 }

/-- The value of an XOR code (R187): `(y << (8 * T)) ^ HWAt(c, k)`, with the check `T + L > 8` before it. -/
def xorValue (k : BitVec 7) (t l : BitVec 4) (y : Word) (x : Window) : Comp Word :=
  if 8 < t.toNat + l.toNat then raise .malformed
  else do
    let e ← x.entryAt k.toNat
    return (y <<< (8 * t.toNat)) ^^^ e

/-- The value a code stands for against a window (R186, R187). -/
def codeValue (c : ValCode) (x : Window) : Comp Word :=
  match c with
  | .exact h => x.entryAt h.toNat
  | .xor k t l y => xorValue k t l y x
  | .escape v => .ok v

/-- A later row's value code for the current column (R186 to R188). -/
def takeValCode (c : ValCode) (s : State) : Comp State := do
  let v ← codeValue c (window s s.dcol)
  return storeValue v s

/-- The payload of a timestamp code, zero-extended (R185); 0 for `dod = 0`. End of stream has none. -/
def tsPayload : TsCode → Word
  | .dod0 => 0
  | .dod7 u => u.setWidth 64
  | .dod9 u => u.setWidth 64
  | .dod12 u => u.setWidth 64
  | .dod32 u => u.setWidth 64
  | .eos => 0

/-! ## Reading the codes -/

/-- The timestamp code at the head of the BitPacker (R185): `BPReadRun(4)`, then the bucket's payload. -/
def readTsCode (s : State) : Comp (TsCode × State) := do
  let (p, s1) ← bpReadRun 4 s
  if p = 0 then return (tsOfPrefix p 0, s1)
  else
    let (u, s2) ← bpRead (tsPayloadWidth p) s1
    return (tsOfPrefix p u, s2)

/-- The value code at the head of the ByteBuffer (R186, R187). No data byte is read when `T + L > 8`. -/
def readValCode (s : State) : Comp (ValCode × State) := do
  let (h, s1) ← bbGet s
  if h.toNat < 0x80 then return (.exact (h.setWidth 7), s1)
  else if h = 0xFF then
    let (v, s2) ← bbGet64 s1
    return (.escape v, s2)
  else
    let (info, s2) ← bbGet s1
    if 8 < (infoT info).toNat + (infoL info).toNat then
      return (.xor (h.setWidth 7) (infoT info) (infoL info) 0, s2)
    else
      let (y, s3) ← bbGetN (infoL info).toNat s2
      return (.xor (h.setWidth 7) (infoT info) (infoL info) y, s3)

/-- `n` first-row values from the current column on (R182). -/
def readFirstValues : Nat → State → Comp State
  | 0, s => .ok s
  | n + 1, s => do
    let (v, s1) ← bbGet64 s
    readFirstValues n (storeValue v s1)

/-- `n` later-row values from the current column on (R186 to R188). -/
def readRowValues : Nat → State → Comp State
  | 0, s => .ok s
  | n + 1, s => do
    let (c, s1) ← readValCode s
    let s2 ← takeValCode c s1
    readRowValues n s2

/-- `DecodeFirstRow()` (R182 to R184); the Boolean is `end`. -/
def decodeFirstRow (s : State) : Comp (Bool × State) := do
  let (fd, s1) ← bpRead 32 s
  if fd = 0xFFFFFFFF then return (true, s1)
  else
    let s2 ← readFirstValues s1.ncols.toNat { s1 with dcol := 0 }
    return (false, takeFirstDelta (fd.setWidth 32) { s2 with dcol := 0 })

/-- `DecodeLaterRow()` (R185 to R188); the Boolean is `end`. -/
def decodeLaterRow (s : State) : Comp (Bool × State) := do
  let (c, s1) ← readTsCode s
  if c = .eos then return (true, s1)
  else
    let s2 ← readRowValues s1.ncols.toNat { takeDod (tsPayload c) s1 with dcol := 0 }
    return (false, { s2 with dcol := 0 })

/-- The row `DEC.NEXT` decodes (R181): the first one or a later one. -/
def decodeRow (s : State) : Comp (Bool × State) := if s.phase = .decFirst then decodeFirstRow s else decodeLaterRow s

/-- The end of `DEC.NEXT` (R181): `PHASE` and `R0`. -/
def finishNext (ended : Bool) (s : State) : State × Word × Word :=
  if ended then (takeEnd s, 0, 0) else ({ s with phase := .decRun }, 1, 0)

/-! ## The commands -/

/-- The Decoder's registers at a session's start, after the anchor is read (R180). -/
def startDecoder (n : Byte) (s : State) : State :=
  { hwInitBelow (immNat n) { s with ncols := n } with ts := 0, delta := 0, vidx := 0, first := false, phase := .decFirst }

/-- `DEC.INIT N` (R180). -/
def execDecInit (n : Byte) (s : State) : Out :=
  runCommand (.decInit n) s fun s =>
    if s.phase ≠ .idle ∧ s.phase ≠ .encDone then raise .sequence
    else do
      countCheck s n
      let (a, s1) ← bpRead 64 s
      return (startDecoder n (takeAnchor a s1), 0, 0)

/-- `DEC.NEXT` (R181). -/
def execDecNext (s : State) : Out :=
  runCommand .decNext s fun s =>
    if s.phase ≠ .decFirst ∧ s.phase ≠ .decRun then raise .sequence
    else do
      let (ended, s1) ← decodeRow s
      return finishNext ended s1

/-- `DEC.TS` (R190). -/
def execDecTs (s : State) : Out :=
  runCommand .decTs s fun s => if s.phase ≠ .decRun then raise .sequence else .ok (s, s.ts, 0)

/-- `DEC.VAL COL` (R191). -/
def execDecVal (col : Byte) (s : State) : Out :=
  runCommand (.decVal col) s fun s =>
    if s.phase ≠ .decRun then raise .sequence
    else if s.ncols.toNat ≤ immNat col then raise .column
    else .ok (s, s.storedV.getD (immNat col) 0, 0)

end Sys2Proof.Machine
end

