-- ==== Sys2Proof/Machine/Encoder.lean ====
section
/-! DEFINITION. Encoder commands (`43_encoder.md` R150 to R165). -/

namespace Sys2Proof.Machine

/-- Clearing the BitPacker and the ByteBuffer (R45, R150). -/
def clearStores (s : State) : State :=
  { s with bpMode := .write, bpNbits := 0, bpRpos := 0, bpW := [], bbLen := 0, bbRpos := 0, bbB := [] }

/-- The codec registers at a session's start (R150). -/
def startEncoder (a : Word) (s : State) : State :=
  { s with anchor := a, ts := 0, delta := 0, ncols := 0, vidx := 0, first := false }

/-- `ENC.BEGIN anchor` (R150). -/
def execEncBegin (din : Word) (s : State) : Out :=
  runCommand (.encBegin din) s fun s =>
    if s.phase ≠ .idle then raise .sequence
    else do
      let t ← bpAppend din 64 (startEncoder din (clearStores s))
      return ({ t with phase := .encFirst }, 0, 0)

/-- `FirstRowTimestamp(n, t)` (R152). The append faults `BP_RANGE` unless the first delta is below 2^32. -/
def firstRowTimestamp (n : Byte) (t : Word) (s : State) : Comp State := do
  let s1 ← bpAppend (t - s.anchor) 32 (hwInitBelow (immNat n) { s with ncols := n })
  return { s1 with ts := t, delta := t - s.anchor, first := true }

/-- `AppendBucket(u)` (R154, R155): the smallest bucket covering `bitlen(u)`; the escape bucket keeps the low 32 bits. -/
def appendBucket (u : Word) (s : State) : Comp State :=
  if bitlen u ≤ 7 then bpAppend ((0b10#64 <<< 7) ||| u) 9 s
  else if bitlen u ≤ 9 then bpAppend ((0b110#64 <<< 9) ||| u) 12 s
  else if bitlen u ≤ 12 then bpAppend ((0b1110#64 <<< 12) ||| u) 16 s
  else do
    let s1 ← bpAppend 0b1111 4 s
    bpAppend (u &&& 0xFFFFFFFF) 32 s1

/-- `dod` of a later row's timestamp: `(t - TS) - DELTA`, modulo 2^64 (R153). -/
def dodOf (t : Word) (s : State) : Word := (t - s.ts) - s.delta

/-- The code of a delta of deltas (R153): the single bit 0 for 0, else a bucket. -/
def appendDod (dod : Word) (s : State) : Comp State :=
  if dod = 0 then bpAppend 0 1 s else appendBucket (zigzag dod) s

/-- `EncodeTimestamp(t)` (R153, R156): `DELTA` takes the true delta, whatever the code kept of it. -/
def encodeTimestamp (t : Word) (s : State) : Comp State := do
  let s1 ← appendDod (dodOf t s) s
  return { s1 with delta := t - s.ts, ts := t }

/-- The timestamp of a row of `n` columns (R151): the first row's fixes the column count, a later row must have it. -/
def rowTimestamp (n : Byte) (t : Word) (s : State) : Comp State :=
  if s.phase = .encFirst then firstRowTimestamp n t s
  else if n ≠ s.ncols then raise .colcount
  else encodeTimestamp t s

/-- Entering a row after its timestamp (R151): a row of no columns is complete at once. -/
def enterRow (s : State) : State :=
  if s.ncols = 0 then { s with vidx := 0, first := false, phase := .encRun } else { s with vidx := 0, phase := .encRow }

/-- `ENC.ROW N, timestamp` (R151). -/
def execEncRow (n : Byte) (din : Word) (s : State) : Out :=
  runCommand (.encRow n din) s fun s =>
    if s.phase ≠ .encFirst ∧ s.phase ≠ .encRun then raise .sequence
    else do
      countCheck s n
      let t ← rowTimestamp n din s
      return (enterRow t, 0, 0)

/-- The value the Encoder stores: every not-a-number pattern becomes `NAN_SENTINEL` (R157, R159). -/
def canonical (v : Word) (s : State) : Word := if isNaN v then s.cfg.nanSentinel else v

/-- The XOR code of R161 for candidate `cand` at offset `k`, or the escape of R162 when it is not worthwhile. -/
def xorOrEscape (k : Nat) (cand raw : Word) : ValCode :=
  let x := cand ^^^ raw
  if 1 < lzb x + tzb x then
    .xor (BitVec.ofNat 7 k) (BitVec.ofNat 4 (tzb x)) (BitVec.ofNat 4 (8 - lzb x - tzb x)) (x >>> (8 * tzb x))
  else .escape raw

/-- The value code the Encoder emits (R160 to R162): exact match first, then XOR against the best candidate, then escape. -/
def chooseCode (x : Window) (raw : Word) : Comp ValCode :=
  match x.find raw with
  | some k => .ok (.exact (BitVec.ofNat 7 k))
  | none => do
    let (k, cand) ← x.best raw
    return xorOrEscape k cand raw

/-- `EncodeValue(c, raw)` (R160 to R162): the code's bytes are appended in order. -/
def encodeValue (c : Nat) (raw : Word) (s : State) : Comp State := do
  let code ← chooseCode (window s c) raw
  bbPutAll (encodeVal code) s

/-- The step to the next column, or out of the row after its last value (R157). -/
def nextColumn (s : State) : State :=
  if s.vidx + 1 = s.ncols then { s with vidx := 0, first := false, phase := .encRun } else { s with vidx := s.vidx + 1 }

/-- The bytes of a value (R157): 8 raw bytes in the first row (R158), a code in a later one. -/
def appendValue (c : Nat) (raw : Word) (s : State) : Comp State :=
  if s.first then bbPut64 raw s else encodeValue c raw s

/-- `ENC.VAL value` (R157, R158, R163). -/
def execEncVal (din : Word) (s : State) : Out :=
  runCommand (.encVal din) s fun s =>
    if s.phase ≠ .encRow then raise .sequence
    else do
      let c := s.vidx.toNat
      let raw := canonical din s
      let s1 ← appendValue c raw s
      return (nextColumn (hwAdd c raw s1), 0, 0)

/-- `ENC.FINISH` (R164). -/
def execEncFinish (s : State) : Out :=
  runCommand .encFinish s fun s =>
    if s.phase ≠ .encFirst ∧ s.phase ≠ .encRun then raise .sequence
    else do
      let t ← bpClose s
      return ({ t with phase := .encDone }, 0, 0)

/-- `ENC.BITSIZE` (R165). -/
def execEncBitsize (s : State) : Out :=
  runCommand .encBitsize s fun s => .ok (s, countWord (bpSizeBits s + 8 * s.bbLen), 0)

end Sys2Proof.Machine
end

