-- ==== Sys2Proof/Machine/Export.lean ====
section
/-! DEFINITION. Export commands (`45_system.md` R204 to R207). Legal in every phase; they change nothing (R61). -/

namespace Sys2Proof.Machine

/-- `EXP.NWORDS` (R204). -/
def execExpNwords (s : State) : Out :=
  runCommand .expNwords s fun s => .ok (s, countWord (wordsInUse s), countWord s.bpNbits)

/-- `EXP.WORD index` (R205, R206): a word with no stream bit, or an evicted one, is `EXP_INDEX`. -/
def execExpWord (din : Word) (s : State) : Out :=
  runCommand (.expWord din) s fun s =>
    if dinIndex din < headWord s ∨ wordsInUse s ≤ dinIndex din then raise .expIndex
    else .ok (s, readWord s.bpW (dinIndex din), 0)

/-- `EXP.BYTE index` (R207): consumed bytes stay readable. -/
def execExpByte (din : Word) (s : State) : Out :=
  runCommand (.expByte din) s fun s =>
    if s.bbLen ≤ dinIndex din then raise .expIndex
    else .ok (s, (readByte s.bbB (dinIndex din)).setWidth 64, 0)

end Sys2Proof.Machine
end

