-- ==== Sys2Proof/Machine/HistoryWindow.lean ====
section
/-! DEFINITION. HistoryWindow commands (`42_history_window.md` R130 to R136). Each begins with the column check of R130. Legal in
every phase (D22). -/

namespace Sys2Proof.Machine

/-- `HW.INIT COL` (R131). -/
def execHwInit (col : Byte) (s : State) : Out :=
  runCommand (.hwInit col) s fun s => do
    let c ← columnCheck s col
    return (hwInit c s, 0, 0)

/-- `HW.ADD COL, value` (R132). -/
def execHwAdd (col : Byte) (din : Word) (s : State) : Out :=
  runCommand (.hwAdd col din) s fun s => do
    let c ← columnCheck s col
    return (hwAdd c din s, 0, 0)

/-- The results of `HW.CONTAINS`: found, and the offset (R133). -/
def foundResult : Option Nat → Word × Word
  | some k => (1, countWord k)
  | none => (0, 0)

/-- `HW.CONTAINS COL, value` (R133). -/
def execHwContains (col : Byte) (din : Word) (s : State) : Out :=
  runCommand (.hwContains col din) s fun s => do
    let c ← columnCheck s col
    return (s, foundResult ((window s c).find din))

/-- `HW.BEST COL, value` (R134): the candidate and its offset. -/
def execHwBest (col : Byte) (din : Word) (s : State) : Out :=
  runCommand (.hwBest col din) s fun s => do
    let c ← columnCheck s col
    let (k, e) ← (window s c).best din
    return (s, e, countWord k)

/-- `HW.AT COL, offset` (R135). -/
def execHwAt (col : Byte) (din : Word) (s : State) : Out :=
  runCommand (.hwAt col din) s fun s => do
    let c ← columnCheck s col
    let e ← (window s c).entryAt (dinIndex din)
    return (s, e, 0)

/-- `HW.COUNT COL` (R136). -/
def execHwCount (col : Byte) (s : State) : Out :=
  runCommand (.hwCount col) s fun s => do
    let c ← columnCheck s col
    return (s, countWord (window s c).n, 0)

end Sys2Proof.Machine
end

