-- ==== Sys2Proof/Machine/StreamCodes.lean ====
section
/-! DEFINITION. The stream codes as instructions: the effect `44_decoder.md` R180 to R188 give a code once the Decoder has read
it from the head of its buffer. The codes are read inside `DEC.INIT` (the anchor) and `DEC.NEXT` (every other), which advance
the buffer past the code (`readTsCode`, `readValCode`, `bpRead`, `bbGet64`); log entry 7. -/

namespace Sys2Proof.Machine

/-- A code that gives a value of the current row: the row has `NCOLS` of them (R182, R186), and a code beyond the last column
raises `COLUMN` (log entry 7; no step runs one). -/
def inRow (s : State) (body : State → Comp State) : Comp State :=
  if s.ncols.toNat ≤ s.dcol then raise .column else body s

/-- `TS.ANCHOR` (R79, R180). -/
def execTsAnchor (a : Word) (s : State) : Out :=
  runCode (.tsAnchor a) [.idle, .encDone] s fun s => .ok (takeAnchor a s)

/-- `TS.FIRSTDELTA` (R79, R183, R184): all ones is end of stream. -/
def execTsFirstdelta (d : BitVec 32) (s : State) : Out :=
  runCode (.tsFirstdelta d) [.decFirst] s fun s =>
    .ok (if d = BitVec.allOnes 32 then takeEnd s else takeFirstDelta d s)

/-- `TS.DOD0` (R80, R185). -/
def execTsDod0 (s : State) : Out := runCode .tsDod0 [.decRun] s fun s => .ok (takeDod (tsPayload .dod0) s)

/-- `TS.DOD7` (R80, R185). -/
def execTsDod7 (u : BitVec 7) (s : State) : Out :=
  runCode (.tsDod7 u) [.decRun] s fun s => .ok (takeDod (tsPayload (.dod7 u)) s)

/-- `TS.DOD9` (R80, R185). -/
def execTsDod9 (u : BitVec 9) (s : State) : Out :=
  runCode (.tsDod9 u) [.decRun] s fun s => .ok (takeDod (tsPayload (.dod9 u)) s)

/-- `TS.DOD12` (R80, R185). -/
def execTsDod12 (u : BitVec 12) (s : State) : Out :=
  runCode (.tsDod12 u) [.decRun] s fun s => .ok (takeDod (tsPayload (.dod12 u)) s)

/-- `TS.DOD32` (R80, R185): a payload of all ones is `TS.EOS` (R81). -/
def execTsDod32 (u : BitVec 32) (s : State) : Out :=
  runCode (.tsDod32 u) [.decRun] s fun s =>
    .ok (if u = BitVec.allOnes 32 then takeEnd s else takeDod (tsPayload (.dod32 u)) s)

/-- `TS.EOS` (R81, R185). -/
def execTsEos (s : State) : Out := runCode .tsEos [.decRun] s fun s => .ok (takeEnd s)

/-- `BP.TRAILER` (R103, R109): at a row boundary the Decoder reads the trailer's beginning as end of stream, whether the first
row (R184) or a later one (R185) stood there. -/
def execBpTrailer (s : State) : Out := runCode .bpTrailer [.decFirst, .decRun] s fun s => .ok (takeEnd s)

/-- `VAL.EXACT` (R83, R186, R188). -/
def execValExact (h : BitVec 7) (s : State) : Out :=
  runCode (.valExact h) [.decRun] s fun s => inRow s (takeValCode (.exact h))

/-- `VAL.XOR` (R84, R85, R187, R188). -/
def execValXor (k : BitVec 7) (t l : BitVec 4) (y : Word) (s : State) : Out :=
  runCode (.valXor k t l y) [.decRun] s fun s => inRow s (takeValCode (.xor k t l y))

/-- `VAL.ESCAPE` (R86, R186, R188). -/
def execValEscape (v : Word) (s : State) : Out :=
  runCode (.valEscape v) [.decRun] s fun s => inRow s (takeValCode (.escape v))

/-- `VAL.FIRST` (R88, R182). -/
def execValFirst (v : Word) (s : State) : Out :=
  runCode (.valFirst v) [.decFirst] s fun s => inRow s fun s => .ok (storeValue v s)

end Sys2Proof.Machine
end

