-- ==== Sys2Proof/Machine/System.lean ====
section
/-! DEFINITION. System commands (`45_system.md` R200 to R203). They run in a faulted core too (R203). -/

namespace Sys2Proof.Machine

/-- `NOP` (R200). -/
def execNop (s : State) : Out := .next (respond 0 0 s)

/-- `CORE.RESET` (R201, R240, R241): `ST = 0x00` even from a faulted core. -/
def execCoreReset (s : State) : Out := .next (respond 0 0 (resetCore s))

/-- `CORE.STATUS` (R202). -/
def execCoreStatus (s : State) : Out := .next (respond (statusWord s) 0 s)

end Sys2Proof.Machine
end

