-- ==== Sys2Proof/Machine/Dispatch.lean ====
section
/-! DEFINITION. The meaning of every instruction: one arm per constructor of `Instr`. -/

namespace Sys2Proof.Machine

def exec (i : Instr) (s : State) : Host.Outcome State Fault Refusal :=
  match i with
  | .nop => Sys2Proof.Machine.execNop s
  | .coreReset => Sys2Proof.Machine.execCoreReset s
  | .coreStatus => Sys2Proof.Machine.execCoreStatus s
  | .bpAppend width din => Sys2Proof.Machine.execBpAppend width din s
  | .bpClose => Sys2Proof.Machine.execBpClose s
  | .bpRead width => Sys2Proof.Machine.execBpRead width s
  | .bpSize => Sys2Proof.Machine.execBpSize s
  | .bpReadrun maxbits => Sys2Proof.Machine.execBpReadrun maxbits s
  | .bpFreeze => Sys2Proof.Machine.execBpFreeze s
  | .bbPut din => Sys2Proof.Machine.execBbPut din s
  | .bbGet => Sys2Proof.Machine.execBbGet s
  | .bbLen => Sys2Proof.Machine.execBbLen s
  | .hwInit col => Sys2Proof.Machine.execHwInit col s
  | .hwAdd col din => Sys2Proof.Machine.execHwAdd col din s
  | .hwContains col din => Sys2Proof.Machine.execHwContains col din s
  | .hwBest col din => Sys2Proof.Machine.execHwBest col din s
  | .hwAt col din => Sys2Proof.Machine.execHwAt col din s
  | .hwCount col => Sys2Proof.Machine.execHwCount col s
  | .encBegin din => Sys2Proof.Machine.execEncBegin din s
  | .encRow n din => Sys2Proof.Machine.execEncRow n din s
  | .encVal din => Sys2Proof.Machine.execEncVal din s
  | .encFinish => Sys2Proof.Machine.execEncFinish s
  | .encBitsize => Sys2Proof.Machine.execEncBitsize s
  | .decInit n => Sys2Proof.Machine.execDecInit n s
  | .decNext => Sys2Proof.Machine.execDecNext s
  | .decTs => Sys2Proof.Machine.execDecTs s
  | .decVal col => Sys2Proof.Machine.execDecVal col s
  | .expNwords => Sys2Proof.Machine.execExpNwords s
  | .expWord din => Sys2Proof.Machine.execExpWord din s
  | .expByte din => Sys2Proof.Machine.execExpByte din s
  | .tsAnchor a => Sys2Proof.Machine.execTsAnchor a s
  | .tsFirstdelta d => Sys2Proof.Machine.execTsFirstdelta d s
  | .tsDod0 => Sys2Proof.Machine.execTsDod0 s
  | .tsDod7 u => Sys2Proof.Machine.execTsDod7 u s
  | .tsDod9 u => Sys2Proof.Machine.execTsDod9 u s
  | .tsDod12 u => Sys2Proof.Machine.execTsDod12 u s
  | .tsDod32 u => Sys2Proof.Machine.execTsDod32 u s
  | .tsEos => Sys2Proof.Machine.execTsEos s
  | .bpTrailer => Sys2Proof.Machine.execBpTrailer s
  | .valExact h => Sys2Proof.Machine.execValExact h s
  | .valXor k t l y => Sys2Proof.Machine.execValXor k t l y s
  | .valEscape v => Sys2Proof.Machine.execValEscape v s
  | .valFirst v => Sys2Proof.Machine.execValFirst v s

end Sys2Proof.Machine
end

