-- ==== Sys2Proof/Machine/Fetch.lean ====
section
/-! DEFINITION. Taking a command from the port (`30_encoding.md` R70), and placing an instruction where the next step reads it:
a command on the port; a stream code at the head of its buffer, with the session state and the one command that make the
Decoder read it (log entry 8). -/

namespace Sys2Proof.Machine

/-- The command the host presents, and the state with it taken from the port; `none` when the host presents none (R70, R242). -/
def fetchCommand (s : State) : Option (Command × State) :=
  match s.port with
  | [] => none
  | c :: rest => some (c, { s with port := rest })

/-- The state with a command presented next. -/
def presentCommand (c : Command) (s : State) : State := { s with port := c :: s.port }

/-- The BitPacker frozen with the bits `l` as its whole stream. -/
def loadBits (l : List Bool) (s : State) : State :=
  { s with bpMode := .read, bpW := putBits [] 0 l, bpNbits := l.length, bpRpos := 0 }

/-- The ByteBuffer with the bytes `l` as its whole content. -/
def loadBytes (l : List Byte) (s : State) : State := { s with bbB := putBytes [] 0 l, bbLen := l.length, bbRpos := 0 }

/-- `DEC.NEXT` as the host presents it (R181). -/
def cmdDecNext : Command := ⟨commandWord (opcodeOf .decNext) 0, 0⟩

/-- `DEC.INIT 0` as the host presents it (R180). -/
def cmdDecInit0 : Command := ⟨commandWord (opcodeOf (.decInit 0)) 0, 0⟩

/-- The state in which the next step reads the encoded instruction at its place. A value code of a later row stands behind a
row's timestamp code, here `TS.DOD0`; a first-row value behind the first delta, here 0. -/
def placeEncoded (p : Place) (e : Encoded) (s : State) : State :=
  match p, e with
  | .port, .command c => presentCommand c s
  | .anchor, .bits l => presentCommand cmdDecInit0 { loadBits l s with phase := .idle }
  | .firstDelta, .bits l => presentCommand cmdDecNext { loadBits l s with phase := .decFirst, ncols := 0 }
  | .tsRow, .bits l => presentCommand cmdDecNext { loadBits l s with phase := .decRun, ncols := 0 }
  | .trailer, .bits l => presentCommand cmdDecNext { loadBits l s with phase := .decRun, ncols := 0 }
  | .firstVal, .bytes l =>
    presentCommand cmdDecNext
      { loadBytes l (loadBits (List.replicate 32 false) s) with phase := .decFirst, ncols := 1, dcol := 0 }
  | .rowVal, .bytes l =>
    presentCommand cmdDecNext { loadBytes l (loadBits [false] s) with phase := .decRun, ncols := 1, dcol := 0 }
  | _, _ => s

/-- The state in which the next step reads the instruction of a table word: the instruction the decoder reads from it; a 16-bit
word that decodes to none is presented as the illegal command word it is (R75). -/
def placeTableWord (nbits w : Nat) (s : State) : State :=
  match decodeTableWord nbits w with
  | some i => placeEncoded (placeOf i) (encode i) s
  | none => presentCommand ⟨BitVec.ofNat 16 w, 0⟩ s

end Sys2Proof.Machine
end

