-- ==== Sys2Proof/Machine/Step.lean ====
section
/-! DEFINITION. One step of the core: one command (`00_scope.md` R8). -/

namespace Sys2Proof.Machine

/-- One step: the command the host presents is taken from the port, decoded and executed; a command word that matches no row is
an illegal command (R75). With no command presented the core "holds its state unchanged for as long as the host waits" (R235). -/
def step (s : State) : Host.Outcome State Fault Refusal :=
  match fetchCommand s with
  | none => .next s
  | some (c, t) =>
    match decodeCommand c with
    | some i => exec i t
    | none => illegalCommand c.cw t

/-- The state in which the next step runs the instruction of a table word (log entry 8). -/
def State.withFetchWord (s : State) (nbits w : Nat) : State := placeTableWord nbits w s

end Sys2Proof.Machine
end

