-- ==== Sys2Proof/WellFormed.lean ====
section
/-! DEFINITION. Which instructions have an encoding of their own (`Instr.wf`), and the legal range of each command's
immediate (`Instr.immLegal`, `30_encoding.md` R71). An immediate outside its range is a fault of the command, not an ill-formed
instruction (R71), so `Instr.wf` does not ask for it. -/

namespace Sys2Proof

/-- The instruction has an encoding that stands for it and nothing else. Every command has one, whatever its immediate (R71).
`TS.DOD32` with a payload of all ones is `TS.EOS` (R81); `VAL.XOR` with offset `0x7F` would have the header of `VAL.ESCAPE`
(R84, R87), its data value fits in `l` bytes (R84), and a code with `T + L > 8` has no data that is ever read (R187). -/
def Instr.wf : Instr → Bool
  | .nop => true
  | .coreReset => true
  | .coreStatus => true
  | .bpAppend _ _ => true
  | .bpClose => true
  | .bpRead _ => true
  | .bpSize => true
  | .bpReadrun _ => true
  | .bpFreeze => true
  | .bbPut _ => true
  | .bbGet => true
  | .bbLen => true
  | .hwInit _ => true
  | .hwAdd _ _ => true
  | .hwContains _ _ => true
  | .hwBest _ _ => true
  | .hwAt _ _ => true
  | .hwCount _ => true
  | .encBegin _ => true
  | .encRow _ _ => true
  | .encVal _ => true
  | .encFinish => true
  | .encBitsize => true
  | .decInit _ => true
  | .decNext => true
  | .decTs => true
  | .decVal _ => true
  | .expNwords => true
  | .expWord _ => true
  | .expByte _ => true
  | .tsAnchor _ => true
  | .tsFirstdelta _ => true
  | .tsDod0 => true
  | .tsDod7 _ => true
  | .tsDod9 _ => true
  | .tsDod12 _ => true
  | .tsDod32 u => u != BitVec.allOnes 32
  | .tsEos => true
  | .bpTrailer => true
  | .valExact _ => true
  | .valXor k t l y =>
    k != 0x7F#7 && (if t.toNat + l.toNat ≤ 8 then decide (y.toNat < 2 ^ (8 * l.toNat)) else y == 0)
  | .valEscape _ => true
  | .valFirst _ => true

/-- A field width or bit count of R71: 1 to 64. -/
def widthLegal (w : Byte) : Bool := decide (1 ≤ w.toNat) && decide (w.toNat ≤ 64)

/-- The immediate of the command is in the legal range of its kind (R71). -/
def Instr.immLegal (c : Config) : Instr → Bool
  | .bpAppend w _ => widthLegal w
  | .bpRead w => widthLegal w
  | .bpReadrun m => widthLegal m
  | .hwInit col => decide (col.toNat < c.ncolMax)
  | .hwAdd col _ => decide (col.toNat < c.ncolMax)
  | .hwContains col _ => decide (col.toNat < c.ncolMax)
  | .hwBest col _ => decide (col.toNat < c.ncolMax)
  | .hwAt col _ => decide (col.toNat < c.ncolMax)
  | .hwCount col => decide (col.toNat < c.ncolMax)
  | .decVal col => decide (col.toNat < c.ncolMax)
  | .encRow n _ => decide (n.toNat ≤ c.ncolMax)
  | .decInit n => decide (n.toNat ≤ c.ncolMax)
  | .nop | .coreReset | .coreStatus | .bpClose | .bpSize | .bpFreeze | .bbPut _ | .bbGet | .bbLen => true
  | .encBegin _ | .encVal _ | .encFinish | .encBitsize | .decNext | .decTs => true
  | .expNwords | .expWord _ | .expByte _ => true
  | .tsAnchor _ | .tsFirstdelta _ | .tsDod0 | .tsDod7 _ | .tsDod9 _ | .tsDod12 _ | .tsDod32 _ | .tsEos | .bpTrailer => true
  | .valExact _ | .valXor _ _ _ _ | .valEscape _ | .valFirst _ => true

end Sys2Proof
end

