-- ==== Sys2Proof/Safety.lean ====
section
/-! DEFINITION. What claims about the core are stated in: the invariants of `10_state.md` R39, a faulting command, a run of
instructions, the timestamp code table, and the sessions of `44_decoder.md` R192. -/

namespace Sys2Proof.Machine

/-- The invariants the core keeps between commands while `FAULT = 0` (R39), with the facts that make them inductive: inside a
row `VIDX < NCOLS`; `FIRST = 1` only inside a row (R37); the BitPacker is frozen from `ENC.FINISH` or `DEC.INIT` on (R25); and
the stream bits from `BP_NBITS` on are 0, in the tail word (R53) and beyond it. -/
structure Live (s : State) : Prop where
  rposLe : s.bpRpos ≤ s.bpNbits
  nbitsLe : s.bpNbits ≤ 64 * s.cfg.bpMaxWords
  writeRpos : s.bpMode = .write → s.bpRpos = 0
  bbRposLe : s.bbRpos ≤ s.bbLen
  bbLenLe : s.bbLen ≤ s.cfg.bbMaxBytes
  windowN : ∀ x ∈ s.hw, x.n ≤ winCap
  vidxLe : s.vidx.toNat ≤ s.ncols.toNat
  ncolsLe : s.ncols.toNat ≤ s.cfg.ncolMax
  vidxZero : s.phase ≠ .encRow → s.vidx = 0
  vidxLt : s.phase = .encRow → s.vidx.toNat < s.ncols.toNat
  firstRow : s.first = true → s.phase = .encRow
  frozen : s.phase = .encDone ∨ s.phase = .decFirst ∨ s.phase = .decRun ∨ s.phase = .decDone → s.bpMode = .read
  padding : ∀ k, s.bpNbits ≤ k → streamBit s.bpW k = false

/-- What holds in every state the core is in between commands: legal parameters (R10 to R12), stores in canonical form and of
the instance's sizes (R26, R30, R31, R38), a legal fault code (R221), and `Live` while `FAULT = 0`. -/
structure Inv (s : State) : Prop where
  cfgWf : s.cfg.wf = true
  wordsWf : Store.wf s.bpW = true
  bytesWf : Memory.wf s.bbB = true
  wordsIn : ∀ i, s.cfg.bpMaxWords ≤ i → readWord s.bpW i = 0
  bytesIn : ∀ j, s.cfg.bbMaxBytes ≤ j → readByte s.bbB j = 0
  windows : s.hw.length = s.cfg.ncolMax
  entries : ∀ x ∈ s.hw, x.e.length = winCap
  stored : s.storedV.length = s.cfg.ncolMax
  dcolZero : s.dcol = 0
  faultLegal : s.fault.toNat ≤ 0x0F
  live : s.fault = 0 → Live s

/-- The answer is the fault `c` of a command with opcode `op` taken in state `s` (R225): `FAULT`, `FAULT_OP` and the response
are as R225 says; of the rest, only the parameters and the host's pending commands are known. -/
def FaultsAs (o : Out) (c : FaultCode) (op : Byte) (s : State) : Prop :=
  ∃ t, o = .next t ∧ t.fault = faultByte c ∧ t.faultOp = op ∧ t.resp = some ⟨faultByte c, 0, 0⟩ ∧ t.cfg = s.cfg ∧ t.port = s.port

/-- The state after a list of instructions, each of which completed without a fault. -/
def runInstrs : List Instr → State → Option State
  | [], s => some s
  | i :: l, s =>
    match exec i s with
    | .next t => if t.fault = 0 then runInstrs l t else none
    | _ => none

/-- The timestamp code of R80 for a delta of deltas: the smallest bucket covering `bitlen(zigzag(dod))`, the escape bucket
keeping the low 32 bits; its payload of all ones reads as end of stream (R81, R155). -/
def tsCodeOf (dod : Word) : TsCode :=
  if dod = 0 then .dod0
  else if bitlen (zigzag dod) ≤ 7 then .dod7 ((zigzag dod).setWidth 7)
  else if bitlen (zigzag dod) ≤ 9 then .dod9 ((zigzag dod).setWidth 9)
  else if bitlen (zigzag dod) ≤ 12 then .dod12 ((zigzag dod).setWidth 12)
  else if (zigzag dod).setWidth 32 = BitVec.allOnes 32 then .eos
  else .dod32 ((zigzag dod).setWidth 32)

/-- The phases in which a command is legal (R243, D22): the `ENC.*` and `DEC.*` commands but `ENC.BITSIZE` have their own, every
other command is legal in all. -/
def phaseLegal : Instr → Phase → Bool
  | .encBegin _, p => decide (p = .idle)
  | .encRow _ _, p => decide (p = .encFirst) || decide (p = .encRun)
  | .encVal _, p => decide (p = .encRow)
  | .encFinish, p => decide (p = .encFirst) || decide (p = .encRun)
  | .decInit _, p => decide (p = .idle) || decide (p = .encDone)
  | .decNext, p => decide (p = .decFirst) || decide (p = .decRun)
  | .decTs, p => decide (p = .decRun)
  | .decVal _, p => decide (p = .decRun)
  | .nop, _ | .coreReset, _ | .coreStatus, _ | .bpAppend _ _, _ | .bpClose, _ | .bpRead _, _ | .bpSize, _
  | .bpReadrun _, _ | .bpFreeze, _ | .bbPut _, _ | .bbGet, _ | .bbLen, _ | .hwInit _, _ | .hwAdd _ _, _
  | .hwContains _ _, _ | .hwBest _ _, _ | .hwAt _ _, _ | .hwCount _, _ | .encBitsize, _ | .expNwords, _
  | .expWord _, _ | .expByte _, _ | .tsAnchor _, _ | .tsFirstdelta _, _ | .tsDod0, _ | .tsDod7 _, _
  | .tsDod9 _, _ | .tsDod12 _, _ | .tsDod32 _, _ | .tsEos, _ | .bpTrailer, _ | .valExact _, _
  | .valXor _ _ _ _, _ | .valEscape _, _ | .valFirst _, _ => true

/-- The commands without a side effect (R61). -/
def readOnly : Instr → Bool
  | .nop | .coreStatus | .bpSize | .bbLen | .hwContains _ _ | .hwBest _ _ | .hwAt _ _ | .hwCount _
  | .encBitsize | .decTs | .decVal _ | .expNwords | .expWord _ | .expByte _ => true
  | .coreReset | .bpAppend _ _ | .bpClose | .bpRead _ | .bpReadrun _ | .bpFreeze | .bbPut _ | .bbGet
  | .hwInit _ | .hwAdd _ _ | .encBegin _ | .encRow _ _ | .encVal _ | .encFinish | .decInit _ | .decNext
  | .tsAnchor _ | .tsFirstdelta _ | .tsDod0 | .tsDod7 _ | .tsDod9 _ | .tsDod12 _ | .tsDod32 _ | .tsEos
  | .bpTrailer | .valExact _ | .valXor _ _ _ _ | .valEscape _ | .valFirst _ => false

/-- `k` is the lowest populated offset of the window that holds `v` (R133). -/
def LowestMatch (x : Window) (v : Word) (k : Nat) : Prop :=
  k < x.n ∧ x.entry k = v ∧ ∀ j, j < k → x.entry j ≠ v

/-- No populated offset of the window holds `v`. -/
def NoMatch (x : Window) (v : Word) : Prop := ∀ j, j < x.n → x.entry j ≠ v

/-- `k` is the lowest offset with the greatest score against `v` (R134). -/
def BestOffset (x : Window) (v : Word) (k : Nat) : Prop :=
  k < x.n ∧ (∀ j, j < x.n → score (x.entry j) v ≤ score (x.entry k) v) ∧
  ∀ j, j < k → score (x.entry j) v < score (x.entry k) v

/-- The value `raw` of R157: `NAN_SENTINEL` for a not-a-number (R159). -/
def rawOf (s : State) (v : Word) : Word := if isNaN v then s.cfg.nanSentinel else v

/-- What `ENC.VAL` leaves when it appended the bytes `code` for the value `raw` in column `VIDX` (R157, R163): the bytes stand
at the old end of the ByteBuffer and no other byte changed; the column's window has `raw` at its front and no other window
changed; `VIDX`, `FIRST` and `PHASE` moved on; nothing else changed. -/
def ValueEncoded (s t : State) (raw : Word) (code : List Byte) : Prop :=
  storeBytes t.bbB s.bbLen code.length = code ∧
  (∀ j, j < s.bbLen ∨ s.bbLen + code.length ≤ j → readByte t.bbB j = readByte s.bbB j) ∧
  window t s.vidx.toNat = (window s s.vidx.toNat).push raw ∧
  (∀ c, c ≠ s.vidx.toNat → window t c = window s c) ∧
  { t with bbB := s.bbB, hw := s.hw } =
    { s with
      bbLen := s.bbLen + code.length
      vidx := if s.vidx + 1 = s.ncols then 0 else s.vidx + 1
      first := if s.vidx + 1 = s.ncols then false else s.first
      phase := if s.vidx + 1 = s.ncols then .encRun else .encRow
      resp := some ⟨0, 0, 0⟩ }

/-- The commands of one row (R77 `ENC.ADDROW`). -/
def rowCommands (row : Word × List Word) : List Instr :=
  .encRow (BitVec.ofNat 8 row.2.length) row.1 :: row.2.map Instr.encVal

/-- The commands of an Encoder session up to its last row (R192). -/
def rowsCommands (a : Word) (rows : List (Word × List Word)) : List Instr := .encBegin a :: rows.flatMap rowCommands

/-- The commands of a whole Encoder session (R192). -/
def sessionCommands (a : Word) (rows : List (Word × List Word)) : List Instr := rowsCommands a rows ++ [.encFinish]

/-- Every later row's delta of deltas, from the running timestamp and delta, is in the supported range (R155, R192). -/
def dodsSupported : Word → Word → List Word → Prop
  | _, _, [] => True
  | ts, delta, t :: l => ((t - ts) - delta).toInt.natAbs ≤ 2 ^ 31 - 1 ∧ dodsSupported t (t - ts) l

/-- The timestamps of a session are in the supported range (R192): the first delta is at most `0xFFFFFFFE`, every later delta
of deltas at most `2^31 - 1` in absolute value. -/
def timesSupported (a : Word) : List Word → Prop
  | [] => True
  | t :: l => (t - a).toNat ≤ 0xFFFFFFFE ∧ dodsSupported t (t - a) l

end Sys2Proof.Machine
end

