-- ==== Sys2Proof/Certificates/Slice0/Obligations.lean ====
section
/-! DEFINITION. The statements for the provers. -/

open Sys2Proof Sys2Proof.Machine

/-! ## Encoding -/

/-- Every well-formed instruction, at its place, decodes from its encoding with every operand at its value (R71 to R74, R79 to
R88, R103). -/
def Obligations.DecodeOfEncodeIsTheInstruction : Prop :=
  ∀ i : Instr, i.wf = true → decodeAt (placeOf i) (encode i) = some i

/-- R75, R221: an unassigned `OP`, or a reserved `IMM` that is not 0, raises `ILLEGAL_COMMAND`. R74: every other command word is
an instruction, whose encoding is that word, and executing it never raises `ILLEGAL_COMMAND`. -/
def Obligations.IllegalCommandWordsFault : Prop :=
  ∀ (s : State) (c : Command) (rest : List Command), s.fault = 0 → s.port = c :: rest →
    let op := (opField c.cw).toNat
    let illegal :=
      (0x03 ≤ op ∧ op ≤ 0x0F) ∨ (0x16 ≤ op ∧ op ≤ 0x1F) ∨ (0x23 ≤ op ∧ op ≤ 0x2F) ∨ (0x36 ≤ op ∧ op ≤ 0x3F) ∨
      (0x45 ≤ op ∧ op ≤ 0x4F) ∨ (0x54 ≤ op ∧ op ≤ 0x5F) ∨ (0x63 ≤ op ∧ op ≤ 0xFF) ∨
      (op ∈ [0x00, 0x01, 0x02, 0x11, 0x13, 0x15, 0x20, 0x21, 0x22, 0x40, 0x42, 0x43, 0x44, 0x51, 0x52, 0x60, 0x61, 0x62] ∧
        immField c.cw ≠ 0)
    (illegal → FaultsAs (step s) .illegalCommand (opField c.cw) { s with port := rest }) ∧
    (¬ illegal → ∃ i din, decodeCommand c = some i ∧ encode i = .command ⟨c.cw, din⟩ ∧ (din = c.din ∨ din = 0)) ∧
    (¬ illegal → ∀ t, step s = .next t → t.fault ≠ faultByte .illegalCommand)

/-- A few words written out from the encodings of R74, R80, R84 and R86 decode to the instructions they stand for. -/
def Obligations.SampleWordsDecode : Prop :=
  decodeCommand ⟨0x1009, 0x102⟩ = some (.bpAppend 9 0x102) ∧
  decodeCommand ⟨0x3403, 5⟩ = some (.hwAt 3 5) ∧
  decodeCommand ⟨0x4102, 1001⟩ = some (.encRow 2 1001) ∧
  decodeCommand ⟨0x5100, 0⟩ = some .decNext ∧
  decodeAt .tsRow (.bits [true, false, false, false, false, false, false, true, false]) = some (.tsDod7 2) ∧
  decodeAt .rowVal (.bytes [0x80, 0x62, 0x3F, 0xFC]) = some (.valXor 0 6 2 0x3FFC)

/-- R82: the timestamp codes are a complete prefix-free code. A code is read from the head of any bit string that begins with
it, and every string of 36 bits or more begins with exactly the code that is read. In the core, `readRunLength(4)` consumes
exactly one of the five prefixes and returns its number, with 4 bits or more left it always finds one, and with 36 or more left
the Decoder's reading consumes exactly the code at the head of the stream. -/
def Obligations.TimestampCodesAreAPrefixFreeCode : Prop :=
  let prefixes : List (List Bool × Word) :=
    [([false], 0), ([true, false], 2), ([true, true, false], 6), ([true, true, true, false], 14), ([true, true, true, true], 15)]
  (∀ (c : TsCode) (rest : List Bool), c.toInstr.wf = true → decodeTs (encodeTs c ++ rest) = some (c, rest)) ∧
  (∀ l : List Bool, 36 ≤ l.length →
    ∃ c rest, decodeTs l = some (c, rest) ∧ c.toInstr.wf = true ∧ l = encodeTs c ++ rest) ∧
  (∀ (s t : State) (p : Word), bpReadRun 4 s = .ok (p, t) ↔
    s.bpMode = .read ∧ ∃ q, (q, p) ∈ prefixes ∧ q.length ≤ s.bpNbits - s.bpRpos ∧
      streamBits s.bpW s.bpRpos q.length = q ∧ t = { s with bpRpos := s.bpRpos + q.length }) ∧
  (∀ s : State, s.bpMode = .read → 4 ≤ s.bpNbits - s.bpRpos → ∃ p t, bpReadRun 4 s = .ok (p, t)) ∧
  (∀ s : State, s.bpMode = .read → 36 ≤ s.bpNbits - s.bpRpos →
    ∃ c, readTsCode s = .ok (c, { s with bpRpos := s.bpRpos + (encodeTs c).length }) ∧ c.toInstr.wf = true ∧
      streamBits s.bpW s.bpRpos (encodeTs c).length = encodeTs c)

/-- R87: every byte starts a value code, and the first byte selects which. A code is read from the head of any byte string that
begins with it, and every string of 17 bytes or more begins with the code that is read. -/
def Obligations.FirstByteSelectsTheValueCode : Prop :=
  (∀ (c : ValCode) (rest : List Byte), c.toInstr.wf = true → decodeVal (encodeVal c ++ rest) = some (c, rest)) ∧
  (∀ (h : Byte) (l : List Byte), 16 ≤ l.length →
    ∃ c rest, decodeVal (h :: l) = some (c, rest) ∧ c.toInstr.wf = true ∧ h :: l = encodeVal c ++ rest ∧
      (h.toNat < 0x80 → ∃ x, c = .exact x) ∧
      (0x80 ≤ h.toNat → h.toNat ≤ 0xFE → ∃ k t n y, c = .xor k t n y) ∧
      (h = 0xFF → ∃ v, c = .escape v))

/-! ## Steps, faults and reset -/

/-- A step takes the command presented on the port and runs the instruction it decodes to (R62, R70). -/
def Obligations.StepRunsTheDecodedInstruction : Prop :=
  ∀ (s : State) (c : Command) (rest : List Command) (i : Instr), s.port = c :: rest → decodeCommand c = some i →
    step s = exec i { s with port := rest }

/-- With no command presented a step changes nothing: between commands the core holds its state unchanged for as long as the
host waits (R235, R242). That the host's commands stand in the field `port` is the model's choice (log entry 2). -/
def Obligations.IdleStepHoldsTheState : Prop := ∀ s : State, s.port = [] → step s = .next s

/-- R226, R203: while `FAULT != 0` the core executes only the command words `0x0000`, `0x0100` and `0x0200`, with `ST = 0x00`;
every other command word, assigned or not, is answered `ST = 0xFF`, `R0 = R1 = 0` and has no effect. -/
def Obligations.FaultedCoreRefusesAllButThree : Prop :=
  ∀ (s : State) (c : Command) (rest : List Command), s.fault ≠ 0 → s.port = c :: rest →
    (c.cw ≠ 0x0000 → c.cw ≠ 0x0100 → c.cw ≠ 0x0200 → step s = .next { s with port := rest, resp := some ⟨0xFF, 0, 0⟩ }) ∧
    (c.cw = 0x0000 → step s = .next { s with port := rest, resp := some ⟨0, 0, 0⟩ }) ∧
    (c.cw = 0x0200 → ∃ r0, step s = .next { s with port := rest, resp := some ⟨0, r0, 0⟩ } ∧
      r0.extractLsb' 8 8 = s.fault ∧ r0.extractLsb' 16 8 = s.faultOp) ∧
    (c.cw = 0x0100 → ∃ t, step s = .next t ∧ t.fault = 0 ∧ t.resp = some ⟨0, 0, 0⟩)

/-- R24: once `FAULT != 0`, `FAULT` and `FAULT_OP` keep their values until reset. -/
def Obligations.FirstFaultIsKeptUntilReset : Prop :=
  ∀ s t : State, s.fault ≠ 0 → step s = .next t →
    (t.fault = s.fault ∧ t.faultOp = s.faultOp) ∨ ∃ din rest, s.port = ⟨0x0100, din⟩ :: rest ∧ t.fault = 0

/-- R221, R225: a command that faults leaves a code of R221 in `FAULT`, its own opcode in `FAULT_OP` and the code in the
response, with `R0 = R1 = 0`. The parameters and the host's pending commands are not touched. -/
def Obligations.FaultMechanism : Prop :=
  ∀ (i : Instr) (s t : State), s.fault = 0 → exec i s = .next t → t.fault ≠ 0 →
    1 ≤ t.fault.toNat ∧ t.fault.toNat ≤ 0x0F ∧ t.faultOp = opcodeOf i ∧ t.resp = some ⟨t.fault, 0, 0⟩ ∧
    t.cfg = s.cfg ∧ t.port = s.port

/-- Every step keeps the invariant `Inv` (R39, with R10 to R12, R26, R30, R31, R38, R53, R221). -/
def Obligations.EveryStepKeepsTheInvariant : Prop := ∀ s t : State, Inv s → step s = .next t → Inv t

/-- The state after power-on meets the invariant, whatever the parameters. -/
def Obligations.ResetMeetsTheInvariant : Prop :=
  (∀ cfg : Config, cfg.wf = true → Inv (State.powerOn cfg)) ∧ Inv State.reset

/-- R25, R27, R100: only `BP.CLOSE`, `BP.FREEZE` and `ENC.FINISH` freeze the BitPacker, only reset and `ENC.BEGIN` open it for
writing again, and while it is frozen no other instruction changes its bits or their number. -/
def Obligations.OnlyResetAndBeginReopenTheBitPacker : Prop :=
  ∀ (i : Instr) (s t : State), s.fault = 0 → exec i s = .next t → t.fault = 0 →
    (s.bpMode = .write → t.bpMode = .read → i = .bpClose ∨ i = .bpFreeze ∨ i = .encFinish) ∧
    (s.bpMode = .read → t.bpMode = .write → i = .coreReset ∨ ∃ a, i = .encBegin a) ∧
    (s.bpMode = .read → t.bpMode = .read → i ≠ .coreReset → t.bpW = s.bpW ∧ t.bpNbits = s.bpNbits)

/-- R61: the read-only commands have no side effect, and repeated they return the same response. -/
def Obligations.ReadOnlyCommandsChangeNothing : Prop :=
  ∀ (i : Instr) (s t : State), readOnly i = true → s.fault = 0 → exec i s = .next t → t.fault = 0 →
    { t with resp := s.resp } = s ∧ ∃ u, exec i t = .next u ∧ u.resp = t.resp

/-- R243: a command illegal in the phase raises `SEQUENCE`; a legal one that completes goes to the next phase of the table;
`ENC.BITSIZE` changes nothing; no other command but `CORE.RESET` writes `PHASE`. -/
def Obligations.PhaseTransitions : Prop :=
  ∀ (i : Instr) (s : State), placeOf i = .port → s.fault = 0 →
    (phaseLegal i s.phase = false → FaultsAs (exec i s) .sequence (opcodeOf i) s) ∧
    ∀ t, exec i s = .next t → t.fault = 0 →
      phaseLegal i s.phase = true ∧
      (∀ a, i = .encBegin a → t.phase = .encFirst) ∧
      (∀ n x, i = .encRow n x → (s.phase = .encRun → n = s.ncols) ∧ t.phase = if n = 0 then .encRun else .encRow) ∧
      (∀ v, i = .encVal v → t.phase = if s.vidx + 1 = s.ncols then .encRun else .encRow) ∧
      (i = .encFinish → t.phase = .encDone) ∧
      (∀ n, i = .decInit n → t.phase = .decFirst) ∧
      (i = .decNext → (t.resp = some ⟨0, 1, 0⟩ ∧ t.phase = .decRun) ∨ (t.resp = some ⟨0, 0, 0⟩ ∧ t.phase = .decDone)) ∧
      (i = .coreReset → t.phase = .idle) ∧
      (i = .encBitsize → { t with resp := s.resp } = s) ∧
      ((∀ a, i ≠ .encBegin a) → (∀ n x, i ≠ .encRow n x) → (∀ v, i ≠ .encVal v) → i ≠ .encFinish → (∀ n, i ≠ .decInit n) →
        i ≠ .decNext → i ≠ .coreReset → t.phase = s.phase)

/-- R42, R240, R201, R241: `CORE.RESET`, faulted or not, leaves every register and store at its reset value and answers
`ST = 0x00`. The parameters stay (R240). That the host's pending commands are a field of the state is the model's choice (log
entry 2), and that reset keeps them is its inference (log entry 5). -/
def Obligations.CoreResetSetsEveryRegister : Prop :=
  ∀ s : State, ∃ t, exec .coreReset s = .next t ∧
    t.phase = .idle ∧ t.fault = 0 ∧ t.faultOp = 0 ∧ t.bpMode = .write ∧ t.bpNbits = 0 ∧ t.bpRpos = 0 ∧
    (∀ i, readWord t.bpW i = 0) ∧ t.bbLen = 0 ∧ t.bbRpos = 0 ∧ (∀ j, readByte t.bbB j = 0) ∧
    t.hw.length = s.cfg.ncolMax ∧
    (∀ c, c < s.cfg.ncolMax →
      (window t c).n = (if s.cfg.zeroFill then 127 else 0) ∧ (window t c).e.length = 127 ∧ ∀ k, (window t c).entry k = 0) ∧
    t.anchor = 0 ∧ t.ts = 0 ∧ t.delta = 0 ∧ t.ncols = 0 ∧ t.vidx = 0 ∧ t.first = false ∧
    t.storedV.length = s.cfg.ncolMax ∧ (∀ c, t.storedV.getD c 0 = 0) ∧
    t.resp = some ⟨0, 0, 0⟩ ∧ t.cfg = s.cfg ∧ t.port = s.port

/-- R200: `NOP`, in a faulted core too, answers `ST = 0x00`, `R0 = R1 = 0` and changes nothing else. -/
def Obligations.NopOnlyAnswers : Prop := ∀ s : State, exec .nop s = .next { s with resp := some ⟨0, 0, 0⟩ }

/-- R46, R202: the fields of the status word. While faulted, `FAULT` and `FAULT_OP` are defined and nothing is said of the
others. -/
def Obligations.StatusWordFields : Prop :=
  ∀ s : State, ∃ r0, exec .coreStatus s = .next { s with resp := some ⟨0, r0, 0⟩ } ∧
    r0.extractLsb' 8 8 = s.fault ∧ r0.extractLsb' 16 8 = s.faultOp ∧
    (s.fault = 0 →
      r0.extractLsb' 0 3 = phaseCode s.phase ∧ r0.extractLsb' 3 1 = modeCode s.bpMode ∧ r0.extractLsb' 4 4 = 0 ∧
      r0.extractLsb' 24 8 = s.ncols ∧ r0.extractLsb' 32 8 = s.vidx ∧ r0.extractLsb' 40 1 = BitVec.ofBool s.first ∧
      r0.extractLsb' 41 23 = 0)

/-- R106, R123, R165, R204, R29: the counts that `BP.SIZE`, `BB.LEN`, `ENC.BITSIZE` and `EXP.NWORDS` return; they change
nothing. (Counts are returned modulo 2^64, log entry 11.) -/
def Obligations.SizeCommandsReturnTheCounts : Prop :=
  ∀ s : State, s.fault = 0 →
    let bits := if s.bpMode = .write then s.bpNbits else s.bpNbits - s.bpRpos
    exec .bpSize s = .next { s with resp := some ⟨0, BitVec.ofNat 64 bits, 0⟩ } ∧
    exec .bbLen s = .next { s with resp := some ⟨0, BitVec.ofNat 64 s.bbLen, BitVec.ofNat 64 s.bbRpos⟩ } ∧
    exec .encBitsize s = .next { s with resp := some ⟨0, BitVec.ofNat 64 (bits + 8 * s.bbLen), 0⟩ } ∧
    ∃ n, exec .expNwords s = .next { s with resp := some ⟨0, BitVec.ofNat 64 n, BitVec.ofNat 64 s.bpNbits⟩ } ∧
      s.bpNbits ≤ 64 * n ∧ 64 * n < s.bpNbits + 64

/-! ## BitPacker -/

/-- R101: the field lands in the next `w` stream bits, most significant first, and nothing else changes; else the first failing
check in order raises its fault. -/
def Obligations.AppendWritesTheField : Prop :=
  ∀ (w : Byte) (v : Word) (s : State), s.fault = 0 → Store.wf s.bpW = true →
    let legal := 1 ≤ w.toNat ∧ w.toNat ≤ 64
    let inRange := w.toNat < 64 → v >>> w.toNat = 0
    let fits := s.bpNbits + w.toNat ≤ 64 * s.cfg.bpMaxWords
    (s.bpMode = .write → legal → inRange → fits →
      ∃ t, exec (.bpAppend w v) s = .next t ∧
        (∀ j, j < w.toNat → streamBit t.bpW (s.bpNbits + j) = v.getLsbD (w.toNat - 1 - j)) ∧
        (∀ k, k < s.bpNbits ∨ s.bpNbits + w.toNat ≤ k → streamBit t.bpW k = streamBit s.bpW k) ∧
        { t with bpW := s.bpW } = { s with bpNbits := s.bpNbits + w.toNat, resp := some ⟨0, 0, 0⟩ }) ∧
    (s.bpMode = .read → FaultsAs (exec (.bpAppend w v) s) .bpMode 0x10 s) ∧
    (s.bpMode = .write → ¬ legal → FaultsAs (exec (.bpAppend w v) s) .bpWidth 0x10 s) ∧
    (s.bpMode = .write → legal → ¬ inRange → FaultsAs (exec (.bpAppend w v) s) .bpRange 0x10 s) ∧
    (s.bpMode = .write → legal → inRange → ¬ fits → FaultsAs (exec (.bpAppend w v) s) .bpOverflow 0x10 s)

/-- R102: the word-level form of an append equals the bit loop, where the bits from `BP_NBITS` on are 0 (R53). -/
def Obligations.AppendEqualsItsWordLevelForm : Prop :=
  ∀ (w : Byte) (v : Word) (s : State), s.fault = 0 → Store.wf s.bpW = true →
    (∀ k, s.bpNbits ≤ k → streamBit s.bpW k = false) → s.bpMode = .write → 1 ≤ w.toNat → w.toNat ≤ 64 →
    (w.toNat < 64 → v >>> w.toNat = 0) → s.bpNbits + w.toNat ≤ 64 * s.cfg.bpMaxWords →
    ∃ t, exec (.bpAppend w v) s = .next t ∧
      let i := s.bpNbits / 64
      let o := s.bpNbits % 64
      (o + w.toNat ≤ 64 → readWord t.bpW i = readWord s.bpW i ||| (v <<< (64 - o - w.toNat)) ∧
        ∀ k, k ≠ i → readWord t.bpW k = readWord s.bpW k) ∧
      (64 < o + w.toNat → readWord t.bpW i = readWord s.bpW i ||| (v >>> (o + w.toNat - 64)) ∧
        readWord t.bpW (i + 1) = v <<< (128 - o - w.toNat) ∧
        ∀ k, k ≠ i → k ≠ i + 1 → readWord t.bpW k = readWord s.bpW k) ∧
      t.bpW = putFieldWords s.bpW s.bpNbits v w.toNat

/-- R103: `BP.CLOSE` appends 132 ones and a zero, checked to fit before any bit is appended, and enters read mode at the first
bit; frozen, it raises `BP_MODE`. -/
def Obligations.CloseAppendsTheTrailerAndFreezes : Prop :=
  ∀ s : State, s.fault = 0 → Store.wf s.bpW = true →
    (s.bpMode = .write → s.bpNbits + 133 ≤ 64 * s.cfg.bpMaxWords →
      ∃ t, exec .bpClose s = .next t ∧
        (∀ j, j < 133 → streamBit t.bpW (s.bpNbits + j) = decide (j < 132)) ∧
        (∀ k, k < s.bpNbits ∨ s.bpNbits + 133 ≤ k → streamBit t.bpW k = streamBit s.bpW k) ∧
        { t with bpW := s.bpW } =
          { s with bpNbits := s.bpNbits + 133, bpMode := .read, bpRpos := 0, resp := some ⟨0, 0, 0⟩ }) ∧
    (s.bpMode = .read → FaultsAs (exec .bpClose s) .bpMode 0x11 s) ∧
    (s.bpMode = .write → 64 * s.cfg.bpMaxWords < s.bpNbits + 133 → FaultsAs (exec .bpClose s) .bpOverflow 0x11 s)

/-- R104: `BP.FREEZE` enters read mode at the first bit; frozen already, it raises `BP_MODE`. -/
def Obligations.FreezeEntersReadMode : Prop :=
  ∀ s : State, s.fault = 0 →
    (s.bpMode = .write → exec .bpFreeze s = .next { s with bpMode := .read, bpRpos := 0, resp := some ⟨0, 0, 0⟩ }) ∧
    (s.bpMode = .read → FaultsAs (exec .bpFreeze s) .bpMode 0x15 s)

/-- R105, R54: `BP.READ` returns the next `w` bits, most significant first, zero-extended, and consumes them; else the first
failing check in order raises its fault. -/
def Obligations.ReadReturnsTheNextBits : Prop :=
  ∀ (w : Byte) (s : State), s.fault = 0 →
    let legal := 1 ≤ w.toNat ∧ w.toNat ≤ 64
    (s.bpMode = .read → legal → w.toNat ≤ s.bpNbits - s.bpRpos →
      ∃ r, exec (.bpRead w) s = .next { s with bpRpos := s.bpRpos + w.toNat, resp := some ⟨0, r, 0⟩ } ∧
        (∀ j, j < w.toNat → r.getLsbD (w.toNat - 1 - j) = streamBit s.bpW (s.bpRpos + j)) ∧
        ∀ j, w.toNat ≤ j → r.getLsbD j = false) ∧
    (s.bpMode = .write → FaultsAs (exec (.bpRead w) s) .bpMode 0x12 s) ∧
    (s.bpMode = .read → ¬ legal → FaultsAs (exec (.bpRead w) s) .bpWidth 0x12 s) ∧
    (s.bpMode = .read → legal → s.bpNbits - s.bpRpos < w.toNat → FaultsAs (exec (.bpRead w) s) .bpUnderflow 0x12 s)

/-- R107: `BP.READRUN` reads bits until a clear one or `m` of them: `2^(k+1) - 2` when the run stopped at a clear bit after `k`
set ones, `2^m - 1` when `m` set bits were read, `BP_UNDERFLOW` when the stream ends first. -/
def Obligations.ReadRunReturnsTheUnaryRun : Prop :=
  ∀ (m : Byte) (s : State), s.fault = 0 →
    let legal := 1 ≤ m.toNat ∧ m.toNat ≤ 64
    let left := s.bpNbits - s.bpRpos
    (s.bpMode = .read → legal → ∀ k, k < m.toNat → k < left → (∀ j, j < k → streamBit s.bpW (s.bpRpos + j) = true) →
      streamBit s.bpW (s.bpRpos + k) = false →
      exec (.bpReadrun m) s =
        .next { s with bpRpos := s.bpRpos + k + 1, resp := some ⟨0, BitVec.ofNat 64 (2 ^ (k + 1) - 2), 0⟩ }) ∧
    (s.bpMode = .read → legal → m.toNat ≤ left → (∀ j, j < m.toNat → streamBit s.bpW (s.bpRpos + j) = true) →
      exec (.bpReadrun m) s =
        .next { s with bpRpos := s.bpRpos + m.toNat, resp := some ⟨0, BitVec.ofNat 64 (2 ^ m.toNat - 1), 0⟩ }) ∧
    (s.bpMode = .write → FaultsAs (exec (.bpReadrun m) s) .bpMode 0x14 s) ∧
    (s.bpMode = .read → ¬ legal → FaultsAs (exec (.bpReadrun m) s) .bpWidth 0x14 s) ∧
    (s.bpMode = .read → legal → left < m.toNat → (∀ j, j < left → streamBit s.bpW (s.bpRpos + j) = true) →
      FaultsAs (exec (.bpReadrun m) s) .bpUnderflow 0x14 s)

/-- R108: an append, a freeze with or without the trailer, reads consuming every earlier bit, and a read of the same width
return the value appended. -/
def Obligations.AppendedFieldReadsBack : Prop :=
  ∀ (w : Byte) (v : Word) (i : Instr) (ws : List Byte) (s : State), s.fault = 0 → Store.wf s.bpW = true → s.bpMode = .write →
    1 ≤ w.toNat → w.toNat ≤ 64 → (w.toNat < 64 → v >>> w.toNat = 0) → i = .bpClose ∨ i = .bpFreeze →
    s.bpNbits + w.toNat + (if i = .bpClose then 133 else 0) ≤ 64 * s.cfg.bpMaxWords →
    (∀ x ∈ ws, 1 ≤ x.toNat ∧ x.toNat ≤ 64) → (ws.map BitVec.toNat).sum = s.bpNbits →
    ∃ t, runInstrs (.bpAppend w v :: i :: (ws.map Instr.bpRead ++ [.bpRead w])) s = some t ∧ t.resp = some ⟨0, v, 0⟩

/-- R109: wherever `BP.CLOSE` starts the trailer, a `BP.READRUN 4` at its first bit returns 15, the `BP.READ 32` after it
returns `0xFFFFFFFF`, and 97 bits remain. A Decoder that reaches the trailer at a row boundary reads end of stream: after a row
it leaves the same 97 bits (R185), and before the first row, where it reads 32 bits only (R184), 101. -/
def Obligations.TrailerReadsAsEndOfStream : Prop :=
  ∀ (ws : List Byte) (s : State), s.fault = 0 → Store.wf s.bpW = true → s.bpMode = .write →
    s.bpNbits + 133 ≤ 64 * s.cfg.bpMaxWords → (∀ x ∈ ws, 1 ≤ x.toNat ∧ x.toNat ≤ 64) →
    (ws.map BitVec.toNat).sum = s.bpNbits →
    ∃ a, runInstrs (.bpClose :: ws.map Instr.bpRead) s = some a ∧
      (∃ b c, exec (.bpReadrun 4) a = .next b ∧ b.resp = some ⟨0, 15, 0⟩ ∧
        exec (.bpRead 32) b = .next c ∧ c.resp = some ⟨0, 0xFFFFFFFF, 0⟩ ∧ c.bpNbits - c.bpRpos = 97) ∧
      (∃ d, exec .decNext { a with phase := .decRun } = .next d ∧ d.resp = some ⟨0, 0, 0⟩ ∧ d.phase = .decDone ∧
        d.bpNbits - d.bpRpos = 97) ∧
      (∃ d, exec .decNext { a with phase := .decFirst } = .next d ∧ d.resp = some ⟨0, 0, 0⟩ ∧ d.phase = .decDone ∧
        d.bpNbits - d.bpRpos = 101)

/-! ## ByteBuffer -/

/-- R121: `BB.PUT` appends `DIN[7:0]`; no other byte changes; on a full store it raises `BB_OVERFLOW`. -/
def Obligations.PutAppendsOneByte : Prop :=
  ∀ (v : Word) (s : State), s.fault = 0 → Memory.wf s.bbB = true →
    (s.bbLen < s.cfg.bbMaxBytes →
      ∃ t, exec (.bbPut v) s = .next t ∧ readByte t.bbB s.bbLen = v.extractLsb' 0 8 ∧
        (∀ j, j ≠ s.bbLen → readByte t.bbB j = readByte s.bbB j) ∧
        { t with bbB := s.bbB } = { s with bbLen := s.bbLen + 1, resp := some ⟨0, 0, 0⟩ }) ∧
    (s.cfg.bbMaxBytes ≤ s.bbLen → FaultsAs (exec (.bbPut v) s) .bbOverflow 0x20 s)

/-- R122: `BB.GET` returns the next byte, zero-extended, and consumes it; with every byte consumed it raises `BB_UNDERFLOW`. -/
def Obligations.GetConsumesOneByte : Prop :=
  ∀ s : State, s.fault = 0 →
    (s.bbRpos < s.bbLen →
      exec .bbGet s =
        .next { s with bbRpos := s.bbRpos + 1, resp := some ⟨0, (readByte s.bbB s.bbRpos).setWidth 64, 0⟩ }) ∧
    (s.bbLen ≤ s.bbRpos → FaultsAs (exec .bbGet s) .bbUnderflow 0x21 s)

/-- R57, R120: bytes are read in the order they were appended. -/
def Obligations.BytesAreReadInTheOrderAppended : Prop :=
  ∀ (l : List Byte) (s : State), s.fault = 0 → Memory.wf s.bbB = true → s.bbRpos = s.bbLen →
    s.bbLen + l.length ≤ s.cfg.bbMaxBytes →
    ∃ t, runInstrs (l.map fun b => Instr.bbPut (b.setWidth 64)) s = some t ∧
      ∀ k (h : k < l.length),
        ∃ u, runInstrs (List.replicate (k + 1) .bbGet) t = some u ∧ u.resp = some ⟨0, (l[k]).setWidth 64, 0⟩

/-! ## HistoryWindow -/

/-- R130, R131: `HW.INIT` empties window `c`, or fills it with 127 zeros with `ZERO_FILL_WINDOW`; a column that does not exist is
`COLUMN`. -/
def Obligations.WindowInitEmptiesTheWindow : Prop :=
  ∀ (col : Byte) (s : State), s.fault = 0 → s.hw.length = s.cfg.ncolMax →
    (col.toNat < s.cfg.ncolMax →
      ∃ t, exec (.hwInit col) s = .next t ∧
        (window t col.toNat).n = (if s.cfg.zeroFill then 127 else 0) ∧ (window t col.toNat).e.length = 127 ∧
        (∀ k, (window t col.toNat).entry k = 0) ∧ (∀ c, c ≠ col.toNat → window t c = window s c) ∧
        { t with hw := s.hw } = { s with resp := some ⟨0, 0, 0⟩ }) ∧
    (s.cfg.ncolMax ≤ col.toNat → FaultsAs (exec (.hwInit col) s) .column 0x30 s)

/-- R130, R132: `HW.ADD` puts the value at offset 0, moves the entries up to offset `min(HW_N, 126)` one up, leaves the others,
and counts up to 127; a column that does not exist is `COLUMN`. -/
def Obligations.WindowAddInsertsAtTheFront : Prop :=
  ∀ (col : Byte) (v : Word) (s : State), s.fault = 0 →
    (col.toNat < s.cfg.ncolMax → s.hw.length = s.cfg.ncolMax → (window s col.toNat).e.length = 127 →
      ∃ t, exec (.hwAdd col v) s = .next t ∧
        let old := window s col.toNat
        let new := window t col.toNat
        new.entry 0 = v ∧ (∀ k, 1 ≤ k → k ≤ min old.n 126 → new.entry k = old.entry (k - 1)) ∧
        (∀ k, min old.n 126 < k → new.entry k = old.entry k) ∧ new.e.length = 127 ∧ new.n = min (old.n + 1) 127 ∧
        (∀ c, c ≠ col.toNat → window t c = window s c) ∧
        { t with hw := s.hw } = { s with resp := some ⟨0, 0, 0⟩ }) ∧
    (s.cfg.ncolMax ≤ col.toNat → FaultsAs (exec (.hwAdd col v) s) .column 0x31 s)

/-- R130, R133: `HW.CONTAINS` returns 1 and the lowest populated offset that holds the value, or 0 and 0. -/
def Obligations.WindowContainsFindsTheLowestMatch : Prop :=
  ∀ (col : Byte) (v : Word) (s : State), s.fault = 0 →
    (col.toNat < s.cfg.ncolMax →
      (∀ k, LowestMatch (window s col.toNat) v k →
        exec (.hwContains col v) s = .next { s with resp := some ⟨0, 1, BitVec.ofNat 64 k⟩ }) ∧
      (NoMatch (window s col.toNat) v → exec (.hwContains col v) s = .next { s with resp := some ⟨0, 0, 0⟩ })) ∧
    (s.cfg.ncolMax ≤ col.toNat → FaultsAs (exec (.hwContains col v) s) .column 0x32 s)

/-- R130, R134: `HW.BEST` returns the entry with the greatest score, the lowest offset among equals, and its offset; on an empty
window it raises `HW_EMPTY`. -/
def Obligations.WindowBestFindsTheBestCandidate : Prop :=
  ∀ (col : Byte) (v : Word) (s : State), s.fault = 0 →
    (col.toNat < s.cfg.ncolMax → 0 < (window s col.toNat).n →
      ∃ k, BestOffset (window s col.toNat) v k ∧
        exec (.hwBest col v) s =
          .next { s with resp := some ⟨0, (window s col.toNat).entry k, BitVec.ofNat 64 k⟩ }) ∧
    (s.cfg.ncolMax ≤ col.toNat → FaultsAs (exec (.hwBest col v) s) .column 0x33 s) ∧
    (col.toNat < s.cfg.ncolMax → (window s col.toNat).n = 0 → FaultsAs (exec (.hwBest col v) s) .hwEmpty 0x33 s)

/-- R130, R135, R136: `HW.AT` returns a populated entry and raises `HW_INDEX` at any other offset; `HW.COUNT` returns the
count. -/
def Obligations.WindowAtAndCountReadTheWindow : Prop :=
  ∀ (col : Byte) (k : Word) (s : State), s.fault = 0 →
    (col.toNat < s.cfg.ncolMax → k.toNat < (window s col.toNat).n →
      exec (.hwAt col k) s = .next { s with resp := some ⟨0, (window s col.toNat).entry k.toNat, 0⟩ }) ∧
    (col.toNat < s.cfg.ncolMax → (window s col.toNat).n ≤ k.toNat → FaultsAs (exec (.hwAt col k) s) .hwIndex 0x34 s) ∧
    (s.cfg.ncolMax ≤ col.toNat → FaultsAs (exec (.hwAt col k) s) .column 0x34 s) ∧
    (col.toNat < s.cfg.ncolMax →
      exec (.hwCount col) s = .next { s with resp := some ⟨0, BitVec.ofNat 64 (window s col.toNat).n, 0⟩ }) ∧
    (s.cfg.ncolMax ≤ col.toNat → FaultsAs (exec (.hwCount col) s) .column 0x35 s)

/-- R137: after `HW.INIT` and 128 `HW.ADD` of pairwise distinct values, the first is gone and the second is at offset 126, for
either value of `ZERO_FILL_WINDOW`. -/
def Obligations.OldestValueIsEvicted : Prop :=
  ∀ (col : Byte) (v0 v1 : Word) (vs : List Word) (s : State), s.fault = 0 → s.hw.length = s.cfg.ncolMax →
    col.toNat < s.cfg.ncolMax → (v0 :: v1 :: vs).length = 128 → (v0 :: v1 :: vs).Nodup →
    ∃ t, runInstrs (.hwInit col :: (v0 :: v1 :: vs).map (Instr.hwAdd col)) s = some t ∧
      exec (.hwContains col v0) t = .next { t with resp := some ⟨0, 0, 0⟩ } ∧
      exec (.hwContains col v1) t = .next { t with resp := some ⟨0, 1, 126⟩ }

/-! ## Encoder -/

/-- R150, R45: `ENC.BEGIN` clears both buffers, appends the anchor and starts the session; it is legal in `IDLE` only. -/
def Obligations.BeginStartsTheSession : Prop :=
  ∀ (a : Word) (s : State), s.fault = 0 →
    (s.phase = .idle → 1 ≤ s.cfg.bpMaxWords →
      ∃ t, exec (.encBegin a) s = .next t ∧
        (∀ k, streamBit t.bpW k = (decide (k < 64) && a.getLsbD (63 - k))) ∧ (∀ j, readByte t.bbB j = 0) ∧
        { t with bpW := s.bpW, bbB := s.bbB } =
          { s with
            bpMode := .write, bpNbits := 64, bpRpos := 0, bbLen := 0, bbRpos := 0, anchor := a, ts := 0, delta := 0
            ncols := 0, vidx := 0, first := false, phase := .encFirst, resp := some ⟨0, 0, 0⟩ }) ∧
    (s.phase ≠ .idle → FaultsAs (exec (.encBegin a) s) .sequence 0x40 s) ∧
    (s.phase = .idle → s.cfg.bpMaxWords = 0 → FaultsAs (exec (.encBegin a) s) .bpOverflow 0x40 s)

/-- R151, R152: the first row's `ENC.ROW` fixes the column count, empties the row's windows, appends the 32-bit first delta and
sets the running timestamp and delta. -/
def Obligations.FirstRowTimestampIsAppended : Prop :=
  ∀ (n : Byte) (x : Word) (s : State), s.fault = 0 → Store.wf s.bpW = true → s.hw.length = s.cfg.ncolMax →
    s.phase = .encFirst → n.toNat ≤ s.cfg.ncolMax → s.bpMode = .write → (x - s.anchor).toNat < 2 ^ 32 →
    s.bpNbits + 32 ≤ 64 * s.cfg.bpMaxWords →
    ∃ t, exec (.encRow n x) s = .next t ∧
      (∀ j, j < 32 → streamBit t.bpW (s.bpNbits + j) = (x - s.anchor).getLsbD (31 - j)) ∧
      (∀ k, k < s.bpNbits ∨ s.bpNbits + 32 ≤ k → streamBit t.bpW k = streamBit s.bpW k) ∧
      (∀ c, c < n.toNat → window t c = Window.empty s.cfg.zeroFill) ∧ (∀ c, n.toNat ≤ c → window t c = window s c) ∧
      { t with bpW := s.bpW, hw := s.hw } =
        { s with
          bpNbits := s.bpNbits + 32, ncols := n, ts := x, delta := x - s.anchor, vidx := 0, first := decide (n ≠ 0)
          phase := if n = 0 then .encRun else .encRow, resp := some ⟨0, 0, 0⟩ }

/-- R151, R153 to R156, R80: a later row's `ENC.ROW` appends the code of the table for its delta of deltas and sets the running
timestamp and delta. -/
def Obligations.LaterRowTimestampIsAppended : Prop :=
  ∀ (n : Byte) (x : Word) (s : State), s.fault = 0 → Store.wf s.bpW = true → s.phase = .encRun → n = s.ncols →
    n.toNat ≤ s.cfg.ncolMax → s.bpMode = .write →
    let code := encodeTs (tsCodeOf ((x - s.ts) - s.delta))
    s.bpNbits + code.length ≤ 64 * s.cfg.bpMaxWords →
    ∃ t, exec (.encRow n x) s = .next t ∧
      streamBits t.bpW s.bpNbits code.length = code ∧
      (∀ k, k < s.bpNbits ∨ s.bpNbits + code.length ≤ k → streamBit t.bpW k = streamBit s.bpW k) ∧
      { t with bpW := s.bpW } =
        { s with
          bpNbits := s.bpNbits + code.length, ts := x, delta := x - s.ts, vidx := 0
          first := if n = 0 then false else s.first
          phase := if n = 0 then .encRun else .encRow, resp := some ⟨0, 0, 0⟩ }

/-- R151, R152, R154: when `ENC.ROW` faults, and with which code. -/
def Obligations.RowFaults : Prop :=
  ∀ (n : Byte) (x : Word) (s : State), s.fault = 0 →
    let code := encodeTs (tsCodeOf ((x - s.ts) - s.delta))
    let o := exec (.encRow n x) s
    (s.phase ≠ .encFirst → s.phase ≠ .encRun → FaultsAs o .sequence 0x41 s) ∧
    (s.phase = .encFirst ∨ s.phase = .encRun → s.cfg.ncolMax < n.toNat → FaultsAs o .column 0x41 s) ∧
    (s.phase = .encRun → n.toNat ≤ s.cfg.ncolMax → n ≠ s.ncols → FaultsAs o .colcount 0x41 s) ∧
    (s.phase = .encFirst ∨ s.phase = .encRun ∧ n = s.ncols → n.toNat ≤ s.cfg.ncolMax → s.bpMode = .read →
      FaultsAs o .bpMode 0x41 s) ∧
    (s.phase = .encFirst → n.toNat ≤ s.cfg.ncolMax → s.bpMode = .write → 2 ^ 32 ≤ (x - s.anchor).toNat →
      FaultsAs o .bpRange 0x41 s) ∧
    (s.phase = .encFirst → n.toNat ≤ s.cfg.ncolMax → s.bpMode = .write → (x - s.anchor).toNat < 2 ^ 32 →
      64 * s.cfg.bpMaxWords < s.bpNbits + 32 → FaultsAs o .bpOverflow 0x41 s) ∧
    (s.phase = .encRun → n = s.ncols → n.toNat ≤ s.cfg.ncolMax → s.bpMode = .write →
      64 * s.cfg.bpMaxWords < s.bpNbits + code.length → FaultsAs o .bpOverflow 0x41 s)

/-- R157 to R159, R163: a first-row `ENC.VAL` appends the value's 8 bytes, most significant first, with no header, NaN mapped. -/
def Obligations.FirstRowValueIsAppended : Prop :=
  ∀ (v : Word) (s : State), s.fault = 0 → Memory.wf s.bbB = true → s.phase = .encRow → s.first = true →
    s.vidx.toNat < s.hw.length → s.bbLen + 8 ≤ s.cfg.bbMaxBytes →
    ∃ t, exec (.encVal v) s = .next t ∧ ValueEncoded s t (rawOf s v) (bytes64 (rawOf s v))

/-- R166, R160: in a later row, a value that equals an entry of its window is encoded as exactly one byte below `0x80`, the
lowest offset holding it. -/
def Obligations.ExactMatchIsOneByte : Prop :=
  ∀ (v : Word) (k : Nat) (s : State), s.fault = 0 → Memory.wf s.bbB = true → s.phase = .encRow → s.first = false →
    s.vidx.toNat < s.hw.length → (window s s.vidx.toNat).n ≤ 127 →
    LowestMatch (window s s.vidx.toNat) (rawOf s v) k → s.bbLen + 1 ≤ s.cfg.bbMaxBytes →
    k < 0x80 ∧ ∃ t, exec (.encVal v) s = .next t ∧ ValueEncoded s t (rawOf s v) [BitVec.ofNat 8 k]

/-- R161, R84, R85: with no exact match, and a best candidate whose XOR has at least two zero bytes at its ends, the code is the
header `0x80 | k`, the info byte `(T << 4) | L` and the `L` significant bytes. -/
def Obligations.SimilarValueIsXorCoded : Prop :=
  ∀ (v : Word) (k : Nat) (s : State), s.fault = 0 → Memory.wf s.bbB = true → s.phase = .encRow → s.first = false →
    s.vidx.toNat < s.hw.length → (window s s.vidx.toNat).n ≤ 127 →
    let x := (window s s.vidx.toNat).entry k ^^^ rawOf s v
    let l := 8 - lzb x - tzb x
    NoMatch (window s s.vidx.toNat) (rawOf s v) → BestOffset (window s s.vidx.toNat) (rawOf s v) k →
    1 < lzb x + tzb x → s.bbLen + 2 + l ≤ s.cfg.bbMaxBytes →
    1 ≤ l ∧ l ≤ 6 ∧ tzb x ≤ 7 ∧ ∃ t, exec (.encVal v) s = .next t ∧
      ValueEncoded s t (rawOf s v)
        (BitVec.ofNat 8 (0x80 + k) :: BitVec.ofNat 8 (16 * tzb x + l) :: lowBytes (x >>> (8 * tzb x)) l)

/-- R162, R86: with no exact match and no useful similarity, the code is `0xFF` and the value's 8 bytes. -/
def Obligations.DissimilarValueIsEscaped : Prop :=
  ∀ (v : Word) (k : Nat) (s : State), s.fault = 0 → Memory.wf s.bbB = true → s.phase = .encRow → s.first = false →
    s.vidx.toNat < s.hw.length →
    let x := (window s s.vidx.toNat).entry k ^^^ rawOf s v
    NoMatch (window s s.vidx.toNat) (rawOf s v) → BestOffset (window s s.vidx.toNat) (rawOf s v) k →
    lzb x + tzb x ≤ 1 → s.bbLen + 9 ≤ s.cfg.bbMaxBytes →
    ∃ t, exec (.encVal v) s = .next t ∧ ValueEncoded s t (rawOf s v) (0xFF :: bytes64 (rawOf s v))

/-- R157, R158, R160, R161: when `ENC.VAL` faults: outside a row, on a full ByteBuffer, and (log entry 13) on a window the host
emptied inside the session. -/
def Obligations.ValueFaults : Prop :=
  ∀ (v : Word) (s : State), s.fault = 0 →
    let x := window s s.vidx.toNat
    let o := exec (.encVal v) s
    (s.phase ≠ .encRow → FaultsAs o .sequence 0x42 s) ∧
    (s.phase = .encRow → s.first = true → s.cfg.bbMaxBytes < s.bbLen + 8 → FaultsAs o .bbOverflow 0x42 s) ∧
    (s.phase = .encRow → s.first = false → x.n = 0 → FaultsAs o .hwEmpty 0x42 s) ∧
    (s.phase = .encRow → s.first = false → 0 < x.n → s.cfg.bbMaxBytes ≤ s.bbLen → FaultsAs o .bbOverflow 0x42 s) ∧
    (∀ k, s.phase = .encRow → s.first = false → NoMatch x (rawOf s v) → BestOffset x (rawOf s v) k →
      let d := x.entry k ^^^ rawOf s v
      s.cfg.bbMaxBytes < s.bbLen + (if 1 < lzb d + tzb d then 2 + (8 - lzb d - tzb d) else 9) →
      FaultsAs o .bbOverflow 0x42 s)

/-- R164, R103: `ENC.FINISH` appends the trailer, freezes the BitPacker and ends the session, and when it faults. -/
def Obligations.FinishClosesTheSession : Prop :=
  ∀ s : State, s.fault = 0 → Store.wf s.bpW = true →
    let between := s.phase = .encFirst ∨ s.phase = .encRun
    (between → s.bpMode = .write → s.bpNbits + 133 ≤ 64 * s.cfg.bpMaxWords →
      ∃ t, exec .encFinish s = .next t ∧
        (∀ j, j < 133 → streamBit t.bpW (s.bpNbits + j) = decide (j < 132)) ∧
        (∀ k, k < s.bpNbits ∨ s.bpNbits + 133 ≤ k → streamBit t.bpW k = streamBit s.bpW k) ∧
        { t with bpW := s.bpW } =
          { s with
            bpNbits := s.bpNbits + 133, bpMode := .read, bpRpos := 0, phase := .encDone, resp := some ⟨0, 0, 0⟩ }) ∧
    (¬ between → FaultsAs (exec .encFinish s) .sequence 0x43 s) ∧
    (between → s.bpMode = .read → FaultsAs (exec .encFinish s) .bpMode 0x43 s) ∧
    (between → s.bpMode = .write → 64 * s.cfg.bpMaxWords < s.bpNbits + 133 → FaultsAs (exec .encFinish s) .bpOverflow 0x43 s)

/-! ## Decoder -/

/-- R180, R45: `DEC.INIT` reads the anchor, empties the row's windows and starts the session, and when it faults. -/
def Obligations.DecoderInitReadsTheAnchor : Prop :=
  ∀ (n : Byte) (s : State), s.fault = 0 → s.hw.length = s.cfg.ncolMax →
    let between := s.phase = .idle ∨ s.phase = .encDone
    (between → n.toNat ≤ s.cfg.ncolMax → s.bpMode = .read → 64 ≤ s.bpNbits - s.bpRpos →
      ∃ t, exec (.decInit n) s = .next t ∧
        (∀ j, j < 64 → t.anchor.getLsbD (63 - j) = streamBit s.bpW (s.bpRpos + j)) ∧
        (∀ c, c < n.toNat → window t c = Window.empty s.cfg.zeroFill) ∧ (∀ c, n.toNat ≤ c → window t c = window s c) ∧
        { t with anchor := s.anchor, hw := s.hw } =
          { s with
            bpRpos := s.bpRpos + 64, ncols := n, ts := 0, delta := 0, vidx := 0, first := false, phase := .decFirst
            resp := some ⟨0, 0, 0⟩ }) ∧
    (¬ between → FaultsAs (exec (.decInit n) s) .sequence 0x50 s) ∧
    (between → s.cfg.ncolMax < n.toNat → FaultsAs (exec (.decInit n) s) .column 0x50 s) ∧
    (between → n.toNat ≤ s.cfg.ncolMax → s.bpMode = .write → FaultsAs (exec (.decInit n) s) .bpMode 0x50 s) ∧
    (between → n.toNat ≤ s.cfg.ncolMax → s.bpMode = .read → s.bpNbits - s.bpRpos < 64 →
      FaultsAs (exec (.decInit n) s) .bpUnderflow 0x50 s)

/-- R181, R184, R185: `DEC.NEXT` at 32 ones before the first row, or at 36 ones before a later one, returns 0 and ends the
session, having consumed exactly those bits. -/
def Obligations.AllOnesEndTheStream : Prop :=
  ∀ s : State, s.fault = 0 → s.bpMode = .read →
    (s.phase = .decFirst → 32 ≤ s.bpNbits - s.bpRpos → (∀ j, j < 32 → streamBit s.bpW (s.bpRpos + j) = true) →
      exec .decNext s = .next { s with bpRpos := s.bpRpos + 32, phase := .decDone, resp := some ⟨0, 0, 0⟩ }) ∧
    (s.phase = .decRun → 36 ≤ s.bpNbits - s.bpRpos → (∀ j, j < 36 → streamBit s.bpW (s.bpRpos + j) = true) →
      exec .decNext s = .next { s with bpRpos := s.bpRpos + 36, phase := .decDone, resp := some ⟨0, 0, 0⟩ })

/-- R181 to R184: `DEC.NEXT` on a first row takes the 32-bit first delta and 8 raw bytes per column: the row's timestamp, its
values, the windows and the cursors. -/
def Obligations.FirstRowDecodes : Prop :=
  ∀ (fd : BitVec 32) (vs : List Word) (s : State), s.fault = 0 → s.phase = .decFirst → s.bpMode = .read →
    s.dcol = 0 → s.hw.length = s.cfg.ncolMax → s.storedV.length = s.cfg.ncolMax → s.ncols.toNat ≤ s.cfg.ncolMax →
    32 ≤ s.bpNbits - s.bpRpos → streamBits s.bpW s.bpRpos 32 = fieldBits (fd.setWidth 64) 32 → fd ≠ BitVec.allOnes 32 →
    vs.length = s.ncols.toNat → s.bbRpos + 8 * vs.length ≤ s.bbLen →
    storeBytes s.bbB s.bbRpos (8 * vs.length) = vs.flatMap bytes64 →
    ∃ t, exec .decNext s = .next t ∧
      (∀ c (h : c < vs.length), t.storedV.getD c 0 = vs[c] ∧ window t c = (window s c).push vs[c]) ∧
      (∀ c, vs.length ≤ c → t.storedV.getD c 0 = s.storedV.getD c 0 ∧ window t c = window s c) ∧
      { t with storedV := s.storedV, hw := s.hw } =
        { s with
          bpRpos := s.bpRpos + 32, bbRpos := s.bbRpos + 8 * vs.length, ts := s.anchor + fd.setWidth 64
          delta := fd.setWidth 64, phase := .decRun, resp := some ⟨0, 1, 0⟩ }

/-- R181, R185 to R188: `DEC.NEXT` on a later row does what the row's stream codes do, in order: the timestamp code at the head
of the BitPacker, then one value code per column from the ByteBuffer; and it consumes exactly those codes. -/
def Obligations.LaterRowRunsItsStreamCodes : Prop :=
  ∀ (c : TsCode) (cs : List ValCode) (s t : State), s.fault = 0 → s.phase = .decRun → s.bpMode = .read → s.dcol = 0 →
    c ≠ .eos → c.toInstr.wf = true → (∀ x ∈ cs, x.toInstr.wf = true) → cs.length = s.ncols.toNat →
    (encodeTs c).length ≤ s.bpNbits - s.bpRpos → streamBits s.bpW s.bpRpos (encodeTs c).length = encodeTs c →
    s.bbRpos + (cs.flatMap encodeVal).length ≤ s.bbLen →
    storeBytes s.bbB s.bbRpos (cs.flatMap encodeVal).length = cs.flatMap encodeVal →
    runInstrs (c.toInstr :: cs.map ValCode.toInstr) s = some t →
    exec .decNext s =
      .next { t with
        bpRpos := s.bpRpos + (encodeTs c).length, bbRpos := s.bbRpos + (cs.flatMap encodeVal).length, dcol := 0
        resp := some ⟨0, 1, 0⟩ }

/-- R181, R182, R185 to R187, R227: when `DEC.NEXT` faults: in a wrong phase, on an unfrozen BitPacker, on a stream that ends
inside the first delta, a first-row value, a timestamp code or a value code, and with the fault of the first value code of the
row that faults. -/
def Obligations.DecodeFaults : Prop :=
  ∀ s : State, s.fault = 0 →
    let o := exec .decNext s
    (s.phase ≠ .decFirst → s.phase ≠ .decRun → FaultsAs o .sequence 0x51 s) ∧
    (s.phase = .decFirst ∨ s.phase = .decRun → s.bpMode = .write → FaultsAs o .bpMode 0x51 s) ∧
    (s.phase = .decFirst → s.bpMode = .read → s.bpNbits - s.bpRpos < 32 → FaultsAs o .bpUnderflow 0x51 s) ∧
    (s.phase = .decFirst → s.bpMode = .read → 32 ≤ s.bpNbits - s.bpRpos →
      streamBits s.bpW s.bpRpos 32 ≠ List.replicate 32 true → s.bbRpos ≤ s.bbLen →
      s.bbLen < s.bbRpos + 8 * s.ncols.toNat → FaultsAs o .bbUnderflow 0x51 s) ∧
    (s.phase = .decRun → s.bpMode = .read → decodeTs (streamBits s.bpW s.bpRpos (s.bpNbits - s.bpRpos)) = none →
      FaultsAs o .bpUnderflow 0x51 s) ∧
    ∀ (c : TsCode) (cs : List ValCode) (u : State),
      let len := (cs.flatMap encodeVal).length
      s.phase = .decRun → s.bpMode = .read → s.dcol = 0 → c ≠ .eos → c.toInstr.wf = true →
      (∀ x ∈ cs, x.toInstr.wf = true) → cs.length < s.ncols.toNat →
      (encodeTs c).length ≤ s.bpNbits - s.bpRpos → streamBits s.bpW s.bpRpos (encodeTs c).length = encodeTs c →
      s.bbRpos + len ≤ s.bbLen → storeBytes s.bbB s.bbRpos len = cs.flatMap encodeVal →
      runInstrs (c.toInstr :: cs.map ValCode.toInstr) s = some u →
      (decodeVal (storeBytes s.bbB (s.bbRpos + len) (s.bbLen - (s.bbRpos + len))) = none → FaultsAs o .bbUnderflow 0x51 s) ∧
      ∀ (d : ValCode) (rest : List Byte) (code : FaultCode),
        decodeVal (storeBytes s.bbB (s.bbRpos + len) (s.bbLen - (s.bbRpos + len))) = some (d, rest) →
        FaultsAs (exec d.toInstr u) code 0x51 u → FaultsAs o code 0x51 s

/-- R190, R191: `DEC.TS` and `DEC.VAL` read the current row in `DEC_RUN`, and when they fault. -/
def Obligations.CurrentRowIsRead : Prop :=
  ∀ (col : Byte) (s : State), s.fault = 0 →
    (s.phase = .decRun → exec .decTs s = .next { s with resp := some ⟨0, s.ts, 0⟩ }) ∧
    (s.phase ≠ .decRun → FaultsAs (exec .decTs s) .sequence 0x52 s) ∧
    (s.phase = .decRun → col.toNat < s.ncols.toNat →
      exec (.decVal col) s = .next { s with resp := some ⟨0, s.storedV.getD col.toNat 0, 0⟩ }) ∧
    (s.phase ≠ .decRun → FaultsAs (exec (.decVal col) s) .sequence 0x53 s) ∧
    (s.phase = .decRun → s.ncols.toNat ≤ col.toNat → FaultsAs (exec (.decVal col) s) .column 0x53 s)

/-! ## Stream codes -/

/-- R80, R185: what each timestamp code of a later row does once read: `DELTA` grows by the unzigzagged payload and `TS` by the
new `DELTA`. -/
def Obligations.TimestampCodesMoveTheTimestamp : Prop :=
  ∀ s : State, s.fault = 0 → s.phase = .decRun →
    let after (dod : Word) : Out := .next { s with delta := s.delta + dod, ts := s.ts + (s.delta + dod) }
    exec .tsDod0 s = after 0 ∧
    (∀ u, exec (.tsDod7 u) s = after (unzigzag (u.setWidth 64))) ∧
    (∀ u, exec (.tsDod9 u) s = after (unzigzag (u.setWidth 64))) ∧
    (∀ u, exec (.tsDod12 u) s = after (unzigzag (u.setWidth 64))) ∧
    (∀ u, u ≠ BitVec.allOnes 32 → exec (.tsDod32 u) s = after (unzigzag (u.setWidth 64))) ∧
    (∀ dod : Word, unzigzag (zigzag dod) = dod)

/-- R83, R84, R86, R186 to R188: what each value code of a later row does once read: the value goes to the front of the column's
window and into the row; and when it faults. -/
def Obligations.ValueCodesStoreTheValue : Prop :=
  ∀ (k h : BitVec 7) (t l : BitVec 4) (y v : Word) (s : State), s.fault = 0 → s.phase = .decRun → s.dcol < s.ncols.toNat →
    let x := window s s.dcol
    let stored (v : Word) : Out :=
      .next { s with hw := s.hw.set s.dcol (x.push v), storedV := s.storedV.set s.dcol v, dcol := s.dcol + 1 }
    exec (.valEscape v) s = stored v ∧
    (h.toNat < x.n → exec (.valExact h) s = stored (x.entry h.toNat)) ∧
    (x.n ≤ h.toNat → FaultsAs (exec (.valExact h) s) .hwIndex 0x51 s) ∧
    (t.toNat + l.toNat ≤ 8 → k.toNat < x.n →
      exec (.valXor k t l y) s = stored ((y <<< (8 * t.toNat)) ^^^ x.entry k.toNat)) ∧
    (8 < t.toNat + l.toNat → FaultsAs (exec (.valXor k t l y) s) .malformed 0x51 s) ∧
    (t.toNat + l.toNat ≤ 8 → x.n ≤ k.toNat → FaultsAs (exec (.valXor k t l y) s) .hwIndex 0x51 s)

/-- R79, R81, R88, R103, R109, R180, R182 to R185: what the anchor, the first delta, a first-row value and the two ends of the
stream do once read. -/
def Obligations.FixedFieldsAndEndOfStream : Prop :=
  ∀ (a v : Word) (d : BitVec 32) (s : State), s.fault = 0 →
    (s.phase = .idle ∨ s.phase = .encDone → exec (.tsAnchor a) s = .next { s with anchor := a }) ∧
    (s.phase = .decFirst → d ≠ BitVec.allOnes 32 →
      exec (.tsFirstdelta d) s = .next { s with ts := s.anchor + d.setWidth 64, delta := d.setWidth 64 }) ∧
    (s.phase = .decFirst → exec (.tsFirstdelta (BitVec.allOnes 32)) s = .next { s with phase := .decDone }) ∧
    (s.phase = .decFirst → s.dcol < s.ncols.toNat →
      exec (.valFirst v) s =
        .next { s with
          hw := s.hw.set s.dcol ((window s s.dcol).push v), storedV := s.storedV.set s.dcol v, dcol := s.dcol + 1 }) ∧
    (s.phase = .decRun → exec .tsEos s = .next { s with phase := .decDone }) ∧
    (s.phase = .decFirst ∨ s.phase = .decRun → exec .bpTrailer s = .next { s with phase := .decDone })

/-! ## Export -/

/-- R205 to R207: `EXP.WORD` returns a word that holds stream bits and is not evicted, `EXP.BYTE` a byte below `BB_LEN`; any
other index is `EXP_INDEX`. -/
def Obligations.ExportReadsTheStores : Prop :=
  ∀ (i : Word) (s : State), s.fault = 0 →
    (s.bpRpos / 64 ≤ i.toNat → 64 * i.toNat < s.bpNbits →
      exec (.expWord i) s = .next { s with resp := some ⟨0, readWord s.bpW i.toNat, 0⟩ }) ∧
    (i.toNat < s.bpRpos / 64 ∨ s.bpNbits ≤ 64 * i.toNat → FaultsAs (exec (.expWord i) s) .expIndex 0x61 s) ∧
    (i.toNat < s.bbLen →
      exec (.expByte i) s = .next { s with resp := some ⟨0, (readByte s.bbB i.toNat).setWidth 64, 0⟩ }) ∧
    (s.bbLen ≤ i.toNat → FaultsAs (exec (.expByte i) s) .expIndex 0x62 s)

/-! ## Losslessness -/

/-- R160 to R162, R186, R187: the value code the Encoder chooses against a window stands, against the same window, for the value
encoded; a window with an entry always gives a code. -/
def Obligations.ChosenValueCodeDecodesToTheValue : Prop :=
  ∀ (x : Window) (raw : Word), x.n ≤ 127 →
    (0 < x.n → ∃ c, chooseCode x raw = .ok c) ∧
    ∀ c, chooseCode x raw = .ok c → codeValue c x = .ok raw ∧ c.toInstr.wf = true

/-- R153 to R155, R185: in the supported range the timestamp code the Encoder chooses is not end of stream and stands for the
delta of deltas encoded; `-2^31` is written as end of stream and `2^31` decodes as 0. -/
def Obligations.ChosenTimestampCodeDecodesToTheDelta : Prop :=
  (∀ dod : Word, dod.toInt.natAbs ≤ 2 ^ 31 - 1 →
    tsCodeOf dod ≠ .eos ∧ (tsCodeOf dod).toInstr.wf = true ∧ unzigzag (tsPayload (tsCodeOf dod)) = dod) ∧
  tsCodeOf (BitVec.ofInt 64 (-(2 ^ 31))) = .eos ∧ unzigzag (tsPayload (tsCodeOf (BitVec.ofInt 64 (2 ^ 31)))) = 0

/-- R192: an Encoder session from `IDLE` with supported timestamps, run without a fault, then decoded in place, gives back every
row: `DEC.NEXT` returns 1 for each, `DEC.TS` its timestamp and `DEC.VAL` its values, NaN as `NAN_SENTINEL`; the next returns 0. -/
def Obligations.SessionRoundTrips : Prop :=
  ∀ (a : Word) (n : Byte) (rows : List (Word × List Word)) (s e : State), Inv s → s.fault = 0 → s.phase = .idle →
    n.toNat ≤ s.cfg.ncolMax → (∀ r ∈ rows, r.2.length = n.toNat) → timesSupported a (rows.map Prod.fst) →
    runInstrs (sessionCommands a rows) s = some e →
    ∃ d, exec (.decInit n) e = .next d ∧ d.fault = 0 ∧
      (∀ i (h : i < rows.length), ∃ u, runInstrs (List.replicate (i + 1) .decNext) d = some u ∧ u.resp = some ⟨0, 1, 0⟩ ∧
        exec .decTs u = .next { u with resp := some ⟨0, rows[i].1, 0⟩ } ∧
        ∀ (c : Byte) (hc : c.toNat < rows[i].2.length),
          exec (.decVal c) u = .next { u with resp := some ⟨0, rawOf s (rows[i].2[c.toNat]), 0⟩ }) ∧
      ∃ z, runInstrs (List.replicate (rows.length + 1) .decNext) d = some z ∧ z.resp = some ⟨0, 0, 0⟩ ∧ z.phase = .decDone

/-- R193: under the conditions of R192, after the Decoder's `i`-th row every window of a column of the stream equals, entry for
entry and in count, the Encoder's after its `i`-th row. -/
def Obligations.DecoderWindowsKeepLockStep : Prop :=
  ∀ (a : Word) (n : Byte) (rows : List (Word × List Word)) (s e d : State), Inv s → s.fault = 0 → s.phase = .idle →
    n.toNat ≤ s.cfg.ncolMax → (∀ r ∈ rows, r.2.length = n.toNat) → timesSupported a (rows.map Prod.fst) →
    runInstrs (sessionCommands a rows) s = some e → exec (.decInit n) e = .next d →
    ∀ i, i < rows.length →
      ∃ u w, runInstrs (rowsCommands a (rows.take (i + 1))) s = some u ∧
        runInstrs (List.replicate (i + 1) .decNext) d = some w ∧ w.resp = some ⟨0, 1, 0⟩ ∧
        ∀ c, c < n.toNat → window w c = window u c
end

