-- ==== Sys2Proof/Laws/Bits.lean ====
section
/-! SUPPORT. The helper functions of R17 and the bit and byte orders, one lemma for what each does. -/

namespace Sys2Proof.Machine

/-! ## Bit strings -/

theorem getLsbD_pushBit (r : Word) (b : Bool) (k : Nat) (hk : k < 64) :
    (pushBit r b).getLsbD k = if k = 0 then b else r.getLsbD (k - 1) := by
  unfold pushBit
  rcases Nat.eq_zero_or_pos k with rfl | h
  · cases b <;> simp
  · have h0 : k ≠ 0 := by omega
    cases b <;> simp [hk, h0, show ¬ k < 1 by omega] <;> exact (BitVec.getLsbD_eq_getElem (by omega)).symm

theorem foldl_pushBit (l : List Bool) (r : Word) (k : Nat) (hk : k < 64) :
    (l.foldl pushBit r).getLsbD k = if h : k < l.length then l[l.length - 1 - k] else r.getLsbD (k - l.length) := by
  induction l generalizing r with
  | nil => simp
  | cons b l ih =>
    rw [List.foldl_cons, ih]
    by_cases h1 : k < l.length
    · have h2 : k < (b :: l).length := by simp; omega
      rw [dif_pos h1, dif_pos h2]
      have : (b :: l).length - 1 - k = (l.length - 1 - k) + 1 := by simp; omega
      simp only [this, List.getElem_cons_succ]
    · rw [dif_neg h1, getLsbD_pushBit _ _ _ (by omega)]
      by_cases h2 : k = l.length
      · subst h2
        rw [if_pos (by omega), dif_pos (by simp)]
        simp
      · rw [if_neg (by omega), dif_neg (by simp; omega)]
        simp only [List.length_cons]
        congr 1

/-- Bit `k` of the value of a bit string counts from its end (R54). -/
theorem getLsbD_wordOfBits (l : List Bool) (k : Nat) (hk : k < 64) :
    (wordOfBits l).getLsbD k = if h : k < l.length then l[l.length - 1 - k] else false := by
  unfold wordOfBits
  rw [foldl_pushBit _ _ _ hk]
  simp

@[simp] theorem length_fieldBits (v : Word) (w : Nat) : (fieldBits v w).length = w := by
  induction w with
  | zero => rfl
  | succ w ih => simp [fieldBits, ih]

theorem getElem_fieldBits (v : Word) (w j : Nat) (h : j < (fieldBits v w).length) :
    (fieldBits v w)[j] = v.getLsbD (w - 1 - j) := by
  induction w generalizing j with
  | zero => simp at h
  | succ w ih =>
    cases j with
    | zero => simp [fieldBits]
    | succ j =>
      simp only [fieldBits, List.getElem_cons_succ]
      rw [ih]
      congr 1; omega

/-- A field's bits read back as its low bits (R54). -/
theorem getLsbD_wordOfBits_fieldBits (v : Word) (w k : Nat) (hk : k < 64) :
    (wordOfBits (fieldBits v w)).getLsbD k = (decide (k < w) && v.getLsbD k) := by
  rw [getLsbD_wordOfBits _ _ hk]
  by_cases h : k < w
  · have hl : k < (fieldBits v w).length := by simpa using h
    rw [dif_pos hl, getElem_fieldBits]
    simp only [length_fieldBits, h, decide_true, Bool.true_and]
    congr 1; omega
  · rw [dif_neg (by simpa using h)]
    simp [h]

theorem getLsbD_of_lt_two_pow (v : Word) (w k : Nat) (hv : v.toNat < 2 ^ w) (hk : w ≤ k) : v.getLsbD k = false := by
  rw [BitVec.getLsbD]
  exact Nat.testBit_lt_two_pow (lt_of_lt_of_le hv (Nat.pow_le_pow_right (by decide) hk))

/-- A field read with the width it was appended with returns its value unchanged (R54). -/
theorem wordOfBits_fieldBits (v : Word) (w : Nat) (hv : v.toNat < 2 ^ w) : wordOfBits (fieldBits v w) = v := by
  apply BitVec.eq_of_getLsbD_eq
  intro k hk
  rw [getLsbD_wordOfBits_fieldBits _ _ _ hk]
  by_cases h : k < w
  · simp [h]
  · rw [getLsbD_of_lt_two_pow v w k hv (by omega)]; simp

/-- The bits of a string's value are the string, up to 64 bits (R52, R54). -/
theorem fieldBits_wordOfBits (l : List Bool) (hl : l.length ≤ 64) : fieldBits (wordOfBits l) l.length = l := by
  apply List.ext_getElem
  · simp
  · intro j h1 h2
    rw [getElem_fieldBits, getLsbD_wordOfBits _ _ (by simp at h1; omega), dif_pos (by omega)]
    congr 1; omega

theorem wordOfBits_lt (l : List Bool) : (wordOfBits l).toNat < 2 ^ l.length := by
  apply Nat.lt_pow_two_of_testBit
  intro k hk
  by_cases h : k < 64
  · have := getLsbD_wordOfBits l k h
    rw [dif_neg (by omega)] at this
    exact this
  · exact Nat.testBit_lt_two_pow (lt_of_lt_of_le (wordOfBits l).isLt (Nat.pow_le_pow_right (by decide) (by omega)))

/-! ## Byte strings -/

theorem getLsbD_pushByte (r : Word) (b : Byte) (k : Nat) (hk : k < 64) :
    (pushByte r b).getLsbD k = if k < 8 then b.getLsbD k else r.getLsbD (k - 8) := by
  unfold pushByte
  by_cases h : k < 8
  · simp [hk, h]
  · have : b.getLsbD k = false := BitVec.getLsbD_of_ge b k (by omega)
    simp [hk, h, this]
    exact (BitVec.getLsbD_eq_getElem (by omega)).symm

theorem foldl_pushByte (l : List Byte) (r : Word) (k : Nat) (hk : k < 64) :
    (l.foldl pushByte r).getLsbD k =
      if h : k / 8 < l.length then (l[l.length - 1 - k / 8]).getLsbD (k % 8) else r.getLsbD (k - 8 * l.length) := by
  induction l generalizing r with
  | nil => simp
  | cons b l ih =>
    rw [List.foldl_cons, ih]
    by_cases h1 : k / 8 < l.length
    · have h2 : k / 8 < (b :: l).length := by simp; omega
      rw [dif_pos h1, dif_pos h2]
      have : (b :: l).length - 1 - k / 8 = (l.length - 1 - k / 8) + 1 := by simp; omega
      simp only [this, List.getElem_cons_succ]
    · rw [dif_neg h1, getLsbD_pushByte _ _ _ (by omega)]
      by_cases h2 : k / 8 = l.length
      · rw [if_pos (by omega), dif_pos (by simp; omega)]
        have h3 : (b :: l).length - 1 - k / 8 = 0 := by simp; omega
        simp only [h3, List.getElem_cons_zero]
        congr 1; omega
      · rw [if_neg (by omega), dif_neg (by simp; omega)]
        simp only [List.length_cons]
        congr 1

/-- Byte `k / 8` of the value of a byte string counts from its end (R57). -/
theorem getLsbD_wordOfBytes (l : List Byte) (k : Nat) (hk : k < 64) :
    (wordOfBytes l).getLsbD k = if h : k / 8 < l.length then (l[l.length - 1 - k / 8]).getLsbD (k % 8) else false := by
  unfold wordOfBytes
  rw [foldl_pushByte _ _ _ hk]
  simp

@[simp] theorem length_lowBytes (x : Word) (n : Nat) : (lowBytes x n).length = n := by
  induction n with
  | zero => rfl
  | succ n ih => simp [lowBytes, ih]

@[simp] theorem length_bytes64 (x : Word) : (bytes64 x).length = 8 := length_lowBytes x 8

theorem getElem_lowBytes (x : Word) (n j : Nat) (h : j < (lowBytes x n).length) :
    (lowBytes x n)[j] = byteOf x (n - 1 - j) := by
  induction n generalizing j with
  | zero => simp at h
  | succ n ih =>
    cases j with
    | zero => simp [lowBytes]
    | succ j =>
      simp only [lowBytes, List.getElem_cons_succ]
      rw [ih]
      congr 1; omega

theorem getLsbD_byteOf (x : Word) (i k : Nat) : (byteOf x i).getLsbD k = (decide (k < 8) && x.getLsbD (8 * i + k)) := by
  simp [byteOf, BitVec.getLsbD_extractLsb']

/-- A value's low bytes read back as the value, where it fits in them (R57, R84, R124). -/
theorem wordOfBytes_lowBytes (x : Word) (n : Nat) (hx : x.toNat < 2 ^ (8 * n)) : wordOfBytes (lowBytes x n) = x := by
  apply BitVec.eq_of_getLsbD_eq
  intro k hk
  rw [getLsbD_wordOfBytes _ _ hk]
  by_cases h : k / 8 < n
  · rw [dif_pos (by simpa using h), getElem_lowBytes, getLsbD_byteOf]
    simp only [length_lowBytes]
    have h1 : k % 8 < 8 := Nat.mod_lt _ (by decide)
    simp only [h1, decide_true, Bool.true_and]
    congr 1; omega
  · rw [dif_neg (by simpa using h), getLsbD_of_lt_two_pow x (8 * n) k hx (by omega)]

theorem wordOfBytes_bytes64 (x : Word) : wordOfBytes (bytes64 x) = x := wordOfBytes_lowBytes x 8 x.isLt

/-- The bytes of a string's value are the string, up to 8 bytes (R57). -/
theorem lowBytes_wordOfBytes (l : List Byte) (hl : l.length ≤ 8) : lowBytes (wordOfBytes l) l.length = l := by
  apply List.ext_getElem
  · simp
  · intro j h1 h2
    rw [getElem_lowBytes]
    apply BitVec.eq_of_getLsbD_eq
    intro k hk
    rw [getLsbD_byteOf, getLsbD_wordOfBytes _ _ (by omega), dif_pos (by omega)]
    simp only [hk, decide_true, Bool.true_and]
    have e1 : (8 * (l.length - 1 - j) + k) / 8 = l.length - 1 - j := by omega
    have e2 : (8 * (l.length - 1 - j) + k) % 8 = k := by omega
    simp only [e1, e2]
    congr 2; omega

theorem wordOfBytes_lt (l : List Byte) : (wordOfBytes l).toNat < 2 ^ (8 * l.length) := by
  apply Nat.lt_pow_two_of_testBit
  intro k hk
  by_cases h : k < 64
  · have := getLsbD_wordOfBytes l k h
    rw [dif_neg (by omega)] at this
    exact this
  · exact Nat.testBit_lt_two_pow (lt_of_lt_of_le (wordOfBytes l).isLt (Nat.pow_le_pow_right (by decide) (by omega)))

/-! ## Leading and trailing zeros -/

theorem clzBelow_le (x : Word) (n : Nat) : clzBelow x n ≤ n := by
  induction n with
  | zero => exact Nat.le_refl 0
  | succ n ih => unfold clzBelow; split <;> omega

theorem clzBelow_spec (x : Word) (n : Nat) :
    (∀ k, n - clzBelow x n ≤ k → k < n → x.getLsbD k = false) ∧
    (clzBelow x n < n → x.getLsbD (n - 1 - clzBelow x n) = true) := by
  induction n with
  | zero => exact ⟨fun k _ h => absurd h (by omega), fun h => absurd h (by omega)⟩
  | succ n ih =>
    have hle := clzBelow_le x n
    unfold clzBelow
    split
    · next h =>
      exact ⟨fun k h1 h2 => absurd h1 (by omega), fun _ => by simpa using h⟩
    · next h =>
      refine ⟨fun k h1 h2 => ?_, fun h1 => ?_⟩
      · by_cases hk : k = n
        · subst hk; simpa using h
        · exact ih.1 k (by omega) (by omega)
      · have := ih.2 (by omega)
        rwa [show n + 1 - 1 - (clzBelow x n + 1) = n - 1 - clzBelow x n by omega]

/-- `clz64` counts the clear bits above the highest set one (R17). -/
theorem clz64_spec (x : Word) :
    clz64 x ≤ 64 ∧ (∀ k, 64 - clz64 x ≤ k → k < 64 → x.getLsbD k = false) ∧
    (clz64 x < 64 → x.getLsbD (63 - clz64 x) = true) :=
  ⟨clzBelow_le x 64, (clzBelow_spec x 64).1, (clzBelow_spec x 64).2⟩

theorem ctzAbove_le (x : Word) (n : Nat) : ctzAbove x n ≤ n := by
  induction n with
  | zero => exact Nat.le_refl 0
  | succ n ih => unfold ctzAbove; split <;> omega

theorem ctzAbove_spec (x : Word) (n : Nat) (hn : n ≤ 64) :
    (∀ k, 64 - n ≤ k → k < 64 - n + ctzAbove x n → x.getLsbD k = false) ∧
    (ctzAbove x n < n → x.getLsbD (64 - n + ctzAbove x n) = true) := by
  induction n with
  | zero => exact ⟨fun k h1 h2 => by simp [ctzAbove] at h2; omega, fun h => absurd h (by omega)⟩
  | succ n ih =>
    have ih := ih (by omega)
    unfold ctzAbove
    split
    · next h =>
      refine ⟨fun k h1 h2 => absurd h2 (by omega), fun _ => ?_⟩
      rwa [show 64 - (n + 1) + 0 = 63 - n by omega]
    · next h =>
      refine ⟨fun k h1 h2 => ?_, fun h1 => ?_⟩
      · by_cases hk : k = 63 - n
        · subst hk; simpa using h
        · exact ih.1 k (by omega) (by omega)
      · have := ih.2 (by omega)
        rwa [show 64 - (n + 1) + (ctzAbove x n + 1) = 64 - n + ctzAbove x n by omega]

/-- `ctz64` counts the clear bits below the lowest set one (R17). -/
theorem ctz64_spec (x : Word) :
    ctz64 x ≤ 64 ∧ (∀ k, k < ctz64 x → x.getLsbD k = false) ∧ (ctz64 x < 64 → x.getLsbD (ctz64 x) = true) := by
  have h := ctzAbove_spec x 64 (Nat.le_refl 64)
  refine ⟨ctzAbove_le x 64, fun k hk => h.1 k (by omega) (by simpa [ctz64] using hk), fun hlt => ?_⟩
  have := h.2 hlt
  simpa [ctz64] using this

theorem exists_bit_of_ne_zero (x : Word) (hx : x ≠ 0) : ∃ k, k < 64 ∧ x.getLsbD k = true := by
  by_contra hc
  push Not at hc
  apply hx
  apply BitVec.eq_of_getLsbD_eq
  intro k hk
  simpa using hc k hk

/-- A non-zero value has a set bit between its leading and its trailing zeros. -/
theorem clz64_add_ctz64_lt (x : Word) (hx : x ≠ 0) : clz64 x + ctz64 x < 64 := by
  obtain ⟨k, hk, hb⟩ := exists_bit_of_ne_zero x hx
  have h1 := (clz64_spec x).2.1 k
  have h2 := (ctz64_spec x).2.1 k
  by_contra hc
  rcases Nat.lt_or_ge k (ctz64 x) with h | h
  · simp [h2 h] at hb
  · rw [h1 (by omega) hk] at hb; simp at hb

/-- The score of a non-zero XOR is at most 7 (R134). -/
theorem lzb_add_tzb_le (x : Word) (hx : x ≠ 0) : lzb x + tzb x ≤ 7 := by
  have := clz64_add_ctz64_lt x hx
  unfold lzb tzb; omega

theorem lt_two_pow_of_clz64 (x : Word) (n : Nat) (hn : 64 - clz64 x ≤ n) : x.toNat < 2 ^ n := by
  apply Nat.lt_pow_two_of_testBit
  intro k hk
  by_cases h : k < 64
  · exact (clz64_spec x).2.1 k (by omega) h
  · exact Nat.testBit_lt_two_pow (lt_of_lt_of_le x.isLt (Nat.pow_le_pow_right (by decide) (by omega)))

/-- `bitlen` bounds the value (R17). -/
theorem lt_two_pow_bitlen (x : Word) : x.toNat < 2 ^ bitlen x := lt_two_pow_of_clz64 x _ (Nat.le_refl _)

/-- A value below `2^n` has at most `n` significant bits (R17). -/
theorem bitlen_le_of_lt (x : Word) (n : Nat) (h : x.toNat < 2 ^ n) : bitlen x ≤ n := by
  unfold bitlen
  by_contra hc
  have h1 := (clz64_spec x).1
  have h2 := (clz64_spec x).2.2 (by omega)
  rw [getLsbD_of_lt_two_pow x n _ h (by omega)] at h2
  simp at h2

/-! ## Zigzag -/

theorem getLsbD_zigzag (d : Word) (k : Nat) (hk : k < 64) :
    (zigzag d).getLsbD k = if k = 0 then d.getLsbD 63 else (d.getLsbD (k - 1) ^^ d.getLsbD 63) := by
  unfold zigzag
  rw [BitVec.getLsbD_xor, BitVec.getLsbD_sshiftRight, BitVec.getLsbD_shiftLeft]
  have hm : d.msb = d.getLsbD 63 := by simp [BitVec.msb_eq_getLsbD_last]
  rcases Nat.eq_zero_or_pos k with rfl | h
  · simp
  · have h1 : ¬ 63 + k < 64 := by omega
    simp [hk, h1, hm, show ¬ k < 1 by omega, show k ≠ 0 by omega, Bool.xor_comm, show ¬ 64 ≤ k by omega]

theorem zero_sub_and_one (u : Word) : 0 - (u &&& 1) = if u.getLsbD 0 then BitVec.allOnes 64 else 0 := by
  have h : u &&& 1 = if u.getLsbD 0 then 1 else 0 := by
    apply BitVec.eq_of_getLsbD_eq
    intro k hk
    rcases Nat.eq_zero_or_pos k with rfl | h
    · cases h0 : u.getLsbD 0 <;> simp_all [BitVec.getLsbD_eq_getElem]
    · have : (1#64).getLsbD k = false := by
        rw [BitVec.getLsbD_one]; simp; omega
      cases h0 : u.getLsbD 0 <;> simp [this]
  rw [h]
  split <;> decide

theorem getLsbD_unzigzag (u : Word) (k : Nat) (hk : k < 64) :
    (unzigzag u).getLsbD k = (u.getLsbD (k + 1) ^^ u.getLsbD 0) := by
  unfold unzigzag
  rw [BitVec.getLsbD_xor, zero_sub_and_one, BitVec.getLsbD_ushiftRight, Nat.add_comm 1 k]
  cases h : u.getLsbD 0
  · simp
  · rw [if_pos rfl, BitVec.getLsbD_allOnes]; simp [hk]

/-- `unzigzag` is the inverse of `zigzag` (R17). -/
theorem unzigzag_zigzag (d : Word) : unzigzag (zigzag d) = d := by
  apply BitVec.eq_of_getLsbD_eq
  intro k hk
  rw [getLsbD_unzigzag _ _ hk, getLsbD_zigzag d 0 (by decide)]
  by_cases h : k + 1 < 64
  · rw [getLsbD_zigzag _ _ h]; simp
  · have : k = 63 := by omega
    subst this
    simp

/-- `zigzag` is the inverse of `unzigzag` (R17). -/
theorem zigzag_unzigzag (u : Word) : zigzag (unzigzag u) = u := by
  apply BitVec.eq_of_getLsbD_eq
  intro k hk
  have h63 : u.getLsbD 64 = false := BitVec.getLsbD_of_ge u 64 (by decide)
  rw [getLsbD_zigzag _ _ hk, getLsbD_unzigzag u 63 (by decide), h63]
  rcases Nat.eq_zero_or_pos k with rfl | h
  · simp
  · rw [if_neg (by omega), getLsbD_unzigzag _ _ (by omega), show k - 1 + 1 = k by omega]
    simp

end Sys2Proof.Machine
end

