-- ==== Sys2Proof/Laws/State.lean ====
section
/-! SUPPORT. What each named update of the state leaves in each field: one simp lemma per field per update, true by `rfl`, so that
no proof unfolds a record update. After a fault only the fields R225 and R44 speak of have one. -/

namespace Sys2Proof.Machine

/-! ## `respond` -/

@[simp] theorem respond_cfg (r0 r1 : Word) (s : State) : (respond r0 r1 s).cfg = s.cfg := rfl
@[simp] theorem respond_phase (r0 r1 : Word) (s : State) : (respond r0 r1 s).phase = s.phase := rfl
@[simp] theorem respond_fault (r0 r1 : Word) (s : State) : (respond r0 r1 s).fault = s.fault := rfl
@[simp] theorem respond_faultOp (r0 r1 : Word) (s : State) : (respond r0 r1 s).faultOp = s.faultOp := rfl
@[simp] theorem respond_bpMode (r0 r1 : Word) (s : State) : (respond r0 r1 s).bpMode = s.bpMode := rfl
@[simp] theorem respond_bpW (r0 r1 : Word) (s : State) : (respond r0 r1 s).bpW = s.bpW := rfl
@[simp] theorem respond_bpNbits (r0 r1 : Word) (s : State) : (respond r0 r1 s).bpNbits = s.bpNbits := rfl
@[simp] theorem respond_bpRpos (r0 r1 : Word) (s : State) : (respond r0 r1 s).bpRpos = s.bpRpos := rfl
@[simp] theorem respond_bbB (r0 r1 : Word) (s : State) : (respond r0 r1 s).bbB = s.bbB := rfl
@[simp] theorem respond_bbLen (r0 r1 : Word) (s : State) : (respond r0 r1 s).bbLen = s.bbLen := rfl
@[simp] theorem respond_bbRpos (r0 r1 : Word) (s : State) : (respond r0 r1 s).bbRpos = s.bbRpos := rfl
@[simp] theorem respond_hw (r0 r1 : Word) (s : State) : (respond r0 r1 s).hw = s.hw := rfl
@[simp] theorem respond_anchor (r0 r1 : Word) (s : State) : (respond r0 r1 s).anchor = s.anchor := rfl
@[simp] theorem respond_ts (r0 r1 : Word) (s : State) : (respond r0 r1 s).ts = s.ts := rfl
@[simp] theorem respond_delta (r0 r1 : Word) (s : State) : (respond r0 r1 s).delta = s.delta := rfl
@[simp] theorem respond_ncols (r0 r1 : Word) (s : State) : (respond r0 r1 s).ncols = s.ncols := rfl
@[simp] theorem respond_vidx (r0 r1 : Word) (s : State) : (respond r0 r1 s).vidx = s.vidx := rfl
@[simp] theorem respond_first (r0 r1 : Word) (s : State) : (respond r0 r1 s).first = s.first := rfl
@[simp] theorem respond_storedV (r0 r1 : Word) (s : State) : (respond r0 r1 s).storedV = s.storedV := rfl
@[simp] theorem respond_port (r0 r1 : Word) (s : State) : (respond r0 r1 s).port = s.port := rfl
@[simp] theorem respond_resp (r0 r1 : Word) (s : State) : (respond r0 r1 s).resp = some ⟨stOk, r0, r1⟩ := rfl
@[simp] theorem respond_dcol (r0 r1 : Word) (s : State) : (respond r0 r1 s).dcol = s.dcol := rfl
@[simp] theorem respond_freeSeed (r0 r1 : Word) (s : State) : (respond r0 r1 s).freeSeed = s.freeSeed := rfl

/-! ## `refuse` -/

@[simp] theorem refuse_cfg (s : State) : (refuse s).cfg = s.cfg := rfl
@[simp] theorem refuse_phase (s : State) : (refuse s).phase = s.phase := rfl
@[simp] theorem refuse_fault (s : State) : (refuse s).fault = s.fault := rfl
@[simp] theorem refuse_faultOp (s : State) : (refuse s).faultOp = s.faultOp := rfl
@[simp] theorem refuse_bpMode (s : State) : (refuse s).bpMode = s.bpMode := rfl
@[simp] theorem refuse_bpW (s : State) : (refuse s).bpW = s.bpW := rfl
@[simp] theorem refuse_bpNbits (s : State) : (refuse s).bpNbits = s.bpNbits := rfl
@[simp] theorem refuse_bpRpos (s : State) : (refuse s).bpRpos = s.bpRpos := rfl
@[simp] theorem refuse_bbB (s : State) : (refuse s).bbB = s.bbB := rfl
@[simp] theorem refuse_bbLen (s : State) : (refuse s).bbLen = s.bbLen := rfl
@[simp] theorem refuse_bbRpos (s : State) : (refuse s).bbRpos = s.bbRpos := rfl
@[simp] theorem refuse_hw (s : State) : (refuse s).hw = s.hw := rfl
@[simp] theorem refuse_anchor (s : State) : (refuse s).anchor = s.anchor := rfl
@[simp] theorem refuse_ts (s : State) : (refuse s).ts = s.ts := rfl
@[simp] theorem refuse_delta (s : State) : (refuse s).delta = s.delta := rfl
@[simp] theorem refuse_ncols (s : State) : (refuse s).ncols = s.ncols := rfl
@[simp] theorem refuse_vidx (s : State) : (refuse s).vidx = s.vidx := rfl
@[simp] theorem refuse_first (s : State) : (refuse s).first = s.first := rfl
@[simp] theorem refuse_storedV (s : State) : (refuse s).storedV = s.storedV := rfl
@[simp] theorem refuse_port (s : State) : (refuse s).port = s.port := rfl
@[simp] theorem refuse_resp (s : State) : (refuse s).resp = some ⟨stRefused, 0, 0⟩ := rfl
@[simp] theorem refuse_dcol (s : State) : (refuse s).dcol = s.dcol := rfl
@[simp] theorem refuse_freeSeed (s : State) : (refuse s).freeSeed = s.freeSeed := rfl

/-! ## `takeFault` -/

@[simp] theorem takeFault_cfg (c : FaultCode) (op : Byte) (s : State) : (takeFault c op s).cfg = s.cfg := rfl
@[simp] theorem takeFault_fault (c : FaultCode) (op : Byte) (s : State) : (takeFault c op s).fault = faultByte c := rfl
@[simp] theorem takeFault_faultOp (c : FaultCode) (op : Byte) (s : State) : (takeFault c op s).faultOp = op := rfl
@[simp] theorem takeFault_port (c : FaultCode) (op : Byte) (s : State) : (takeFault c op s).port = s.port := rfl
@[simp] theorem takeFault_resp (c : FaultCode) (op : Byte) (s : State) : (takeFault c op s).resp = some ⟨faultByte c, 0, 0⟩ := rfl
@[simp] theorem takeFault_dcol (c : FaultCode) (op : Byte) (s : State) : (takeFault c op s).dcol = 0 := rfl
@[simp] theorem takeFault_freeSeed (c : FaultCode) (op : Byte) (s : State) : (takeFault c op s).freeSeed = s.freeSeed + 1 := rfl

/-! ## `resetCore` -/

@[simp] theorem resetCore_cfg (s : State) : (resetCore s).cfg = s.cfg := rfl
@[simp] theorem resetCore_phase (s : State) : (resetCore s).phase = .idle := rfl
@[simp] theorem resetCore_fault (s : State) : (resetCore s).fault = 0 := rfl
@[simp] theorem resetCore_faultOp (s : State) : (resetCore s).faultOp = 0 := rfl
@[simp] theorem resetCore_bpMode (s : State) : (resetCore s).bpMode = .write := rfl
@[simp] theorem resetCore_bpW (s : State) : (resetCore s).bpW = [] := rfl
@[simp] theorem resetCore_bpNbits (s : State) : (resetCore s).bpNbits = 0 := rfl
@[simp] theorem resetCore_bpRpos (s : State) : (resetCore s).bpRpos = 0 := rfl
@[simp] theorem resetCore_bbB (s : State) : (resetCore s).bbB = [] := rfl
@[simp] theorem resetCore_bbLen (s : State) : (resetCore s).bbLen = 0 := rfl
@[simp] theorem resetCore_bbRpos (s : State) : (resetCore s).bbRpos = 0 := rfl
@[simp] theorem resetCore_hw (s : State) : (resetCore s).hw = List.replicate s.cfg.ncolMax (Window.empty s.cfg.zeroFill) := rfl
@[simp] theorem resetCore_anchor (s : State) : (resetCore s).anchor = 0 := rfl
@[simp] theorem resetCore_ts (s : State) : (resetCore s).ts = 0 := rfl
@[simp] theorem resetCore_delta (s : State) : (resetCore s).delta = 0 := rfl
@[simp] theorem resetCore_ncols (s : State) : (resetCore s).ncols = 0 := rfl
@[simp] theorem resetCore_vidx (s : State) : (resetCore s).vidx = 0 := rfl
@[simp] theorem resetCore_first (s : State) : (resetCore s).first = false := rfl
@[simp] theorem resetCore_storedV (s : State) : (resetCore s).storedV = List.replicate s.cfg.ncolMax 0 := rfl
@[simp] theorem resetCore_port (s : State) : (resetCore s).port = s.port := rfl
@[simp] theorem resetCore_resp (s : State) : (resetCore s).resp = s.resp := rfl
@[simp] theorem resetCore_dcol (s : State) : (resetCore s).dcol = 0 := rfl
@[simp] theorem resetCore_freeSeed (s : State) : (resetCore s).freeSeed = s.freeSeed := rfl

/-! ## `enterRead` -/

@[simp] theorem enterRead_cfg (s : State) : (enterRead s).cfg = s.cfg := rfl
@[simp] theorem enterRead_phase (s : State) : (enterRead s).phase = s.phase := rfl
@[simp] theorem enterRead_fault (s : State) : (enterRead s).fault = s.fault := rfl
@[simp] theorem enterRead_faultOp (s : State) : (enterRead s).faultOp = s.faultOp := rfl
@[simp] theorem enterRead_bpMode (s : State) : (enterRead s).bpMode = .read := rfl
@[simp] theorem enterRead_bpW (s : State) : (enterRead s).bpW = s.bpW := rfl
@[simp] theorem enterRead_bpNbits (s : State) : (enterRead s).bpNbits = s.bpNbits := rfl
@[simp] theorem enterRead_bpRpos (s : State) : (enterRead s).bpRpos = 0 := rfl
@[simp] theorem enterRead_bbB (s : State) : (enterRead s).bbB = s.bbB := rfl
@[simp] theorem enterRead_bbLen (s : State) : (enterRead s).bbLen = s.bbLen := rfl
@[simp] theorem enterRead_bbRpos (s : State) : (enterRead s).bbRpos = s.bbRpos := rfl
@[simp] theorem enterRead_hw (s : State) : (enterRead s).hw = s.hw := rfl
@[simp] theorem enterRead_anchor (s : State) : (enterRead s).anchor = s.anchor := rfl
@[simp] theorem enterRead_ts (s : State) : (enterRead s).ts = s.ts := rfl
@[simp] theorem enterRead_delta (s : State) : (enterRead s).delta = s.delta := rfl
@[simp] theorem enterRead_ncols (s : State) : (enterRead s).ncols = s.ncols := rfl
@[simp] theorem enterRead_vidx (s : State) : (enterRead s).vidx = s.vidx := rfl
@[simp] theorem enterRead_first (s : State) : (enterRead s).first = s.first := rfl
@[simp] theorem enterRead_storedV (s : State) : (enterRead s).storedV = s.storedV := rfl
@[simp] theorem enterRead_port (s : State) : (enterRead s).port = s.port := rfl
@[simp] theorem enterRead_resp (s : State) : (enterRead s).resp = s.resp := rfl
@[simp] theorem enterRead_dcol (s : State) : (enterRead s).dcol = s.dcol := rfl
@[simp] theorem enterRead_freeSeed (s : State) : (enterRead s).freeSeed = s.freeSeed := rfl

/-! ## `setWindow` -/

@[simp] theorem setWindow_cfg (s : State) (c : Nat) (x : Window) : (setWindow s c x).cfg = s.cfg := rfl
@[simp] theorem setWindow_phase (s : State) (c : Nat) (x : Window) : (setWindow s c x).phase = s.phase := rfl
@[simp] theorem setWindow_fault (s : State) (c : Nat) (x : Window) : (setWindow s c x).fault = s.fault := rfl
@[simp] theorem setWindow_faultOp (s : State) (c : Nat) (x : Window) : (setWindow s c x).faultOp = s.faultOp := rfl
@[simp] theorem setWindow_bpMode (s : State) (c : Nat) (x : Window) : (setWindow s c x).bpMode = s.bpMode := rfl
@[simp] theorem setWindow_bpW (s : State) (c : Nat) (x : Window) : (setWindow s c x).bpW = s.bpW := rfl
@[simp] theorem setWindow_bpNbits (s : State) (c : Nat) (x : Window) : (setWindow s c x).bpNbits = s.bpNbits := rfl
@[simp] theorem setWindow_bpRpos (s : State) (c : Nat) (x : Window) : (setWindow s c x).bpRpos = s.bpRpos := rfl
@[simp] theorem setWindow_bbB (s : State) (c : Nat) (x : Window) : (setWindow s c x).bbB = s.bbB := rfl
@[simp] theorem setWindow_bbLen (s : State) (c : Nat) (x : Window) : (setWindow s c x).bbLen = s.bbLen := rfl
@[simp] theorem setWindow_bbRpos (s : State) (c : Nat) (x : Window) : (setWindow s c x).bbRpos = s.bbRpos := rfl
@[simp] theorem setWindow_hw (s : State) (c : Nat) (x : Window) : (setWindow s c x).hw = s.hw.set c x := rfl
@[simp] theorem setWindow_anchor (s : State) (c : Nat) (x : Window) : (setWindow s c x).anchor = s.anchor := rfl
@[simp] theorem setWindow_ts (s : State) (c : Nat) (x : Window) : (setWindow s c x).ts = s.ts := rfl
@[simp] theorem setWindow_delta (s : State) (c : Nat) (x : Window) : (setWindow s c x).delta = s.delta := rfl
@[simp] theorem setWindow_ncols (s : State) (c : Nat) (x : Window) : (setWindow s c x).ncols = s.ncols := rfl
@[simp] theorem setWindow_vidx (s : State) (c : Nat) (x : Window) : (setWindow s c x).vidx = s.vidx := rfl
@[simp] theorem setWindow_first (s : State) (c : Nat) (x : Window) : (setWindow s c x).first = s.first := rfl
@[simp] theorem setWindow_storedV (s : State) (c : Nat) (x : Window) : (setWindow s c x).storedV = s.storedV := rfl
@[simp] theorem setWindow_port (s : State) (c : Nat) (x : Window) : (setWindow s c x).port = s.port := rfl
@[simp] theorem setWindow_resp (s : State) (c : Nat) (x : Window) : (setWindow s c x).resp = s.resp := rfl
@[simp] theorem setWindow_dcol (s : State) (c : Nat) (x : Window) : (setWindow s c x).dcol = s.dcol := rfl
@[simp] theorem setWindow_freeSeed (s : State) (c : Nat) (x : Window) : (setWindow s c x).freeSeed = s.freeSeed := rfl

/-! ## `clearStores` -/

@[simp] theorem clearStores_cfg (s : State) : (clearStores s).cfg = s.cfg := rfl
@[simp] theorem clearStores_phase (s : State) : (clearStores s).phase = s.phase := rfl
@[simp] theorem clearStores_fault (s : State) : (clearStores s).fault = s.fault := rfl
@[simp] theorem clearStores_faultOp (s : State) : (clearStores s).faultOp = s.faultOp := rfl
@[simp] theorem clearStores_bpMode (s : State) : (clearStores s).bpMode = .write := rfl
@[simp] theorem clearStores_bpW (s : State) : (clearStores s).bpW = [] := rfl
@[simp] theorem clearStores_bpNbits (s : State) : (clearStores s).bpNbits = 0 := rfl
@[simp] theorem clearStores_bpRpos (s : State) : (clearStores s).bpRpos = 0 := rfl
@[simp] theorem clearStores_bbB (s : State) : (clearStores s).bbB = [] := rfl
@[simp] theorem clearStores_bbLen (s : State) : (clearStores s).bbLen = 0 := rfl
@[simp] theorem clearStores_bbRpos (s : State) : (clearStores s).bbRpos = 0 := rfl
@[simp] theorem clearStores_hw (s : State) : (clearStores s).hw = s.hw := rfl
@[simp] theorem clearStores_anchor (s : State) : (clearStores s).anchor = s.anchor := rfl
@[simp] theorem clearStores_ts (s : State) : (clearStores s).ts = s.ts := rfl
@[simp] theorem clearStores_delta (s : State) : (clearStores s).delta = s.delta := rfl
@[simp] theorem clearStores_ncols (s : State) : (clearStores s).ncols = s.ncols := rfl
@[simp] theorem clearStores_vidx (s : State) : (clearStores s).vidx = s.vidx := rfl
@[simp] theorem clearStores_first (s : State) : (clearStores s).first = s.first := rfl
@[simp] theorem clearStores_storedV (s : State) : (clearStores s).storedV = s.storedV := rfl
@[simp] theorem clearStores_port (s : State) : (clearStores s).port = s.port := rfl
@[simp] theorem clearStores_resp (s : State) : (clearStores s).resp = s.resp := rfl
@[simp] theorem clearStores_dcol (s : State) : (clearStores s).dcol = s.dcol := rfl
@[simp] theorem clearStores_freeSeed (s : State) : (clearStores s).freeSeed = s.freeSeed := rfl

/-! ## `startEncoder` -/

@[simp] theorem startEncoder_cfg (a : Word) (s : State) : (startEncoder a s).cfg = s.cfg := rfl
@[simp] theorem startEncoder_phase (a : Word) (s : State) : (startEncoder a s).phase = s.phase := rfl
@[simp] theorem startEncoder_fault (a : Word) (s : State) : (startEncoder a s).fault = s.fault := rfl
@[simp] theorem startEncoder_faultOp (a : Word) (s : State) : (startEncoder a s).faultOp = s.faultOp := rfl
@[simp] theorem startEncoder_bpMode (a : Word) (s : State) : (startEncoder a s).bpMode = s.bpMode := rfl
@[simp] theorem startEncoder_bpW (a : Word) (s : State) : (startEncoder a s).bpW = s.bpW := rfl
@[simp] theorem startEncoder_bpNbits (a : Word) (s : State) : (startEncoder a s).bpNbits = s.bpNbits := rfl
@[simp] theorem startEncoder_bpRpos (a : Word) (s : State) : (startEncoder a s).bpRpos = s.bpRpos := rfl
@[simp] theorem startEncoder_bbB (a : Word) (s : State) : (startEncoder a s).bbB = s.bbB := rfl
@[simp] theorem startEncoder_bbLen (a : Word) (s : State) : (startEncoder a s).bbLen = s.bbLen := rfl
@[simp] theorem startEncoder_bbRpos (a : Word) (s : State) : (startEncoder a s).bbRpos = s.bbRpos := rfl
@[simp] theorem startEncoder_hw (a : Word) (s : State) : (startEncoder a s).hw = s.hw := rfl
@[simp] theorem startEncoder_anchor (a : Word) (s : State) : (startEncoder a s).anchor = a := rfl
@[simp] theorem startEncoder_ts (a : Word) (s : State) : (startEncoder a s).ts = 0 := rfl
@[simp] theorem startEncoder_delta (a : Word) (s : State) : (startEncoder a s).delta = 0 := rfl
@[simp] theorem startEncoder_ncols (a : Word) (s : State) : (startEncoder a s).ncols = 0 := rfl
@[simp] theorem startEncoder_vidx (a : Word) (s : State) : (startEncoder a s).vidx = 0 := rfl
@[simp] theorem startEncoder_first (a : Word) (s : State) : (startEncoder a s).first = false := rfl
@[simp] theorem startEncoder_storedV (a : Word) (s : State) : (startEncoder a s).storedV = s.storedV := rfl
@[simp] theorem startEncoder_port (a : Word) (s : State) : (startEncoder a s).port = s.port := rfl
@[simp] theorem startEncoder_resp (a : Word) (s : State) : (startEncoder a s).resp = s.resp := rfl
@[simp] theorem startEncoder_dcol (a : Word) (s : State) : (startEncoder a s).dcol = s.dcol := rfl
@[simp] theorem startEncoder_freeSeed (a : Word) (s : State) : (startEncoder a s).freeSeed = s.freeSeed := rfl

/-! ## `takeAnchor` -/

@[simp] theorem takeAnchor_cfg (a : Word) (s : State) : (takeAnchor a s).cfg = s.cfg := rfl
@[simp] theorem takeAnchor_phase (a : Word) (s : State) : (takeAnchor a s).phase = s.phase := rfl
@[simp] theorem takeAnchor_fault (a : Word) (s : State) : (takeAnchor a s).fault = s.fault := rfl
@[simp] theorem takeAnchor_faultOp (a : Word) (s : State) : (takeAnchor a s).faultOp = s.faultOp := rfl
@[simp] theorem takeAnchor_bpMode (a : Word) (s : State) : (takeAnchor a s).bpMode = s.bpMode := rfl
@[simp] theorem takeAnchor_bpW (a : Word) (s : State) : (takeAnchor a s).bpW = s.bpW := rfl
@[simp] theorem takeAnchor_bpNbits (a : Word) (s : State) : (takeAnchor a s).bpNbits = s.bpNbits := rfl
@[simp] theorem takeAnchor_bpRpos (a : Word) (s : State) : (takeAnchor a s).bpRpos = s.bpRpos := rfl
@[simp] theorem takeAnchor_bbB (a : Word) (s : State) : (takeAnchor a s).bbB = s.bbB := rfl
@[simp] theorem takeAnchor_bbLen (a : Word) (s : State) : (takeAnchor a s).bbLen = s.bbLen := rfl
@[simp] theorem takeAnchor_bbRpos (a : Word) (s : State) : (takeAnchor a s).bbRpos = s.bbRpos := rfl
@[simp] theorem takeAnchor_hw (a : Word) (s : State) : (takeAnchor a s).hw = s.hw := rfl
@[simp] theorem takeAnchor_anchor (a : Word) (s : State) : (takeAnchor a s).anchor = a := rfl
@[simp] theorem takeAnchor_ts (a : Word) (s : State) : (takeAnchor a s).ts = s.ts := rfl
@[simp] theorem takeAnchor_delta (a : Word) (s : State) : (takeAnchor a s).delta = s.delta := rfl
@[simp] theorem takeAnchor_ncols (a : Word) (s : State) : (takeAnchor a s).ncols = s.ncols := rfl
@[simp] theorem takeAnchor_vidx (a : Word) (s : State) : (takeAnchor a s).vidx = s.vidx := rfl
@[simp] theorem takeAnchor_first (a : Word) (s : State) : (takeAnchor a s).first = s.first := rfl
@[simp] theorem takeAnchor_storedV (a : Word) (s : State) : (takeAnchor a s).storedV = s.storedV := rfl
@[simp] theorem takeAnchor_port (a : Word) (s : State) : (takeAnchor a s).port = s.port := rfl
@[simp] theorem takeAnchor_resp (a : Word) (s : State) : (takeAnchor a s).resp = s.resp := rfl
@[simp] theorem takeAnchor_dcol (a : Word) (s : State) : (takeAnchor a s).dcol = s.dcol := rfl
@[simp] theorem takeAnchor_freeSeed (a : Word) (s : State) : (takeAnchor a s).freeSeed = s.freeSeed := rfl

/-! ## `takeFirstDelta` -/

@[simp] theorem takeFirstDelta_cfg (d : BitVec 32) (s : State) : (takeFirstDelta d s).cfg = s.cfg := rfl
@[simp] theorem takeFirstDelta_phase (d : BitVec 32) (s : State) : (takeFirstDelta d s).phase = s.phase := rfl
@[simp] theorem takeFirstDelta_fault (d : BitVec 32) (s : State) : (takeFirstDelta d s).fault = s.fault := rfl
@[simp] theorem takeFirstDelta_faultOp (d : BitVec 32) (s : State) : (takeFirstDelta d s).faultOp = s.faultOp := rfl
@[simp] theorem takeFirstDelta_bpMode (d : BitVec 32) (s : State) : (takeFirstDelta d s).bpMode = s.bpMode := rfl
@[simp] theorem takeFirstDelta_bpW (d : BitVec 32) (s : State) : (takeFirstDelta d s).bpW = s.bpW := rfl
@[simp] theorem takeFirstDelta_bpNbits (d : BitVec 32) (s : State) : (takeFirstDelta d s).bpNbits = s.bpNbits := rfl
@[simp] theorem takeFirstDelta_bpRpos (d : BitVec 32) (s : State) : (takeFirstDelta d s).bpRpos = s.bpRpos := rfl
@[simp] theorem takeFirstDelta_bbB (d : BitVec 32) (s : State) : (takeFirstDelta d s).bbB = s.bbB := rfl
@[simp] theorem takeFirstDelta_bbLen (d : BitVec 32) (s : State) : (takeFirstDelta d s).bbLen = s.bbLen := rfl
@[simp] theorem takeFirstDelta_bbRpos (d : BitVec 32) (s : State) : (takeFirstDelta d s).bbRpos = s.bbRpos := rfl
@[simp] theorem takeFirstDelta_hw (d : BitVec 32) (s : State) : (takeFirstDelta d s).hw = s.hw := rfl
@[simp] theorem takeFirstDelta_anchor (d : BitVec 32) (s : State) : (takeFirstDelta d s).anchor = s.anchor := rfl
@[simp] theorem takeFirstDelta_ts (d : BitVec 32) (s : State) : (takeFirstDelta d s).ts = s.anchor + d.setWidth 64 := rfl
@[simp] theorem takeFirstDelta_delta (d : BitVec 32) (s : State) : (takeFirstDelta d s).delta = d.setWidth 64 := rfl
@[simp] theorem takeFirstDelta_ncols (d : BitVec 32) (s : State) : (takeFirstDelta d s).ncols = s.ncols := rfl
@[simp] theorem takeFirstDelta_vidx (d : BitVec 32) (s : State) : (takeFirstDelta d s).vidx = s.vidx := rfl
@[simp] theorem takeFirstDelta_first (d : BitVec 32) (s : State) : (takeFirstDelta d s).first = s.first := rfl
@[simp] theorem takeFirstDelta_storedV (d : BitVec 32) (s : State) : (takeFirstDelta d s).storedV = s.storedV := rfl
@[simp] theorem takeFirstDelta_port (d : BitVec 32) (s : State) : (takeFirstDelta d s).port = s.port := rfl
@[simp] theorem takeFirstDelta_resp (d : BitVec 32) (s : State) : (takeFirstDelta d s).resp = s.resp := rfl
@[simp] theorem takeFirstDelta_dcol (d : BitVec 32) (s : State) : (takeFirstDelta d s).dcol = s.dcol := rfl
@[simp] theorem takeFirstDelta_freeSeed (d : BitVec 32) (s : State) : (takeFirstDelta d s).freeSeed = s.freeSeed := rfl

/-! ## `takeDod` -/

@[simp] theorem takeDod_cfg (u : Word) (s : State) : (takeDod u s).cfg = s.cfg := rfl
@[simp] theorem takeDod_phase (u : Word) (s : State) : (takeDod u s).phase = s.phase := rfl
@[simp] theorem takeDod_fault (u : Word) (s : State) : (takeDod u s).fault = s.fault := rfl
@[simp] theorem takeDod_faultOp (u : Word) (s : State) : (takeDod u s).faultOp = s.faultOp := rfl
@[simp] theorem takeDod_bpMode (u : Word) (s : State) : (takeDod u s).bpMode = s.bpMode := rfl
@[simp] theorem takeDod_bpW (u : Word) (s : State) : (takeDod u s).bpW = s.bpW := rfl
@[simp] theorem takeDod_bpNbits (u : Word) (s : State) : (takeDod u s).bpNbits = s.bpNbits := rfl
@[simp] theorem takeDod_bpRpos (u : Word) (s : State) : (takeDod u s).bpRpos = s.bpRpos := rfl
@[simp] theorem takeDod_bbB (u : Word) (s : State) : (takeDod u s).bbB = s.bbB := rfl
@[simp] theorem takeDod_bbLen (u : Word) (s : State) : (takeDod u s).bbLen = s.bbLen := rfl
@[simp] theorem takeDod_bbRpos (u : Word) (s : State) : (takeDod u s).bbRpos = s.bbRpos := rfl
@[simp] theorem takeDod_hw (u : Word) (s : State) : (takeDod u s).hw = s.hw := rfl
@[simp] theorem takeDod_anchor (u : Word) (s : State) : (takeDod u s).anchor = s.anchor := rfl
@[simp] theorem takeDod_ts (u : Word) (s : State) : (takeDod u s).ts = s.ts + (s.delta + unzigzag u) := rfl
@[simp] theorem takeDod_delta (u : Word) (s : State) : (takeDod u s).delta = s.delta + unzigzag u := rfl
@[simp] theorem takeDod_ncols (u : Word) (s : State) : (takeDod u s).ncols = s.ncols := rfl
@[simp] theorem takeDod_vidx (u : Word) (s : State) : (takeDod u s).vidx = s.vidx := rfl
@[simp] theorem takeDod_first (u : Word) (s : State) : (takeDod u s).first = s.first := rfl
@[simp] theorem takeDod_storedV (u : Word) (s : State) : (takeDod u s).storedV = s.storedV := rfl
@[simp] theorem takeDod_port (u : Word) (s : State) : (takeDod u s).port = s.port := rfl
@[simp] theorem takeDod_resp (u : Word) (s : State) : (takeDod u s).resp = s.resp := rfl
@[simp] theorem takeDod_dcol (u : Word) (s : State) : (takeDod u s).dcol = s.dcol := rfl
@[simp] theorem takeDod_freeSeed (u : Word) (s : State) : (takeDod u s).freeSeed = s.freeSeed := rfl

/-! ## `takeEnd` -/

@[simp] theorem takeEnd_cfg (s : State) : (takeEnd s).cfg = s.cfg := rfl
@[simp] theorem takeEnd_phase (s : State) : (takeEnd s).phase = .decDone := rfl
@[simp] theorem takeEnd_fault (s : State) : (takeEnd s).fault = s.fault := rfl
@[simp] theorem takeEnd_faultOp (s : State) : (takeEnd s).faultOp = s.faultOp := rfl
@[simp] theorem takeEnd_bpMode (s : State) : (takeEnd s).bpMode = s.bpMode := rfl
@[simp] theorem takeEnd_bpW (s : State) : (takeEnd s).bpW = s.bpW := rfl
@[simp] theorem takeEnd_bpNbits (s : State) : (takeEnd s).bpNbits = s.bpNbits := rfl
@[simp] theorem takeEnd_bpRpos (s : State) : (takeEnd s).bpRpos = s.bpRpos := rfl
@[simp] theorem takeEnd_bbB (s : State) : (takeEnd s).bbB = s.bbB := rfl
@[simp] theorem takeEnd_bbLen (s : State) : (takeEnd s).bbLen = s.bbLen := rfl
@[simp] theorem takeEnd_bbRpos (s : State) : (takeEnd s).bbRpos = s.bbRpos := rfl
@[simp] theorem takeEnd_hw (s : State) : (takeEnd s).hw = s.hw := rfl
@[simp] theorem takeEnd_anchor (s : State) : (takeEnd s).anchor = s.anchor := rfl
@[simp] theorem takeEnd_ts (s : State) : (takeEnd s).ts = s.ts := rfl
@[simp] theorem takeEnd_delta (s : State) : (takeEnd s).delta = s.delta := rfl
@[simp] theorem takeEnd_ncols (s : State) : (takeEnd s).ncols = s.ncols := rfl
@[simp] theorem takeEnd_vidx (s : State) : (takeEnd s).vidx = s.vidx := rfl
@[simp] theorem takeEnd_first (s : State) : (takeEnd s).first = s.first := rfl
@[simp] theorem takeEnd_storedV (s : State) : (takeEnd s).storedV = s.storedV := rfl
@[simp] theorem takeEnd_port (s : State) : (takeEnd s).port = s.port := rfl
@[simp] theorem takeEnd_resp (s : State) : (takeEnd s).resp = s.resp := rfl
@[simp] theorem takeEnd_dcol (s : State) : (takeEnd s).dcol = s.dcol := rfl
@[simp] theorem takeEnd_freeSeed (s : State) : (takeEnd s).freeSeed = s.freeSeed := rfl

/-! ## `storeValue` -/

@[simp] theorem storeValue_cfg (v : Word) (s : State) : (storeValue v s).cfg = s.cfg := rfl
@[simp] theorem storeValue_phase (v : Word) (s : State) : (storeValue v s).phase = s.phase := rfl
@[simp] theorem storeValue_fault (v : Word) (s : State) : (storeValue v s).fault = s.fault := rfl
@[simp] theorem storeValue_faultOp (v : Word) (s : State) : (storeValue v s).faultOp = s.faultOp := rfl
@[simp] theorem storeValue_bpMode (v : Word) (s : State) : (storeValue v s).bpMode = s.bpMode := rfl
@[simp] theorem storeValue_bpW (v : Word) (s : State) : (storeValue v s).bpW = s.bpW := rfl
@[simp] theorem storeValue_bpNbits (v : Word) (s : State) : (storeValue v s).bpNbits = s.bpNbits := rfl
@[simp] theorem storeValue_bpRpos (v : Word) (s : State) : (storeValue v s).bpRpos = s.bpRpos := rfl
@[simp] theorem storeValue_bbB (v : Word) (s : State) : (storeValue v s).bbB = s.bbB := rfl
@[simp] theorem storeValue_bbLen (v : Word) (s : State) : (storeValue v s).bbLen = s.bbLen := rfl
@[simp] theorem storeValue_bbRpos (v : Word) (s : State) : (storeValue v s).bbRpos = s.bbRpos := rfl
@[simp] theorem storeValue_hw (v : Word) (s : State) : (storeValue v s).hw = s.hw.set s.dcol ((window s s.dcol).push v) := rfl
@[simp] theorem storeValue_anchor (v : Word) (s : State) : (storeValue v s).anchor = s.anchor := rfl
@[simp] theorem storeValue_ts (v : Word) (s : State) : (storeValue v s).ts = s.ts := rfl
@[simp] theorem storeValue_delta (v : Word) (s : State) : (storeValue v s).delta = s.delta := rfl
@[simp] theorem storeValue_ncols (v : Word) (s : State) : (storeValue v s).ncols = s.ncols := rfl
@[simp] theorem storeValue_vidx (v : Word) (s : State) : (storeValue v s).vidx = s.vidx := rfl
@[simp] theorem storeValue_first (v : Word) (s : State) : (storeValue v s).first = s.first := rfl
@[simp] theorem storeValue_storedV (v : Word) (s : State) : (storeValue v s).storedV = s.storedV.set s.dcol v := rfl
@[simp] theorem storeValue_port (v : Word) (s : State) : (storeValue v s).port = s.port := rfl
@[simp] theorem storeValue_resp (v : Word) (s : State) : (storeValue v s).resp = s.resp := rfl
@[simp] theorem storeValue_dcol (v : Word) (s : State) : (storeValue v s).dcol = s.dcol + 1 := rfl
@[simp] theorem storeValue_freeSeed (v : Word) (s : State) : (storeValue v s).freeSeed = s.freeSeed := rfl

/-! ## `presentCommand` -/

@[simp] theorem presentCommand_cfg (c : Command) (s : State) : (presentCommand c s).cfg = s.cfg := rfl
@[simp] theorem presentCommand_phase (c : Command) (s : State) : (presentCommand c s).phase = s.phase := rfl
@[simp] theorem presentCommand_fault (c : Command) (s : State) : (presentCommand c s).fault = s.fault := rfl
@[simp] theorem presentCommand_faultOp (c : Command) (s : State) : (presentCommand c s).faultOp = s.faultOp := rfl
@[simp] theorem presentCommand_bpMode (c : Command) (s : State) : (presentCommand c s).bpMode = s.bpMode := rfl
@[simp] theorem presentCommand_bpW (c : Command) (s : State) : (presentCommand c s).bpW = s.bpW := rfl
@[simp] theorem presentCommand_bpNbits (c : Command) (s : State) : (presentCommand c s).bpNbits = s.bpNbits := rfl
@[simp] theorem presentCommand_bpRpos (c : Command) (s : State) : (presentCommand c s).bpRpos = s.bpRpos := rfl
@[simp] theorem presentCommand_bbB (c : Command) (s : State) : (presentCommand c s).bbB = s.bbB := rfl
@[simp] theorem presentCommand_bbLen (c : Command) (s : State) : (presentCommand c s).bbLen = s.bbLen := rfl
@[simp] theorem presentCommand_bbRpos (c : Command) (s : State) : (presentCommand c s).bbRpos = s.bbRpos := rfl
@[simp] theorem presentCommand_hw (c : Command) (s : State) : (presentCommand c s).hw = s.hw := rfl
@[simp] theorem presentCommand_anchor (c : Command) (s : State) : (presentCommand c s).anchor = s.anchor := rfl
@[simp] theorem presentCommand_ts (c : Command) (s : State) : (presentCommand c s).ts = s.ts := rfl
@[simp] theorem presentCommand_delta (c : Command) (s : State) : (presentCommand c s).delta = s.delta := rfl
@[simp] theorem presentCommand_ncols (c : Command) (s : State) : (presentCommand c s).ncols = s.ncols := rfl
@[simp] theorem presentCommand_vidx (c : Command) (s : State) : (presentCommand c s).vidx = s.vidx := rfl
@[simp] theorem presentCommand_first (c : Command) (s : State) : (presentCommand c s).first = s.first := rfl
@[simp] theorem presentCommand_storedV (c : Command) (s : State) : (presentCommand c s).storedV = s.storedV := rfl
@[simp] theorem presentCommand_port (c : Command) (s : State) : (presentCommand c s).port = c :: s.port := rfl
@[simp] theorem presentCommand_resp (c : Command) (s : State) : (presentCommand c s).resp = s.resp := rfl
@[simp] theorem presentCommand_dcol (c : Command) (s : State) : (presentCommand c s).dcol = s.dcol := rfl
@[simp] theorem presentCommand_freeSeed (c : Command) (s : State) : (presentCommand c s).freeSeed = s.freeSeed := rfl

/-! ## The states after reset -/

@[simp] theorem reset_eq : State.reset = State.powerOn Config.standard := rfl
@[simp] theorem powerOn_cfg (cfg : Config) : (State.powerOn cfg).cfg = cfg := rfl
@[simp] theorem powerOn_fault (cfg : Config) : (State.powerOn cfg).fault = 0 := rfl
@[simp] theorem powerOn_port (cfg : Config) : (State.powerOn cfg).port = [] := rfl
@[simp] theorem powerOn_bpW (cfg : Config) : (State.powerOn cfg).bpW = [] := rfl
@[simp] theorem powerOn_bbB (cfg : Config) : (State.powerOn cfg).bbB = [] := rfl

end Sys2Proof.Machine
end

