-- ==== Sys2Proof/Laws/Store.lean ====
section
/-! SUPPORT. Reading after writing, and the canonical form, of the stores and of the stream bits. -/

namespace Sys2Proof.Machine

variable {w : Nat}

theorem Store.get_nil (i : Nat) : Store.get ([] : Store w) i = 0 := rfl

theorem Store.wfFrom_mono {m : Store w} {lo lo' : Nat} (hle : lo' ≤ lo) (h : Store.wfFrom lo m = true) :
    Store.wfFrom lo' m = true := by
  cases m with
  | nil => rfl
  | cons p m =>
    simp only [Store.wfFrom, Bool.and_eq_true, decide_eq_true_eq] at h ⊢
    exact ⟨⟨hle.trans h.1.1, h.1.2⟩, h.2⟩

/-- An index below a canonical store's first one is unlisted. -/
theorem Store.get_below {m : Store w} {lo i : Nat} (h : Store.wfFrom lo m = true) (hi : i < lo) : Store.get m i = 0 := by
  induction m generalizing lo with
  | nil => rfl
  | cons p m ih =>
    simp only [Store.wfFrom, Bool.and_eq_true, decide_eq_true_eq] at h
    rw [Store.get, if_neg (by omega)]
    exact ih h.2 (by omega)

theorem Store.wfFrom_set {m : Store w} {lo : Nat} (h : Store.wfFrom lo m = true) (i : Nat) (hi : lo ≤ i) (v : BitVec w) :
    Store.wfFrom lo (Store.set m i v) = true := by
  induction m generalizing lo with
  | nil =>
    unfold Store.set
    split
    · rfl
    · simp [Store.wfFrom, *]
  | cons p m ih =>
    obtain ⟨j, u⟩ := p
    simp only [Store.wfFrom, Bool.and_eq_true, decide_eq_true_eq] at h
    unfold Store.set
    split
    · split
      · simp [Store.wfFrom, h]
      · simp only [Store.wfFrom, Bool.and_eq_true, decide_eq_true_eq]
        exact ⟨⟨hi, by assumption⟩, ⟨by omega, h.1.2⟩, h.2⟩
    · split
      · subst_vars
        split
        · exact Store.wfFrom_mono (by omega) h.2
        · simp only [Store.wfFrom, Bool.and_eq_true, decide_eq_true_eq]
          exact ⟨⟨hi, by assumption⟩, h.2⟩
      · simp only [Store.wfFrom, Bool.and_eq_true, decide_eq_true_eq]
        exact ⟨h.1, ih h.2 (by omega)⟩

/-- A write keeps the canonical form. -/
theorem Store.wf_set {m : Store w} (h : Store.wf m = true) (i : Nat) (v : BitVec w) : Store.wf (Store.set m i v) = true :=
  Store.wfFrom_set h i (Nat.zero_le i) v

theorem Store.get_set_from {m : Store w} {lo : Nat} (h : Store.wfFrom lo m = true) (i k : Nat) (v : BitVec w) :
    Store.get (Store.set m i v) k = if k = i then v else Store.get m k := by
  induction m generalizing lo with
  | nil =>
    unfold Store.set
    split
    · subst_vars; simp [Store.get]
    · simp only [Store.get, eq_comm]
  | cons p m ih =>
    obtain ⟨j, u⟩ := p
    simp only [Store.wfFrom, Bool.and_eq_true, decide_eq_true_eq] at h
    unfold Store.set
    split
    · split
      · subst_vars
        by_cases hk : k = i
        · subst hk
          rw [if_pos rfl, Store.get, if_neg (by omega), Store.get_below h.2 (by omega)]
          rfl
        · rw [if_neg hk]
      · by_cases hk : k = i
        · simp [Store.get, hk]
        · simp only [if_neg hk]
          rw [Store.get, if_neg (by omega)]
    · split
      · rename_i _ hij
        subst hij
        by_cases hk : k = i
        · subst hk
          split
          · rename_i hv
            rw [if_pos rfl, Store.get_below h.2 (by omega), hv]
            rfl
          · simp [Store.get]
        · rw [if_neg hk]
          split <;> simp [Store.get, Ne.symm hk]
      · rw [Store.get, ih h.2, Store.get]
        by_cases hk : k = i
        · rw [if_pos hk, if_pos hk, if_neg (by omega)]
        · rw [if_neg hk, if_neg hk]

/-- Reading after writing: the value written at its own index, the old one elsewhere. -/
theorem Store.get_set {m : Store w} (h : Store.wf m = true) (i k : Nat) (v : BitVec w) :
    Store.get (Store.set m i v) k = if k = i then v else Store.get m k := Store.get_set_from h i k v

/-- Two canonical stores that read alike are the same data. -/
theorem Store.ext_from {m m' : Store w} {lo : Nat} (h : Store.wfFrom lo m = true) (h' : Store.wfFrom lo m' = true)
    (hg : ∀ i, Store.get m i = Store.get m' i) : m = m' := by
  induction m generalizing m' lo with
  | nil =>
    cases m' with
    | nil => rfl
    | cons p m' =>
      simp only [Store.wfFrom, Bool.and_eq_true, decide_eq_true_eq] at h'
      have := hg p.1
      rw [Store.get_nil, Store.get, if_pos rfl] at this
      exact absurd this.symm h'.1.2
  | cons p m ih =>
    obtain ⟨j, u⟩ := p
    simp only [Store.wfFrom, Bool.and_eq_true, decide_eq_true_eq] at h
    cases m' with
    | nil =>
      have := hg j
      rw [Store.get_nil, Store.get, if_pos rfl] at this
      exact absurd this h.1.2
    | cons q m' =>
      obtain ⟨j', u'⟩ := q
      simp only [Store.wfFrom, Bool.and_eq_true, decide_eq_true_eq] at h'
      have hj : j = j' := by
        rcases Nat.lt_trichotomy j j' with hlt | heq | hgt
        · have := hg j
          rw [Store.get, if_pos rfl, Store.get, if_neg (by omega), Store.get_below h'.2 (by omega)] at this
          exact absurd this h.1.2
        · exact heq
        · have := hg j'
          rw [Store.get, if_neg (by omega), Store.get_below h.2 (by omega), Store.get, if_pos rfl] at this
          exact absurd this.symm h'.1.2
      subst hj
      have hu : u = u' := by simpa [Store.get] using hg j
      subst hu
      congr 1
      refine ih h.2 h'.2 fun i => ?_
      by_cases hi : i < j + 1
      · rw [Store.get_below h.2 hi, Store.get_below h'.2 hi]
      · have := hg i
        rwa [Store.get, if_neg (by omega), Store.get, if_neg (by omega)] at this

/-- Two canonical stores that read alike are the same data. -/
theorem Store.ext_get {m m' : Store w} (h : Store.wf m = true) (h' : Store.wf m' = true)
    (hg : ∀ i, Store.get m i = Store.get m' i) : m = m' := Store.ext_from h h' hg

theorem Store.wfFrom_ofFn (f : Nat → BitVec w) (lo n : Nat) : Store.wfFrom lo (Store.ofFn f lo n) = true := by
  induction n generalizing lo with
  | zero => rfl
  | succ n ih =>
    unfold Store.ofFn
    split
    · exact Store.wfFrom_mono (Nat.le_succ lo) (ih (lo + 1))
    · simp [Store.wfFrom, *]

/-- A store built from a function is canonical. -/
theorem Store.wf_ofFn (f : Nat → BitVec w) (n : Nat) : Store.wf (Store.ofFn f 0 n) = true := Store.wfFrom_ofFn f 0 n

theorem Store.get_ofFn_above (f : Nat → BitVec w) (lo n i : Nat) (hi : lo + n ≤ i) :
    Store.get (Store.ofFn f lo n) i = 0 := by
  induction n generalizing lo with
  | zero => rfl
  | succ n ih =>
    unfold Store.ofFn
    split
    · exact ih (lo + 1) (by omega)
    · rw [Store.get, if_neg (by omega)]
      exact ih (lo + 1) (by omega)

/-! ## Bytes -/

theorem writeByte_wf {m : Memory} (h : Memory.wf m = true) (j : Nat) (b : Byte) : Memory.wf (writeByte m j b) = true :=
  Store.wf_set (w := 8) h j b

theorem readByte_writeByte {m : Memory} (h : Memory.wf m = true) (j k : Nat) (b : Byte) :
    readByte (writeByte m j b) k = if k = j then b else readByte m k := Store.get_set (w := 8) h j k b

theorem putBytes_wf {m : Memory} (h : Memory.wf m = true) (n : Nat) (l : List Byte) : Memory.wf (putBytes m n l) = true := by
  induction l generalizing m n with
  | nil => exact h
  | cons b l ih => exact ih (writeByte_wf h n b) (n + 1)

/-! ## Stream bits -/

theorem getLsbD_withBit (x : Word) (i k : Nat) (b : Bool) (hi : i < 64) :
    (withBit x i b).getLsbD k = if k = i then b else x.getLsbD k := by
  unfold withBit
  by_cases hk : k = i
  · subst hk
    cases b <;> simp [hi]
  · cases b <;> simp [BitVec.getLsbD_twoPow, hk, Ne.symm hk]
    intro h
    by_contra hc
    have := BitVec.getLsbD_of_ge x k (by omega)
    simp [this] at h

/-- An empty store's stream bits are 0 (R42). -/
@[simp] theorem streamBit_nil (k : Nat) : streamBit [] k = false := by
  simp [streamBit, readWord, Store.get, Store.unlisted]

/-- An empty store's bytes are 0 (R42). -/
@[simp] theorem readByte_nil (j : Nat) : readByte [] j = 0 := rfl

theorem setStreamBit_wf {m : Store 64} (h : Store.wf m = true) (k : Nat) (b : Bool) :
    Store.wf (setStreamBit m k b) = true := Store.wf_set h _ _

/-- A stream bit after another is set: the new one at its own index, the old one elsewhere (R51). -/
theorem streamBit_setStreamBit {m : Store 64} (h : Store.wf m = true) (k i : Nat) (b : Bool) :
    streamBit (setStreamBit m k b) i = if i = k then b else streamBit m i := by
  unfold streamBit setStreamBit readWord
  rw [Store.get_set h]
  by_cases hd : i / 64 = k / 64
  · rw [if_pos hd, getLsbD_withBit _ _ _ _ (by omega), hd]
    by_cases hk : i = k
    · subst hk; simp
    · rw [if_neg hk, if_neg (by omega)]
  · rw [if_neg hd, if_neg (by rintro rfl; exact hd rfl)]

/-- Bit `j` of a word is stream bit `64 k + 63 - j` (R51). -/
theorem getLsbD_readWord (m : Store 64) (k j : Nat) (hj : j < 64) :
    (readWord m k).getLsbD j = streamBit m (64 * k + (63 - j)) := by
  unfold streamBit
  rw [show (64 * k + (63 - j)) / 64 = k by omega, show 63 - (64 * k + (63 - j)) % 64 = j by omega]

theorem putField_wf {m : Store 64} (h : Store.wf m = true) (n : Nat) (v : Word) (w : Nat) :
    Store.wf (putField m n v w) = true := by
  induction w generalizing m n with
  | zero => exact h
  | succ w ih => exact ih (setStreamBit_wf h n _) (n + 1)

/-- A field occupies its `w` bits, most significant first, and no other bit changes (R52). -/
theorem streamBit_putField {m : Store 64} (h : Store.wf m = true) (n : Nat) (v : Word) (w i : Nat) :
    streamBit (putField m n v w) i =
      if n ≤ i ∧ i < n + w then v.getLsbD (w - 1 - (i - n)) else streamBit m i := by
  induction w generalizing m n with
  | zero => rw [putField, if_neg (by omega)]
  | succ w ih =>
    rw [putField, ih (setStreamBit_wf h n _), streamBit_setStreamBit h]
    by_cases h1 : n + 1 ≤ i ∧ i < n + 1 + w
    · rw [if_pos h1, if_pos (by omega)]
      congr 1; omega
    · rw [if_neg h1]
      by_cases h2 : i = n
      · subst h2; simp
      · rw [if_neg h2, if_neg (by omega)]

theorem putBits_wf {m : Store 64} (h : Store.wf m = true) (n : Nat) (l : List Bool) : Store.wf (putBits m n l) = true := by
  induction l generalizing m n with
  | nil => exact h
  | cons b l ih => exact ih (setStreamBit_wf h n b) (n + 1)

end Sys2Proof.Machine
end

