-- ==== Sys2Proof/Laws/Ops.lean ====
section
/-! SUPPORT. For each shared operation, one lemma that says once everything it can do: when it answers a value and which, or when
it raises which fault. Proofs about the commands cite these and unfold no operation. -/

namespace Sys2Proof.Machine

/-! ## Computations that may raise a fault -/

/-- A composed computation answers a value exactly when both parts do. -/
theorem bind_eq_ok {α β : Type} (x : Comp α) (f : α → Comp β) (b : β) :
    (x >>= f) = .ok b ↔ ∃ a, x = .ok a ∧ f a = .ok b := by
  cases x with
  | error e => exact ⟨fun h => absurd h (by rintro ⟨⟩), fun h => by obtain ⟨_, h, _⟩ := h; cases h⟩
  | ok a => exact ⟨fun h => ⟨a, rfl, h⟩, fun ⟨_, h, h'⟩ => by cases h; exact h'⟩

/-- A composed computation raises the fault of its first part, or else of its second. -/
theorem bind_eq_error {α β : Type} (x : Comp α) (f : α → Comp β) (c : FaultCode) :
    (x >>= f) = .error c ↔ x = .error c ∨ ∃ a, x = .ok a ∧ f a = .error c := by
  cases x with
  | error e =>
    refine ⟨fun h => .inl ?_, fun h => ?_⟩
    · cases h; rfl
    · rcases h with h | ⟨_, h, _⟩
      · cases h; rfl
      · cases h
  | ok a =>
    refine ⟨fun h => .inr ⟨a, rfl, h⟩, fun h => ?_⟩
    rcases h with h | ⟨_, h, h'⟩
    · cases h
    · cases h; exact h'

@[simp] theorem bind_ok {α β : Type} (a : α) (f : α → Comp β) : ((.ok a : Comp α) >>= f) = f a := rfl

@[simp] theorem bind_error {α β : Type} (c : FaultCode) (f : α → Comp β) : ((.error c : Comp α) >>= f) = .error c := rfl

@[simp] theorem pure_eq_ok {α : Type} (a : α) : (pure a : Comp α) = .ok a := rfl

@[simp] theorem raise_eq_error {α : Type} (c : FaultCode) : (raise c : Comp α) = .error c := rfl

/-- A check passes and what follows it answers. -/
theorem check_eq_ok {α : Type} (p : Prop) [Decidable p] (c : FaultCode) (x : Comp α) (a : α) :
    (if p then raise c else x) = .ok a ↔ ¬ p ∧ x = .ok a := by
  by_cases h : p <;> simp [h]

/-- A check fails, or passes and what follows it fails. -/
theorem check_eq_error {α : Type} (p : Prop) [Decidable p] (c d : FaultCode) (x : Comp α) :
    (if p then raise c else x) = .error d ↔ (p ∧ d = c) ∨ (¬ p ∧ x = .error d) := by
  by_cases h : p <;> simp [h, eq_comm]

theorem ok_eq_ok {α : Type} (a b : α) : (.ok a : Comp α) = .ok b ↔ b = a := by simp [eq_comm]

theorem ok_eq_error {α : Type} (a : α) (c : FaultCode) : (.ok a : Comp α) = .error c ↔ False := by simp

theorem mode_ne_write (m : BpMode) : ¬ m ≠ .write ↔ m = .write := by simp

theorem mode_ne_read (m : BpMode) : ¬ m ≠ .read ↔ m = .read := by simp

/-! ## The frames of the commands and of the stream codes (R225 to R227) -/

/-- A command always answers a next state: a refusal, a response or a fault. -/
theorem runCommand_cases (i : Instr) (s : State) (body : State → Comp (State × Word × Word)) :
    (s.fault ≠ 0 ∧ runCommand i s body = .next (refuse s)) ∨
    (s.fault = 0 ∧ ∃ t r0 r1, body s = .ok (t, r0, r1) ∧ runCommand i s body = .next (respond r0 r1 t)) ∨
    (s.fault = 0 ∧ ∃ c, body s = .error c ∧ runCommand i s body = .next (takeFault c (opcodeOf i) s)) := by
  unfold runCommand
  by_cases h : s.fault = 0
  · rw [if_neg (by simpa using h)]
    cases hb : body s with
    | ok p => obtain ⟨t, r0, r1⟩ := p; exact .inr (.inl ⟨h, t, r0, r1, rfl, rfl⟩)
    | error c => exact .inr (.inr ⟨h, c, rfl, rfl⟩)
  · exact .inl ⟨h, if_pos h⟩

theorem runCommand_refused (i : Instr) {s : State} (body : State → Comp (State × Word × Word)) (h : s.fault ≠ 0) :
    runCommand i s body = .next (refuse s) := if_pos h

/-- A command of a core that is not faulted runs its body. -/
theorem runCommand_live (i : Instr) {s : State} (body : State → Comp (State × Word × Word)) (h : s.fault = 0) :
    runCommand i s body =
      match body s with
      | .ok (t, r0, r1) => .next (respond r0 r1 t)
      | .error c => .next (takeFault c (opcodeOf i) s) := if_neg (by simpa using h)

theorem runCommand_ok (i : Instr) {s t : State} {body : State → Comp (State × Word × Word)} {r0 r1 : Word}
    (h : s.fault = 0) (hb : body s = .ok (t, r0, r1)) : runCommand i s body = .next (respond r0 r1 t) := by
  unfold runCommand; rw [if_neg (by simpa using h), hb]

theorem runCommand_error (i : Instr) {s : State} {body : State → Comp (State × Word × Word)} {c : FaultCode}
    (h : s.fault = 0) (hb : body s = .error c) : runCommand i s body = .next (takeFault c (opcodeOf i) s) := by
  unfold runCommand; rw [if_neg (by simpa using h), hb]

/-- A stream code always answers a next state: a refusal, its effect, or a fault. -/
theorem runCode_cases (i : Instr) (phases : List Phase) (s : State) (body : State → Comp State) :
    (s.fault ≠ 0 ∧ runCode i phases s body = .next (refuse s)) ∨
    (s.fault = 0 ∧ s.phase ∉ phases ∧ runCode i phases s body = .next (takeFault .sequence (opcodeOf i) s)) ∨
    (s.fault = 0 ∧ s.phase ∈ phases ∧ ∃ t, body s = .ok t ∧ runCode i phases s body = .next t) ∨
    (s.fault = 0 ∧ s.phase ∈ phases ∧ ∃ c, body s = .error c ∧ runCode i phases s body = .next (takeFault c (opcodeOf i) s)) := by
  unfold runCode
  by_cases h : s.fault = 0
  · rw [if_neg (by simpa using h)]
    by_cases hp : s.phase ∈ phases
    · rw [if_neg (by simpa using hp)]
      cases hb : body s with
      | ok t => exact .inr (.inr (.inl ⟨h, hp, t, rfl, rfl⟩))
      | error c => exact .inr (.inr (.inr ⟨h, hp, c, rfl, rfl⟩))
    · exact .inr (.inl ⟨h, hp, if_pos hp⟩)
  · exact .inl ⟨h, if_pos h⟩

/-- A stream code in a phase it is read in runs its body. -/
theorem runCode_live (i : Instr) {phases : List Phase} {s : State} (body : State → Comp State) (h : s.fault = 0)
    (hp : s.phase ∈ phases) :
    runCode i phases s body =
      match body s with
      | .ok t => .next t
      | .error c => .next (takeFault c (opcodeOf i) s) := by
  unfold runCode; exact (if_neg (by simpa using h)).trans (if_neg (by simpa using hp))

theorem runCode_ok (i : Instr) {phases : List Phase} {s t : State} {body : State → Comp State} (h : s.fault = 0)
    (hp : s.phase ∈ phases) (hb : body s = .ok t) : runCode i phases s body = .next t := by
  unfold runCode; rw [if_neg (by simpa using h), if_neg (by simpa using hp), hb]

theorem runCode_error (i : Instr) {phases : List Phase} {s : State} {body : State → Comp State} {c : FaultCode}
    (h : s.fault = 0) (hp : s.phase ∈ phases) (hb : body s = .error c) :
    runCode i phases s body = .next (takeFault c (opcodeOf i) s) := by
  unfold runCode; rw [if_neg (by simpa using h), if_neg (by simpa using hp), hb]

/-- Every fault code is one of `0x01` to `0x0F` (R221). -/
theorem faultByte_range (c : FaultCode) : 1 ≤ (faultByte c).toNat ∧ (faultByte c).toNat ≤ 0x0F := by
  cases c <;> decide

theorem faultByte_ne_zero (c : FaultCode) : faultByte c ≠ 0 := by cases c <;> decide

/-- After a fault the stores keep their canonical form and their sizes. -/
theorem takeFault_stores (c : FaultCode) (op : Byte) (s : State) :
    Store.wf (takeFault c op s).bpW = true ∧ Memory.wf (takeFault c op s).bbB = true ∧
    (∀ i, s.cfg.bpMaxWords ≤ i → readWord (takeFault c op s).bpW i = 0) ∧
    (∀ j, s.cfg.bbMaxBytes ≤ j → readByte (takeFault c op s).bbB j = 0) ∧
    (takeFault c op s).hw.length = s.cfg.ncolMax ∧ (∀ x ∈ (takeFault c op s).hw, x.e.length = winCap) ∧
    (takeFault c op s).storedV.length = s.cfg.ncolMax := by
  refine ⟨Store.wf_ofFn _ _, Store.wf_ofFn (w := 8) _ _, fun i hi => Store.get_ofFn_above _ 0 _ i (by omega),
    fun j hj => Store.get_ofFn_above (w := 8) _ 0 _ j (by omega), ?_, fun x hx => ?_, ?_⟩
  · simp [takeFault, unspecify]
  · simp only [takeFault, unspecify, List.mem_map] at hx
    obtain ⟨_, _, rfl⟩ := hx
    simp
  · simp [takeFault, unspecify]

/-! ## Operand checks (R71, R101, R130, R151, R180) -/

theorem badWidth_eq_false (w : Nat) : badWidth w = false ↔ 1 ≤ w ∧ w ≤ 64 := by
  unfold badWidth; rw [Bool.or_eq_false_iff, decide_eq_false_iff_not, decide_eq_false_iff_not]; omega

theorem badWidth_eq_true (w : Nat) : badWidth w = true ↔ ¬ (1 ≤ w ∧ w ≤ 64) := by rw [← badWidth_eq_false]; simp

theorem outOfRange_eq_false (v : Word) (w : Nat) : outOfRange v w = false ↔ (w < 64 → v >>> w = 0) := by
  unfold outOfRange
  by_cases h : w < 64 <;> simp [h]

/-- The range check of R101 as a bound on the value. -/
theorem outOfRange_iff_lt (v : Word) (w : Nat) : outOfRange v w = false ↔ v.toNat < 2 ^ w ∨ 64 ≤ w := by
  rw [outOfRange_eq_false]
  by_cases h : w < 64
  · have h0 : (v >>> w = 0) ↔ v.toNat < 2 ^ w := by
      rw [← BitVec.toNat_inj, BitVec.toNat_ushiftRight, Nat.shiftRight_eq_div_pow]
      simp [Nat.div_eq_zero_iff]
    exact ⟨fun hv => .inl (h0.1 (hv h)), fun hv _ => h0.2 (by omega)⟩
  · exact ⟨fun _ => .inr (by omega), fun _ h' => absurd h' h⟩

theorem columnCheck_ok {s : State} {col : Byte} (h : col.toNat < s.cfg.ncolMax) : columnCheck s col = .ok col.toNat :=
  if_neg (by unfold immNat; omega)

theorem columnCheck_error {s : State} {col : Byte} (h : s.cfg.ncolMax ≤ col.toNat) : columnCheck s col = .error .column :=
  if_pos h

theorem countCheck_ok {s : State} {n : Byte} (h : n.toNat ≤ s.cfg.ncolMax) : countCheck s n = .ok () :=
  if_neg (by unfold immNat; omega)

theorem countCheck_error {s : State} {n : Byte} (h : s.cfg.ncolMax < n.toNat) : countCheck s n = .error .column := if_pos h

/-! ## BitPacker (R101 to R107) -/

/-- What `BPAppend` can do (R101). -/
theorem bpAppend_eq_ok (v : Word) (w : Nat) (s t : State) :
    bpAppend v w s = .ok t ↔
      s.bpMode = .write ∧ (1 ≤ w ∧ w ≤ 64) ∧ (w < 64 → v >>> w = 0) ∧ s.bpNbits + w ≤ 64 * s.cfg.bpMaxWords ∧
      t = { s with bpW := putField s.bpW s.bpNbits v w, bpNbits := s.bpNbits + w } := by
  rw [← badWidth_eq_false, ← outOfRange_eq_false]
  unfold bpAppend
  rw [check_eq_ok, check_eq_ok, check_eq_ok, check_eq_ok, ok_eq_ok, mode_ne_write, Bool.not_eq_true, Bool.not_eq_true,
    Nat.not_lt]

/-- When `BPAppend` raises which fault (R101). -/
theorem bpAppend_eq_error (v : Word) (w : Nat) (s : State) (c : FaultCode) :
    bpAppend v w s = .error c ↔
      (s.bpMode ≠ .write ∧ c = .bpMode) ∨ (s.bpMode = .write ∧ badWidth w = true ∧ c = .bpWidth) ∨
      (s.bpMode = .write ∧ badWidth w = false ∧ outOfRange v w = true ∧ c = .bpRange) ∨
      (s.bpMode = .write ∧ badWidth w = false ∧ outOfRange v w = false ∧ 64 * s.cfg.bpMaxWords < s.bpNbits + w ∧
        c = .bpOverflow) := by
  unfold bpAppend
  rw [check_eq_error, check_eq_error, check_eq_error, check_eq_error, ok_eq_error, mode_ne_write, Bool.not_eq_true,
    Bool.not_eq_true]
  tauto

/-- What `BPClose` can do (R103): its four appends fit once the 133 bits do. -/
theorem bpClose_ok {s : State} (hm : s.bpMode = .write) (h : s.bpNbits + 133 ≤ 64 * s.cfg.bpMaxWords) :
    bpClose s = .ok (enterRead { s with
      bpW := putField (putField (putField (putField s.bpW s.bpNbits 0b1111 4) (s.bpNbits + 4) 0xFFFFFFFFFFFFFFFF 64)
        (s.bpNbits + 68) 0xFFFFFFFFFFFFFFFF 64) (s.bpNbits + 132) 0 1
      bpNbits := s.bpNbits + 133 }) := by
  unfold bpClose
  rw [if_neg (by simpa using hm), if_neg (by omega)]
  refine (bind_eq_ok _ _ _).2 ⟨_, (bpAppend_eq_ok _ _ _ _).2 ⟨hm, by decide, fun _ => by decide, by omega, rfl⟩, ?_⟩
  refine (bind_eq_ok _ _ _).2 ⟨_, (bpAppend_eq_ok _ _ _ _).2
    ⟨hm, by decide, fun h => absurd h (by decide), by dsimp only; omega, rfl⟩, ?_⟩
  refine (bind_eq_ok _ _ _).2 ⟨_, (bpAppend_eq_ok _ _ _ _).2
    ⟨hm, by decide, fun h => absurd h (by decide), by dsimp only; omega, rfl⟩, ?_⟩
  refine (bind_eq_ok _ _ _).2 ⟨_, (bpAppend_eq_ok _ _ _ _).2
    ⟨hm, by decide, fun _ => by decide, by dsimp only; omega, rfl⟩, ?_⟩
  simp only [pure_eq_ok, Nat.add_assoc, Nat.reduceAdd]

theorem bpClose_error_mode {s : State} (hm : s.bpMode = .read) : bpClose s = .error .bpMode := by
  unfold bpClose; rw [if_pos (by simp [hm])]; rfl

theorem bpClose_error_overflow {s : State} (hm : s.bpMode = .write) (h : 64 * s.cfg.bpMaxWords < s.bpNbits + 133) :
    bpClose s = .error .bpOverflow := by
  unfold bpClose; rw [if_neg (by simpa using hm), if_pos h]; rfl

/-- What `BPRead` can do (R105). -/
theorem bpRead_eq_ok (w : Nat) (s t : State) (r : Word) :
    bpRead w s = .ok (r, t) ↔
      s.bpMode = .read ∧ (1 ≤ w ∧ w ≤ 64) ∧ w ≤ s.bpNbits - s.bpRpos ∧ r = getField s.bpW s.bpRpos 0 w ∧
      t = { s with bpRpos := s.bpRpos + w } := by
  rw [← badWidth_eq_false]
  unfold bpRead
  rw [check_eq_ok, check_eq_ok, check_eq_ok, ok_eq_ok, mode_ne_read, Bool.not_eq_true, Nat.not_lt, Prod.mk.injEq]

/-- When `BPRead` raises which fault (R105). -/
theorem bpRead_eq_error (w : Nat) (s : State) (c : FaultCode) :
    bpRead w s = .error c ↔
      (s.bpMode ≠ .read ∧ c = .bpMode) ∨ (s.bpMode = .read ∧ badWidth w = true ∧ c = .bpWidth) ∨
      (s.bpMode = .read ∧ badWidth w = false ∧ s.bpNbits - s.bpRpos < w ∧ c = .bpUnderflow) := by
  unfold bpRead
  rw [check_eq_error, check_eq_error, check_eq_error, ok_eq_error, mode_ne_read, Bool.not_eq_true]
  tauto

/-- The bits a read returns, shifted in one by one, are the value of the stream's bits (R54, R105). -/
theorem getField_eq_foldl (m : Store 64) (p w : Nat) (r : Word) :
    getField m p r w = (streamBits m p w).foldl pushBit r := by
  induction w generalizing p r with
  | zero => rfl
  | succ w ih =>
    rw [getField, ih, streamBits, streamBits, List.range_succ_eq_map]
    simp only [List.map_cons, List.map_map, List.foldl_cons, Nat.add_zero]
    congr 1
    apply List.map_congr_left
    intro j _
    simp only [Function.comp_apply]
    congr 1; omega

theorem getField_zero (m : Store 64) (p w : Nat) : getField m p 0 w = wordOfBits (streamBits m p w) :=
  getField_eq_foldl m p w 0

@[simp] theorem length_streamBits (m : Store 64) (p n : Nat) : (streamBits m p n).length = n := by simp [streamBits]

theorem streamBits_add (m : Store 64) (p a b : Nat) :
    streamBits m p (a + b) = streamBits m p a ++ streamBits m (p + a) b := by
  unfold streamBits
  rw [List.range_add, List.map_append, List.map_map]
  congr 1
  apply List.map_congr_left
  intro j _
  simp only [Function.comp_apply]
  congr 1; omega

/-- A field read with the width it stands with gives its value (R54). -/
theorem getField_of_bits {m : Store 64} {p w : Nat} {v : Word} (hv : v.toNat < 2 ^ w)
    (h : streamBits m p w = fieldBits v w) : getField m p 0 w = v := by
  rw [getField_zero, h, wordOfBits_fieldBits v w hv]

/-- What `BPReadRun` can do (R107). -/
theorem bpReadRun_eq_ok (m : Nat) (s t : State) (r : Word) :
    bpReadRun m s = .ok (r, t) ↔ s.bpMode = .read ∧ (1 ≤ m ∧ m ≤ 64) ∧ readRunLoop m 0 s = .ok (r, t) := by
  rw [← badWidth_eq_false]
  unfold bpReadRun
  rw [check_eq_ok, check_eq_ok, mode_ne_read, Bool.not_eq_true]

/-- The run loop changes no field but `BP_RPOS`, which stays within `BP_NBITS` (R107). -/
theorem readRunLoop_frame {n : Nat} {r q : Word} {s t : State} (h : readRunLoop n r s = .ok (q, t)) :
    t = { s with bpRpos := t.bpRpos } ∧ s.bpRpos ≤ t.bpRpos ∧ (t.bpRpos = s.bpRpos ∨ t.bpRpos ≤ s.bpNbits) := by
  induction n generalizing r s with
  | zero => unfold readRunLoop at h; cases h; exact ⟨rfl, Nat.le_refl _, .inl rfl⟩
  | succ n ih =>
    unfold readRunLoop at h
    split at h
    · cases h
    · next hlt =>
      dsimp only at h
      split at h
      · obtain ⟨h1, h2, h3⟩ := ih h
        dsimp only at h1 h2 h3
        exact ⟨h1, by omega, by omega⟩
      · cases h
        exact ⟨rfl, by dsimp only; omega, by dsimp only; omega⟩

/-! ## ByteBuffer (R121 to R124) -/

/-- What `BBPut` can do (R121). -/
theorem bbPut_eq_ok (b : Byte) (s t : State) :
    bbPut b s = .ok t ↔
      s.bbLen < s.cfg.bbMaxBytes ∧ t = { s with bbB := writeByte s.bbB s.bbLen b, bbLen := s.bbLen + 1 } := by
  unfold bbPut
  rw [check_eq_ok, ok_eq_ok, Nat.not_le]

theorem bbPut_eq_error (b : Byte) (s : State) (c : FaultCode) :
    bbPut b s = .error c ↔ s.cfg.bbMaxBytes ≤ s.bbLen ∧ c = .bbOverflow := by
  unfold bbPut
  rw [check_eq_error, ok_eq_error, and_false, or_false]

/-- What several `BBPut` can do (R124). -/
theorem bbPutAll_eq_ok (l : List Byte) (s t : State) :
    bbPutAll l s = .ok t ↔
      (l = [] ∨ s.bbLen + l.length ≤ s.cfg.bbMaxBytes) ∧
      t = { s with bbB := putBytes s.bbB s.bbLen l, bbLen := s.bbLen + l.length } := by
  induction l generalizing s with
  | nil => simp [bbPutAll, putBytes, eq_comm]
  | cons b l ih =>
    rw [bbPutAll, bind_eq_ok]
    constructor
    · rintro ⟨s1, h1, h2⟩
      obtain ⟨hlt, rfl⟩ := (bbPut_eq_ok _ _ _).1 h1
      obtain ⟨h3, rfl⟩ := (ih _).1 h2
      refine ⟨.inr ?_, ?_⟩
      · rcases h3 with rfl | h3
        · simpa using hlt
        · simp only [List.length_cons] at h3 ⊢; omega
      · simp only [putBytes, List.length_cons]; congr 1; omega
    · rintro ⟨h, rfl⟩
      have h' : s.bbLen + (l.length + 1) ≤ s.cfg.bbMaxBytes := by simpa using h
      refine ⟨_, (bbPut_eq_ok _ _ _).2 ⟨by omega, rfl⟩, (ih _).2 ⟨.inr (by dsimp only; omega), ?_⟩⟩
      simp only [putBytes, List.length_cons]; congr 1; omega

theorem bbPutAll_eq_error (l : List Byte) (s : State) (c : FaultCode) :
    bbPutAll l s = .error c ↔ l ≠ [] ∧ s.cfg.bbMaxBytes < s.bbLen + l.length ∧ c = .bbOverflow := by
  induction l generalizing s with
  | nil => simp [bbPutAll]
  | cons b l ih =>
    rw [bbPutAll, bind_eq_error]
    constructor
    · rintro (h | ⟨s1, h1, h2⟩)
      · obtain ⟨h, rfl⟩ := (bbPut_eq_error _ _ _).1 h
        exact ⟨by simp, by simp only [List.length_cons]; omega, rfl⟩
      · obtain ⟨_, rfl⟩ := (bbPut_eq_ok _ _ _).1 h1
        obtain ⟨_, h3, rfl⟩ := (ih _).1 h2
        dsimp only at h3
        exact ⟨by simp, by simp only [List.length_cons]; omega, rfl⟩
    · rintro ⟨_, h, rfl⟩
      simp only [List.length_cons] at h
      by_cases hb : s.cfg.bbMaxBytes ≤ s.bbLen
      · exact .inl ((bbPut_eq_error _ _ _).2 ⟨hb, rfl⟩)
      · refine .inr ⟨_, (bbPut_eq_ok _ _ _).2 ⟨by omega, rfl⟩, (ih _).2 ⟨?_, by dsimp only; omega, rfl⟩⟩
        rintro rfl; simp only [List.length_nil] at h; omega

/-- The bytes written stand at their places and no other byte changes (R57). -/
theorem readByte_putBytes {m : Memory} (h : Memory.wf m = true) (n : Nat) (l : List Byte) (k : Nat) :
    readByte (putBytes m n l) k = if hk : n ≤ k ∧ k - n < l.length then l[k - n] else readByte m k := by
  induction l generalizing m n with
  | nil => simp [putBytes]
  | cons b l ih =>
    rw [putBytes, ih (writeByte_wf h n b), readByte_writeByte h]
    by_cases h1 : n + 1 ≤ k ∧ k - (n + 1) < l.length
    · rw [dif_pos h1, dif_pos ⟨by omega, by simp only [List.length_cons]; omega⟩]
      have : k - n = (k - (n + 1)) + 1 := by omega
      simp only [this, List.getElem_cons_succ]
    · rw [dif_neg h1]
      by_cases h2 : k = n
      · subst h2
        rw [if_pos rfl, dif_pos ⟨by omega, by simp⟩]
        simp
      · rw [if_neg h2, dif_neg]
        simp only [List.length_cons]; omega

/-- What `BBGet` can do (R122). -/
theorem bbGet_eq_ok (s t : State) (b : Byte) :
    bbGet s = .ok (b, t) ↔ s.bbRpos < s.bbLen ∧ b = readByte s.bbB s.bbRpos ∧ t = { s with bbRpos := s.bbRpos + 1 } := by
  unfold bbGet
  rw [check_eq_ok, ok_eq_ok, Nat.not_le, Prod.mk.injEq]

theorem bbGet_eq_error (s : State) (c : FaultCode) :
    bbGet s = .error c ↔ s.bbLen ≤ s.bbRpos ∧ c = .bbUnderflow := by
  unfold bbGet
  rw [check_eq_error, ok_eq_error, and_false, or_false]

theorem storeBytes_succ (m : Memory) (p n : Nat) :
    storeBytes m p (n + 1) = readByte m p :: storeBytes m (p + 1) n := by
  unfold storeBytes
  rw [List.range_succ_eq_map]
  simp only [List.map_cons, List.map_map, Nat.add_zero, List.cons.injEq, true_and]
  apply List.map_congr_left
  intro j _
  simp only [Function.comp_apply]
  congr 1; omega

@[simp] theorem length_storeBytes (m : Memory) (p n : Nat) : (storeBytes m p n).length = n := by simp [storeBytes]

theorem storeBytes_add (m : Memory) (p a b : Nat) :
    storeBytes m p (a + b) = storeBytes m p a ++ storeBytes m (p + a) b := by
  unfold storeBytes
  rw [List.range_add, List.map_append, List.map_map]
  congr 1
  apply List.map_congr_left
  intro j _
  simp only [Function.comp_apply]
  congr 1; omega

/-- `n` more bytes, shifted into `r` one by one (R124). -/
theorem bbGetLoop_ok {n : Nat} {s : State} (r : Word) (h : s.bbRpos + n ≤ s.bbLen) :
    bbGetLoop n r s = .ok ((storeBytes s.bbB s.bbRpos n).foldl pushByte r, { s with bbRpos := s.bbRpos + n }) := by
  induction n generalizing r s with
  | zero => rfl
  | succ n ih =>
    rw [bbGetLoop, (bbGet_eq_ok _ _ _).2 ⟨by omega, rfl, rfl⟩, bind_ok]
    dsimp only
    rw [ih _ (by dsimp only; omega), storeBytes_succ, List.foldl_cons]
    dsimp only
    congr 3; omega

/-- `BBGetN` reads its bytes, most significant first (R124). -/
theorem bbGetN_ok {n : Nat} {s : State} (h : s.bbRpos + n ≤ s.bbLen) :
    bbGetN n s = .ok (wordOfBytes (storeBytes s.bbB s.bbRpos n), { s with bbRpos := s.bbRpos + n }) := bbGetLoop_ok 0 h

/-- `BBGetN` past the last byte raises `BB_UNDERFLOW` (R122, R124). -/
theorem bbGetLoop_error {n : Nat} {s : State} (r : Word) (hn : s.bbRpos ≤ s.bbLen) (h : s.bbLen < s.bbRpos + n) :
    bbGetLoop n r s = .error .bbUnderflow := by
  induction n generalizing r s with
  | zero => omega
  | succ n ih =>
    rw [bbGetLoop]
    by_cases hb : s.bbLen ≤ s.bbRpos
    · rw [(bbGet_eq_error _ _).2 ⟨hb, rfl⟩]; rfl
    · rw [(bbGet_eq_ok _ _ _).2 ⟨by omega, rfl, rfl⟩, bind_ok]
      exact ih _ (by dsimp only; omega) (by dsimp only; omega)

/-! ## HistoryWindow (R131 to R135) -/

/-- A window after another is replaced: the new one at its column, the old one elsewhere. -/
theorem window_setWindow (s : State) (c d : Nat) (x : Window) (hc : c < s.hw.length) :
    window (setWindow s c x) d = if d = c then x else window s d := by
  unfold window setWindow
  by_cases h : d = c
  · subst h; simp [hc]
  · simp [List.getD_eq_getElem?_getD, h, Ne.symm h]

/-- `add` moves the entries up to offset `min(N, 126)` one offset up and puts the value at offset 0 (R132). -/
theorem entry_push (v : Word) (x : Window) (k : Nat) (hx : x.e.length = winCap) :
    (x.push v).entry k = if k = 0 then v else if k ≤ min x.n 126 then x.entry (k - 1) else x.entry k := by
  have hl : winCap = 127 := rfl
  cases k with
  | zero => simp [Window.push, Window.entry]
  | succ k =>
    simp only [Window.push, Window.entry, List.getD_eq_getElem?_getD, List.getElem?_cons_succ, Nat.add_eq_zero_iff,
      Nat.one_ne_zero, and_false, if_false, Nat.add_sub_cancel, List.getElem?_append, List.length_take, hx, hl]
    by_cases h : k + 1 ≤ min x.n 126
    · rw [if_pos h, if_pos (by omega), List.getElem?_take, if_pos (by omega)]
    · rw [if_neg h, if_neg (by omega), List.getElem?_drop]
      congr 2; omega

/-- `add` counts up to 127 and keeps the 127 entries (R31, R132). -/
theorem push_size (v : Word) (x : Window) (hx : x.e.length = winCap) :
    (x.push v).n = min (x.n + 1) 127 ∧ (x.push v).e.length = winCap := by
  refine ⟨rfl, ?_⟩
  have hl : winCap = 127 := rfl
  simp [Window.push, hx, hl]

/-- What `find` answers: the lowest populated offset that holds the value (R133). -/
theorem find_eq_some (v : Word) (x : Window) (k : Nat) :
    x.find v = some k ↔ k < x.n ∧ x.entry k = v ∧ ∀ j, j < k → x.entry j ≠ v := by
  unfold Window.find
  rw [List.find?_range_eq_some]
  simp only [beq_iff_eq, List.mem_range, Bool.not_eq_true', beq_eq_false_iff_ne, ne_eq]
  tauto

theorem find_eq_none (v : Word) (x : Window) : x.find v = none ↔ ∀ j, j < x.n → x.entry j ≠ v := by
  unfold Window.find
  simp

/-- The scan over the first `n` offsets holds the lowest of the greatest scores (R134). -/
theorem bestBelow_spec (v : Word) (x : Window) (n : Nat) :
    (n = 0 → x.bestBelow v n = (0, -1)) ∧
    (0 < n → (x.bestBelow v n).1 < n ∧ (x.bestBelow v n).2 = (score (x.entry (x.bestBelow v n).1) v : Int) ∧
      (∀ j, j < n → score (x.entry j) v ≤ score (x.entry (x.bestBelow v n).1) v) ∧
      ∀ j, j < (x.bestBelow v n).1 → score (x.entry j) v < score (x.entry (x.bestBelow v n).1) v) := by
  induction n with
  | zero => exact ⟨fun _ => rfl, fun h => absurd h (by omega)⟩
  | succ n ih =>
    refine ⟨fun h => absurd h (by omega), fun _ => ?_⟩
    have e : x.bestBelow v (n + 1) = bestStep v x (x.bestBelow v n) n := by
      unfold Window.bestBelow; rw [List.range_succ, List.foldl_append]; rfl
    rw [e]
    unfold bestStep
    rcases Nat.eq_zero_or_pos n with rfl | hn
    · rw [ih.1 rfl, if_pos (by simp only; omega)]
      exact ⟨by simp, rfl, fun j hj => by
        have h0 : j = 0 := by omega
        rw [h0], fun j hj => absurd hj (by simp)⟩
    · obtain ⟨h1, h2, h3, h4⟩ := ih.2 hn
      split
      · next hlt =>
        rw [h2] at hlt
        refine ⟨by simp, rfl, fun j hj => ?_, fun j hj => ?_⟩
        · rcases Nat.lt_succ_iff_lt_or_eq.1 hj with hj | rfl
          · have := h3 j hj; simp only; omega
          · exact Nat.le_refl _
        · have := h3 j hj; simp only; omega
      · next hle =>
        rw [h2] at hle
        refine ⟨by omega, h2, fun j hj => ?_, h4⟩
        rcases Nat.lt_succ_iff_lt_or_eq.1 hj with hj | rfl
        · exact h3 j hj
        · omega

/-- What `best` answers: the lowest offset with the greatest score, and its entry (R134). -/
theorem best_eq_ok (v : Word) (x : Window) (k : Nat) (e : Word) (h : x.best v = .ok (k, e)) :
    k < x.n ∧ e = x.entry k ∧ (∀ j, j < x.n → score (x.entry j) v ≤ score (x.entry k) v) ∧
    ∀ j, j < k → score (x.entry j) v < score (x.entry k) v := by
  unfold Window.best at h
  split at h
  · cases h
  · cases h
    obtain ⟨h1, _, h3, h4⟩ := (bestBelow_spec v x x.n).2 (by omega)
    exact ⟨h1, rfl, h3, h4⟩

theorem best_total (v : Word) (x : Window) (h : 0 < x.n) : ∃ k, x.best v = .ok (k, x.entry k) :=
  ⟨(x.bestBelow v x.n).1, by unfold Window.best; rw [if_neg (by omega)]⟩

theorem best_empty (v : Word) (x : Window) (h : x.n = 0) : x.best v = .error .hwEmpty := if_pos h

theorem entryAt_ok {x : Window} {k : Nat} (h : k < x.n) : x.entryAt k = .ok (x.entry k) := if_neg (by omega)

theorem entryAt_error {x : Window} {k : Nat} (h : x.n ≤ k) : x.entryAt k = .error .hwIndex := if_pos h

/-- `HWInit` of the columns below `n` touches nothing but their windows (R152, R180). -/
theorem hwInitBelow_frame (n : Nat) (s : State) :
    { hwInitBelow n s with hw := s.hw } = s ∧ (hwInitBelow n s).hw.length = s.hw.length := by
  induction n with
  | zero => exact ⟨rfl, rfl⟩
  | succ n ih =>
    refine ⟨?_, ?_⟩
    · have := ih.1
      simpa only [hwInitBelow, hwInit, setWindow] using this
    · simp [hwInitBelow, hwInit, setWindow, ih.2]

/-- `HWInit` of the columns below `n` empties exactly those (R152, R180). -/
theorem window_hwInitBelow (n c : Nat) (s : State) (hn : n ≤ s.hw.length) :
    window (hwInitBelow n s) c = if c < n then Window.empty s.cfg.zeroFill else window s c := by
  induction n with
  | zero => rfl
  | succ n ih =>
    have hf := hwInitBelow_frame n s
    have hc : (hwInitBelow n s).cfg = s.cfg := by have := congrArg State.cfg hf.1; exact this
    rw [hwInitBelow, hwInit, window_setWindow _ _ _ _ (by rw [hf.2]; omega), ih (by omega), hc]
    by_cases h : c = n
    · subst h; simp
    · rw [if_neg h]
      by_cases h2 : c < n
      · rw [if_pos h2, if_pos (by omega)]
      · rw [if_neg h2, if_neg (by omega)]

/-! ## The memory's canonical form -/

/-- The memory of the state after reset has the canonical form. -/
theorem reset_memory_wf : Memory.wf State.reset.bbB = true ∧ Store.wf State.reset.bpW = true := ⟨rfl, rfl⟩

end Sys2Proof.Machine
end

