-- ==== Sys2Proof/Laws/Exec.lean ====
section
/-! SUPPORT. `exec` of each instruction is its meaning, one simp lemma per constructor; and the form in which a command or a code
faults. -/

namespace Sys2Proof.Machine

@[simp] theorem exec_nop (s : State) : exec .nop s = execNop s := rfl
@[simp] theorem exec_coreReset (s : State) : exec .coreReset s = execCoreReset s := rfl
@[simp] theorem exec_coreStatus (s : State) : exec .coreStatus s = execCoreStatus s := rfl
@[simp] theorem exec_bpAppend (width : Byte) (din : Word) (s : State) : exec (.bpAppend width din) s = execBpAppend width din s := rfl
@[simp] theorem exec_bpClose (s : State) : exec .bpClose s = execBpClose s := rfl
@[simp] theorem exec_bpRead (width : Byte) (s : State) : exec (.bpRead width) s = execBpRead width s := rfl
@[simp] theorem exec_bpSize (s : State) : exec .bpSize s = execBpSize s := rfl
@[simp] theorem exec_bpReadrun (maxbits : Byte) (s : State) : exec (.bpReadrun maxbits) s = execBpReadrun maxbits s := rfl
@[simp] theorem exec_bpFreeze (s : State) : exec .bpFreeze s = execBpFreeze s := rfl
@[simp] theorem exec_bbPut (din : Word) (s : State) : exec (.bbPut din) s = execBbPut din s := rfl
@[simp] theorem exec_bbGet (s : State) : exec .bbGet s = execBbGet s := rfl
@[simp] theorem exec_bbLen (s : State) : exec .bbLen s = execBbLen s := rfl
@[simp] theorem exec_hwInit (col : Byte) (s : State) : exec (.hwInit col) s = execHwInit col s := rfl
@[simp] theorem exec_hwAdd (col : Byte) (din : Word) (s : State) : exec (.hwAdd col din) s = execHwAdd col din s := rfl
@[simp] theorem exec_hwContains (col : Byte) (din : Word) (s : State) : exec (.hwContains col din) s = execHwContains col din s := rfl
@[simp] theorem exec_hwBest (col : Byte) (din : Word) (s : State) : exec (.hwBest col din) s = execHwBest col din s := rfl
@[simp] theorem exec_hwAt (col : Byte) (din : Word) (s : State) : exec (.hwAt col din) s = execHwAt col din s := rfl
@[simp] theorem exec_hwCount (col : Byte) (s : State) : exec (.hwCount col) s = execHwCount col s := rfl
@[simp] theorem exec_encBegin (din : Word) (s : State) : exec (.encBegin din) s = execEncBegin din s := rfl
@[simp] theorem exec_encRow (n : Byte) (din : Word) (s : State) : exec (.encRow n din) s = execEncRow n din s := rfl
@[simp] theorem exec_encVal (din : Word) (s : State) : exec (.encVal din) s = execEncVal din s := rfl
@[simp] theorem exec_encFinish (s : State) : exec .encFinish s = execEncFinish s := rfl
@[simp] theorem exec_encBitsize (s : State) : exec .encBitsize s = execEncBitsize s := rfl
@[simp] theorem exec_decInit (n : Byte) (s : State) : exec (.decInit n) s = execDecInit n s := rfl
@[simp] theorem exec_decNext (s : State) : exec .decNext s = execDecNext s := rfl
@[simp] theorem exec_decTs (s : State) : exec .decTs s = execDecTs s := rfl
@[simp] theorem exec_decVal (col : Byte) (s : State) : exec (.decVal col) s = execDecVal col s := rfl
@[simp] theorem exec_expNwords (s : State) : exec .expNwords s = execExpNwords s := rfl
@[simp] theorem exec_expWord (din : Word) (s : State) : exec (.expWord din) s = execExpWord din s := rfl
@[simp] theorem exec_expByte (din : Word) (s : State) : exec (.expByte din) s = execExpByte din s := rfl
@[simp] theorem exec_tsAnchor (a : Word) (s : State) : exec (.tsAnchor a) s = execTsAnchor a s := rfl
@[simp] theorem exec_tsFirstdelta (d : BitVec 32) (s : State) : exec (.tsFirstdelta d) s = execTsFirstdelta d s := rfl
@[simp] theorem exec_tsDod0 (s : State) : exec .tsDod0 s = execTsDod0 s := rfl
@[simp] theorem exec_tsDod7 (u : BitVec 7) (s : State) : exec (.tsDod7 u) s = execTsDod7 u s := rfl
@[simp] theorem exec_tsDod9 (u : BitVec 9) (s : State) : exec (.tsDod9 u) s = execTsDod9 u s := rfl
@[simp] theorem exec_tsDod12 (u : BitVec 12) (s : State) : exec (.tsDod12 u) s = execTsDod12 u s := rfl
@[simp] theorem exec_tsDod32 (u : BitVec 32) (s : State) : exec (.tsDod32 u) s = execTsDod32 u s := rfl
@[simp] theorem exec_tsEos (s : State) : exec .tsEos s = execTsEos s := rfl
@[simp] theorem exec_bpTrailer (s : State) : exec .bpTrailer s = execBpTrailer s := rfl
@[simp] theorem exec_valExact (h : BitVec 7) (s : State) : exec (.valExact h) s = execValExact h s := rfl
@[simp] theorem exec_valXor (k : BitVec 7) (t : BitVec 4) (l : BitVec 4) (y : Word) (s : State) : exec (.valXor k t l y) s = execValXor k t l y s := rfl
@[simp] theorem exec_valEscape (v : Word) (s : State) : exec (.valEscape v) s = execValEscape v s := rfl
@[simp] theorem exec_valFirst (v : Word) (s : State) : exec (.valFirst v) s = execValFirst v s := rfl

/-- Taking a fault is faulting as R225 says. -/
theorem faultsAs_takeFault (c : FaultCode) (op : Byte) (s : State) : FaultsAs (.next (takeFault c op s)) c op s :=
  ⟨_, rfl, rfl, rfl, rfl, rfl, rfl⟩

/-- A command whose body raises a fault takes it with its own opcode (R225). -/
theorem runCommand_faultsAs (i : Instr) {s : State} {body : State → Comp (State × Word × Word)} {c : FaultCode}
    (h : s.fault = 0) (hb : body s = .error c) : FaultsAs (runCommand i s body) c (opcodeOf i) s := by
  rw [runCommand_error i h hb]; exact faultsAs_takeFault _ _ _

/-- A stream code whose body raises a fault takes it with the opcode of the command that reads it (R225). -/
theorem runCode_faultsAs (i : Instr) {phases : List Phase} {s : State} {body : State → Comp State} {c : FaultCode}
    (h : s.fault = 0) (hp : s.phase ∈ phases) (hb : body s = .error c) :
    FaultsAs (runCode i phases s body) c (opcodeOf i) s := by
  rw [runCode_error i h hp hb]; exact faultsAs_takeFault _ _ _

end Sys2Proof.Machine
end

