-- ==== Sys2Proof/Laws/PerInstr.lean ====
section
/-! SUPPORT. A family of lemmas with one lemma per constructor of `Instr`: every encoding has the form its place asks for. -/

namespace Sys2Proof.Laws

/-- At the command port an instruction is a transaction whose word is `OP : IMM` with its own opcode (R70, R71); in the BitPacker
it is a bit string of 1 to 133 bits (R79 to R81, R103); in the ByteBuffer a byte string of 1 to 17 bytes (R83 to R88). -/
def EncodedAtItsPlace.Statement (i : Instr) : Prop :=
  match placeOf i with
  | .port => ∃ (imm : Byte) (din : Word), encode i = .command ⟨commandWord (opcodeOf i) imm, din⟩
  | .anchor | .firstDelta | .tsRow | .trailer => ∃ l, encode i = .bits l ∧ 1 ≤ l.length ∧ l.length ≤ 133
  | .firstVal | .rowVal => ∃ l, encode i = .bytes l ∧ 1 ≤ l.length ∧ l.length ≤ 17

/-- A comparison of two computed lengths. -/
theorem bounds {m n : Nat} (h : Nat.ble m n = true) : m ≤ n := Nat.le_of_ble_eq_true h

/-- A 4-bit count of data bytes is at most 15. -/
theorem length_encodeVal_xor (k : BitVec 7) (t l : BitVec 4) (y : Word) :
    1 ≤ (encodeVal (.xor k t l y)).length ∧ (encodeVal (.xor k t l y)).length ≤ 17 := by
  have hb : ∀ n, (Machine.lowBytes y n).length = n := fun n => by
    induction n with
    | zero => rfl
    | succ n ih => simp [Machine.lowBytes, ih]
  have := l.isLt
  simp only [encodeVal, List.length_cons]
  split
  · simp
  · rw [hb]; omega

theorem EncodedAtItsPlace.nop : EncodedAtItsPlace.Statement .nop := ⟨_, _, rfl⟩
theorem EncodedAtItsPlace.coreReset : EncodedAtItsPlace.Statement .coreReset := ⟨_, _, rfl⟩
theorem EncodedAtItsPlace.coreStatus : EncodedAtItsPlace.Statement .coreStatus := ⟨_, _, rfl⟩
theorem EncodedAtItsPlace.bpAppend (width : Byte) (din : Word) : EncodedAtItsPlace.Statement (.bpAppend width din) := ⟨_, _, rfl⟩
theorem EncodedAtItsPlace.bpClose : EncodedAtItsPlace.Statement .bpClose := ⟨_, _, rfl⟩
theorem EncodedAtItsPlace.bpRead (width : Byte) : EncodedAtItsPlace.Statement (.bpRead width) := ⟨_, _, rfl⟩
theorem EncodedAtItsPlace.bpSize : EncodedAtItsPlace.Statement .bpSize := ⟨_, _, rfl⟩
theorem EncodedAtItsPlace.bpReadrun (maxbits : Byte) : EncodedAtItsPlace.Statement (.bpReadrun maxbits) := ⟨_, _, rfl⟩
theorem EncodedAtItsPlace.bpFreeze : EncodedAtItsPlace.Statement .bpFreeze := ⟨_, _, rfl⟩
theorem EncodedAtItsPlace.bbPut (din : Word) : EncodedAtItsPlace.Statement (.bbPut din) := ⟨_, _, rfl⟩
theorem EncodedAtItsPlace.bbGet : EncodedAtItsPlace.Statement .bbGet := ⟨_, _, rfl⟩
theorem EncodedAtItsPlace.bbLen : EncodedAtItsPlace.Statement .bbLen := ⟨_, _, rfl⟩
theorem EncodedAtItsPlace.hwInit (col : Byte) : EncodedAtItsPlace.Statement (.hwInit col) := ⟨_, _, rfl⟩
theorem EncodedAtItsPlace.hwAdd (col : Byte) (din : Word) : EncodedAtItsPlace.Statement (.hwAdd col din) := ⟨_, _, rfl⟩
theorem EncodedAtItsPlace.hwContains (col : Byte) (din : Word) : EncodedAtItsPlace.Statement (.hwContains col din) := ⟨_, _, rfl⟩
theorem EncodedAtItsPlace.hwBest (col : Byte) (din : Word) : EncodedAtItsPlace.Statement (.hwBest col din) := ⟨_, _, rfl⟩
theorem EncodedAtItsPlace.hwAt (col : Byte) (din : Word) : EncodedAtItsPlace.Statement (.hwAt col din) := ⟨_, _, rfl⟩
theorem EncodedAtItsPlace.hwCount (col : Byte) : EncodedAtItsPlace.Statement (.hwCount col) := ⟨_, _, rfl⟩
theorem EncodedAtItsPlace.encBegin (din : Word) : EncodedAtItsPlace.Statement (.encBegin din) := ⟨_, _, rfl⟩
theorem EncodedAtItsPlace.encRow (n : Byte) (din : Word) : EncodedAtItsPlace.Statement (.encRow n din) := ⟨_, _, rfl⟩
theorem EncodedAtItsPlace.encVal (din : Word) : EncodedAtItsPlace.Statement (.encVal din) := ⟨_, _, rfl⟩
theorem EncodedAtItsPlace.encFinish : EncodedAtItsPlace.Statement .encFinish := ⟨_, _, rfl⟩
theorem EncodedAtItsPlace.encBitsize : EncodedAtItsPlace.Statement .encBitsize := ⟨_, _, rfl⟩
theorem EncodedAtItsPlace.decInit (n : Byte) : EncodedAtItsPlace.Statement (.decInit n) := ⟨_, _, rfl⟩
theorem EncodedAtItsPlace.decNext : EncodedAtItsPlace.Statement .decNext := ⟨_, _, rfl⟩
theorem EncodedAtItsPlace.decTs : EncodedAtItsPlace.Statement .decTs := ⟨_, _, rfl⟩
theorem EncodedAtItsPlace.decVal (col : Byte) : EncodedAtItsPlace.Statement (.decVal col) := ⟨_, _, rfl⟩
theorem EncodedAtItsPlace.expNwords : EncodedAtItsPlace.Statement .expNwords := ⟨_, _, rfl⟩
theorem EncodedAtItsPlace.expWord (din : Word) : EncodedAtItsPlace.Statement (.expWord din) := ⟨_, _, rfl⟩
theorem EncodedAtItsPlace.expByte (din : Word) : EncodedAtItsPlace.Statement (.expByte din) := ⟨_, _, rfl⟩
theorem EncodedAtItsPlace.tsAnchor (a : Word) : EncodedAtItsPlace.Statement (.tsAnchor a) := ⟨_, rfl, bounds rfl, bounds rfl⟩
theorem EncodedAtItsPlace.tsFirstdelta (d : BitVec 32) : EncodedAtItsPlace.Statement (.tsFirstdelta d) := ⟨_, rfl, bounds rfl, bounds rfl⟩
theorem EncodedAtItsPlace.tsDod0 : EncodedAtItsPlace.Statement .tsDod0 := ⟨_, rfl, bounds rfl, bounds rfl⟩
theorem EncodedAtItsPlace.tsDod7 (u : BitVec 7) : EncodedAtItsPlace.Statement (.tsDod7 u) := ⟨_, rfl, bounds rfl, bounds rfl⟩
theorem EncodedAtItsPlace.tsDod9 (u : BitVec 9) : EncodedAtItsPlace.Statement (.tsDod9 u) := ⟨_, rfl, bounds rfl, bounds rfl⟩
theorem EncodedAtItsPlace.tsDod12 (u : BitVec 12) : EncodedAtItsPlace.Statement (.tsDod12 u) := ⟨_, rfl, bounds rfl, bounds rfl⟩
theorem EncodedAtItsPlace.tsDod32 (u : BitVec 32) : EncodedAtItsPlace.Statement (.tsDod32 u) := ⟨_, rfl, bounds rfl, bounds rfl⟩
theorem EncodedAtItsPlace.tsEos : EncodedAtItsPlace.Statement .tsEos := ⟨_, rfl, bounds rfl, bounds rfl⟩
theorem EncodedAtItsPlace.bpTrailer : EncodedAtItsPlace.Statement .bpTrailer := ⟨_, rfl, by simp [trailerBits], by simp [trailerBits]⟩
theorem EncodedAtItsPlace.valExact (h : BitVec 7) : EncodedAtItsPlace.Statement (.valExact h) := ⟨_, rfl, bounds rfl, bounds rfl⟩
theorem EncodedAtItsPlace.valXor (k : BitVec 7) (t : BitVec 4) (l : BitVec 4) (y : Word) : EncodedAtItsPlace.Statement (.valXor k t l y) := ⟨_, rfl, length_encodeVal_xor k t l y⟩
theorem EncodedAtItsPlace.valEscape (v : Word) : EncodedAtItsPlace.Statement (.valEscape v) := ⟨_, rfl, bounds rfl, bounds rfl⟩
theorem EncodedAtItsPlace.valFirst (v : Word) : EncodedAtItsPlace.Statement (.valFirst v) := ⟨_, rfl, bounds rfl, bounds rfl⟩

end Sys2Proof.Laws
end

