-- ==== Sys2Proof/Tests/Slice0.lean ====
section
/-! SUPPORT. Tests on fixed values, expected results from `95_test_vectors.md` or by hand from the rules; and, for every obligation
with hypotheses, states and operands that meet them. -/

namespace Sys2Proof.Tests

open Sys2Proof Sys2Proof.Machine

-- One kernel evaluation at a time: many at once exhaust the checker's threads.
set_option Elab.async false

/-! ## Helpers -/

/-- A small instance: 2 columns, 4 words, 24 bytes. -/
def smallCfg : Config := ⟨2, 4, 24, 0x7FF8000000000000#64, false⟩

/-- The small instance after power-on. -/
def small : State := State.powerOn smallCfg

/-- The response of a next state. -/
def answer : Out → Option Response
  | .next t => t.resp
  | _ => none

/-- A part of a next state. -/
def part {α : Type} (f : State → α) : Out → Option α
  | .next t => some (f t)
  | _ => none

/-- The answer that completes a command (R73). -/
def done (r0 r1 : Word) : Option Response := some ⟨0, r0, r1⟩

/-- The answer of a faulting command (R225). -/
def faulted (code : Byte) : Option Response := some ⟨code, 0, 0⟩

/-- The names of section 0 of the test vectors. -/
def one : Word := 0x3FF0000000000000
def inf : Word := 0x7FF0000000000000
def nan : Word := 0x7FF8000000000000

/-- A window holding the values `l`, offset 0 first. -/
def windowOf (l : List Word) : Window := ⟨l ++ List.replicate (127 - l.length) 0, l.length⟩

/-- The small instance with the values `l` in window 0. -/
def withWindow (l : List Word) : State := setWindow small 0 (windowOf l)

/-- A Decoder at a later row of `n` columns, with the values `l` in window 0, the bits of `w` to read, and the bytes `b`. -/
def atRow (n : Byte) (l : List Word) (nbits w : Nat) (b : List Byte) : State :=
  { loadBytes b (loadBits (tableBits nbits w) (withWindow l)) with phase := .decRun, ncols := n }

/-- An Encoder inside a row of one column, with the values `l` in window 0. -/
def inRowOf (l : List Word) (first : Bool) : State :=
  { withWindow l with phase := .encRow, ncols := 1, first := first, bpNbits := 96 }

/-! ## Well-formedness: an ill-formed term for each check -/

theorem test_wf_dod32_refuses_all_ones : Instr.wf (.tsDod32 0xFFFFFFFF) = false := by decide
theorem test_wf_dod32_accepts_the_largest : Instr.wf (.tsDod32 0xFFFFFFFE) = true := by decide
theorem test_wf_xor_refuses_offset_127 : Instr.wf (.valXor 0x7F 0 1 1) = false := by decide
theorem test_wf_xor_refuses_data_beyond_l_bytes : Instr.wf (.valXor 0 6 2 0x10000) = false := by decide
theorem test_wf_xor_refuses_data_when_malformed : Instr.wf (.valXor 0 4 5 1) = false := by decide
theorem test_wf_xor_accepts_the_bounds : Instr.wf (.valXor 126 6 2 0xFFFF) = true ∧ Instr.wf (.valXor 0 4 5 0) = true := by
  decide
theorem test_immLegal_bounds :
    Instr.immLegal smallCfg (.bpAppend 0 0) = false ∧ Instr.immLegal smallCfg (.bpAppend 65 0) = false ∧
    Instr.immLegal smallCfg (.bpRead 1) = true ∧ Instr.immLegal smallCfg (.bpReadrun 64) = true ∧
    Instr.immLegal smallCfg (.hwInit 2) = false ∧ Instr.immLegal smallCfg (.hwInit 1) = true ∧
    Instr.immLegal smallCfg (.encRow 2 0) = true ∧ Instr.immLegal smallCfg (.decInit 3) = false := by decide

/-! ## Decoding: a word of every constructor, written out from R71, R74, R79 to R88 and R103 -/

theorem test_decode_system :
    decodeCommand ⟨0x0000, 7⟩ = some .nop ∧ decodeCommand ⟨0x0100, 0⟩ = some .coreReset ∧
    decodeCommand ⟨0x0200, 0⟩ = some .coreStatus := by decide
theorem test_decode_bitpacker :
    decodeCommand ⟨0x1009, 0x102⟩ = some (.bpAppend 9 0x102) ∧ decodeCommand ⟨0x1100, 0⟩ = some .bpClose ∧
    decodeCommand ⟨0x1241, 0⟩ = some (.bpRead 65) ∧ decodeCommand ⟨0x1300, 0⟩ = some .bpSize ∧
    decodeCommand ⟨0x1404, 0⟩ = some (.bpReadrun 4) ∧ decodeCommand ⟨0x1500, 0⟩ = some .bpFreeze := by decide
theorem test_decode_bytebuffer :
    decodeCommand ⟨0x2000, 0x1FF⟩ = some (.bbPut 0x1FF) ∧ decodeCommand ⟨0x2100, 0⟩ = some .bbGet ∧
    decodeCommand ⟨0x2200, 0⟩ = some .bbLen := by decide
theorem test_decode_history_window :
    decodeCommand ⟨0x3008, 0⟩ = some (.hwInit 8) ∧ decodeCommand ⟨0x31FF, 0x1111⟩ = some (.hwAdd 255 0x1111) ∧
    decodeCommand ⟨0x3200, 5⟩ = some (.hwContains 0 5) ∧ decodeCommand ⟨0x3309, 6⟩ = some (.hwBest 9 6) ∧
    decodeCommand ⟨0x3400, 126⟩ = some (.hwAt 0 126) ∧ decodeCommand ⟨0x3507, 0⟩ = some (.hwCount 7) := by decide
theorem test_decode_encoder :
    decodeCommand ⟨0x4000, 1000⟩ = some (.encBegin 1000) ∧ decodeCommand ⟨0x4102, 1001⟩ = some (.encRow 2 1001) ∧
    decodeCommand ⟨0x4200, one⟩ = some (.encVal one) ∧ decodeCommand ⟨0x4300, 0⟩ = some .encFinish ∧
    decodeCommand ⟨0x4400, 0⟩ = some .encBitsize := by decide
theorem test_decode_decoder :
    decodeCommand ⟨0x5002, 0⟩ = some (.decInit 2) ∧ decodeCommand ⟨0x5100, 0⟩ = some .decNext ∧
    decodeCommand ⟨0x5200, 0⟩ = some .decTs ∧ decodeCommand ⟨0x5301, 0⟩ = some (.decVal 1) := by decide
theorem test_decode_export :
    decodeCommand ⟨0x6000, 0⟩ = some .expNwords ∧ decodeCommand ⟨0x6100, 3⟩ = some (.expWord 3) ∧
    decodeCommand ⟨0x6200, 4⟩ = some (.expByte 4) := by decide
theorem test_decode_refuses_illegal_words :
    decodeCommand ⟨0x0300, 0⟩ = none ∧ decodeCommand ⟨0x0001, 0⟩ = none ∧ decodeCommand ⟨0x5101, 0⟩ = none ∧
    decodeCommand ⟨0x4500, 0⟩ = none ∧ decodeCommand ⟨0xFF00, 0⟩ = none := by decide
theorem test_decode_fixed_fields :
    decodeAt .anchor (.bits (List.replicate 54 false ++
      [true, true, true, true, true, false, true, false, false, false])) = some (.tsAnchor 1000) ∧
    decodeAt .firstDelta (.bits (List.replicate 28 false ++ [true, false, true, false])) = some (.tsFirstdelta 10) := by
  decide +kernel
theorem test_decode_timestamp_codes :
    decodeTableWord 1 0b0 = some .tsDod0 ∧ decodeTableWord 9 0b101111110 = some (.tsDod7 0x7E) ∧
    decodeTableWord 12 0b110010000000 = some (.tsDod9 0x80) ∧
    decodeTableWord 16 0b1110001000000000 = some (.tsDod12 0x200) ∧
    decodeTableWord 36 0b111100000000000000000001000000000000 = some (.tsDod32 0x1000) ∧
    decodeTableWord 36 0b111111111111111111111111111111111110 = some (.tsDod32 0xFFFFFFFE) ∧
    decodeTableWord 36 0b111111111111111111111111111111111111 = some .tsEos := by decide +kernel
theorem test_decode_trailer :
    decodeAt .trailer (.bits (List.replicate 132 true ++ [false])) = some .bpTrailer ∧
    decodeTableWord 133 (2 ^ 133 - 2) = some .bpTrailer := by decide +kernel
theorem test_decode_value_codes :
    decodeAt .rowVal (.bytes [0x02]) = some (.valExact 2) ∧
    decodeAt .rowVal (.bytes [0x80, 0x62, 0x3F, 0xFC]) = some (.valXor 0 6 2 0x3FFC) ∧
    decodeAt .rowVal (.bytes [0x80, 0x45]) = some (.valXor 0 4 5 0) ∧
    decodeAt .rowVal (.bytes [0xFE, 0x30]) = some (.valXor 0x7E 3 0 0) ∧
    decodeAt .rowVal (.bytes [0xFF, 0x40, 0, 0, 0, 0, 0, 0, 1]) = some (.valEscape 0x4000000000000001) ∧
    decodeAt .firstVal (.bytes [0x3F, 0xF0, 0, 0, 0, 0, 0, 0]) = some (.valFirst one) := by decide +kernel
theorem test_decode_refuses_short_codes :
    decodeTs [true, true] = none ∧ decodeTs [true, false, true] = none ∧ decodeVal [0x80] = none ∧
    decodeVal [0x80, 0x62, 0x3F] = none ∧ decodeVal [0xFF, 0x40] = none := by decide

/-! ## One step of each instruction -/

theorem test_nop : answer (exec .nop small) = done 0 0 := by decide +kernel
theorem test_nop_when_faulted : answer (exec .nop { small with fault := 5 }) = done 0 0 := by decide +kernel
theorem test_core_reset :
    part (fun t => (t.fault, t.phase, t.bpNbits, t.resp)) (exec .coreReset { small with fault := 5, bpNbits := 9 }) =
      some (0, .idle, 0, done 0 0) := by decide +kernel
theorem test_core_status_in_a_first_row :
    answer (exec .coreStatus { small with phase := .encRow, first := true, vidx := 1, ncols := 3 }) =
      done 0x0000010103000002 0 := by decide +kernel
theorem test_core_status_frozen : answer (exec .coreStatus { small with bpMode := .read }) = done 0x8 0 := by decide +kernel
theorem test_bp_append_first_bits :
    part (fun t => (t.bpW, t.bpNbits, t.resp)) (exec (.bpAppend 9 0x102) small) =
      some ([(0, 0x8100000000000000)], 9, done 0 0) := by decide +kernel
theorem test_bp_append_across_a_word_boundary :
    part (fun t => (t.bpW, t.bpNbits)) (exec (.bpAppend 8 0xAB) { small with bpNbits := 60 }) =
      some ([(0, 0xA), (1, 0xB000000000000000)], 68) := by decide +kernel
theorem test_bp_close_empty :
    part (fun t => (t.bpW, t.bpNbits, t.bpMode)) (exec .bpClose small) =
      some ([(0, 0xFFFFFFFFFFFFFFFF), (1, 0xFFFFFFFFFFFFFFFF), (2, 0xF000000000000000)], 133, .read) := by decide +kernel
theorem test_bp_close_overflow : answer (exec .bpClose { small with bpNbits := 124 }) = faulted 7 := by decide +kernel
theorem test_bp_read_splits_a_byte :
    part (fun t => (t.resp, t.bpRpos)) (exec (.bpRead 5) { loadBits (tableBits 8 0xA5) small with bpRpos := 3 }) =
      some (done 5 0, 8) := by decide +kernel
theorem test_bp_read_underflow : answer (exec (.bpRead 1) (loadBits [] small)) = faulted 6 := by decide +kernel
theorem test_bp_size_when_reading :
    answer (exec .bpSize { loadBits (tableBits 8 0xA5) small with bpRpos := 3 }) = done 5 0 := by decide +kernel
theorem test_bp_readrun_stops_at_a_clear_bit :
    part (fun t => (t.resp, t.bpRpos)) (exec (.bpReadrun 4) (loadBits (tableBits 3 0b110) small)) = some (done 6 0, 3) := by
  decide +kernel
theorem test_bp_readrun_stops_at_its_maximum :
    part (fun t => (t.resp, t.bpRpos)) (exec (.bpReadrun 4) (loadBits (tableBits 5 0b11111) small)) =
      some (done 15 0, 4) := by decide +kernel
theorem test_bp_freeze : part (fun t => (t.bpMode, t.bpRpos)) (exec .bpFreeze small) = some (.read, 0) := by decide +kernel
theorem test_bp_freeze_twice : answer (exec .bpFreeze { small with bpMode := .read }) = faulted 3 := by decide +kernel
theorem test_bb_put_keeps_the_low_byte :
    part (fun t => (t.bbB, t.bbLen)) (exec (.bbPut 0x1FF) small) = some ([(0, 0xFF)], 1) := by decide +kernel
theorem test_bb_put_overflow : answer (exec (.bbPut 0) { small with bbLen := 24 }) = faulted 9 := by decide +kernel
theorem test_bb_get :
    part (fun t => (t.resp, t.bbRpos)) (exec .bbGet { loadBytes [0x80, 0x62] small with bbRpos := 1 }) =
      some (done 0x62 0, 2) := by decide +kernel
theorem test_bb_get_underflow : answer (exec .bbGet { loadBytes [0x80] small with bbRpos := 1 }) = faulted 8 := by
  decide +kernel
theorem test_bb_len : answer (exec .bbLen { loadBytes [0x80, 0x62] small with bbRpos := 1 }) = done 2 1 := by decide +kernel
theorem test_hw_init : part (fun t => (window t 0).n) (exec (.hwInit 0) (withWindow [1, 2])) = some 0 := by decide +kernel
theorem test_hw_init_zero_fill :
    part (fun t => (window t 0).n) (exec (.hwInit 0) { small with cfg := { smallCfg with zeroFill := true } }) = some 127 := by
  decide +kernel
theorem test_hw_add :
    part (fun t => ((window t 0).entry 0, (window t 0).entry 1, (window t 0).n))
      (exec (.hwAdd 0 0x2222) (withWindow [0x1111])) = some (0x2222, 0x1111, 2) := by decide +kernel
theorem test_hw_contains_lowest : answer (exec (.hwContains 0 0x1111) (withWindow [2, 0x1111, 0x1111])) = done 1 1 := by
  decide +kernel
theorem test_hw_contains_tells_zero_signs_apart :
    answer (exec (.hwContains 0 0x8000000000000000) (withWindow [0])) = done 0 0 := by decide +kernel
theorem test_hw_best_tie :
    answer (exec (.hwBest 0 0x4020000000000000) (withWindow [0x4010000000000000, 0x4000000000000000])) =
      done 0x4010000000000000 0 := by decide +kernel
theorem test_hw_best_later_entry :
    answer (exec (.hwBest 0 0x4000000000000001) (withWindow [0x1234567812345678, 0x4000000000000000])) =
      done 0x4000000000000000 1 := by decide +kernel
theorem test_hw_at : answer (exec (.hwAt 0 1) (withWindow [0x2222, 0x1111])) = done 0x1111 0 := by decide +kernel
theorem test_hw_at_beyond_the_count : answer (exec (.hwAt 0 2) (withWindow [0x2222, 0x1111])) = faulted 10 := by
  decide +kernel
theorem test_hw_count : answer (exec (.hwCount 0) (withWindow [0x2222, 0x1111])) = done 2 0 := by decide +kernel
theorem test_enc_begin_clears_the_bitpacker :
    part (fun t => (t.bpW, t.bpNbits, t.phase)) (exec (.encBegin 1000) { small with bpW := [(0, 1)], bpNbits := 64 }) =
      some ([(0, 0x3E8)], 64, .encFirst) := by decide +kernel
theorem test_enc_begin_in_a_session : answer (exec (.encBegin 0) { small with phase := .encRun }) = faulted 2 := by
  decide +kernel
theorem test_enc_row_dod_8_bits :
    part (fun t => (streamBits t.bpW 96 12, t.bpNbits, t.delta))
      (exec (.encRow 0 64) { small with phase := .encRun, bpNbits := 96 }) =
      some (tableBits 12 0b110010000000, 108, 64) := by decide +kernel
theorem test_enc_row_first_delta_out_of_range :
    answer (exec (.encRow 0 999) { small with phase := .encFirst, anchor := 1000, bpNbits := 64 }) = faulted 5 := by
  decide +kernel
theorem test_enc_val_xor :
    part (fun t => (storeBytes t.bbB 0 t.bbLen, t.phase)) (exec (.encVal 0x4004000000000000) (inRowOf [nan] false)) =
      some ([0x80, 0x62, 0x3F, 0xFC], .encRun) := by decide +kernel
theorem test_enc_val_escape :
    part (fun t => storeBytes t.bbB 0 t.bbLen) (exec (.encVal 0x3F00000000000001) (inRowOf [one] false)) =
      some [0xFF, 0x3F, 0, 0, 0, 0, 0, 0, 1] := by decide +kernel
theorem test_enc_finish :
    part (fun t => (t.bpNbits, t.phase, t.bpMode)) (exec .encFinish { small with phase := .encFirst, bpNbits := 64 }) =
      some (197, .encDone, .read) := by decide +kernel
theorem test_enc_finish_inside_a_row : answer (exec .encFinish { small with phase := .encRow }) = faulted 2 := by
  decide +kernel
theorem test_enc_bitsize : answer (exec .encBitsize { small with bpNbits := 100, bbLen := 25 }) = done 300 0 := by
  decide +kernel
theorem test_dec_init :
    part (fun t => (t.anchor, t.ncols, t.phase, t.bpRpos)) (exec (.decInit 2) (loadBits (tableBits 64 1000) small)) =
      some (1000, 2, .decFirst, 64) := by decide +kernel
theorem test_dec_init_in_write_mode : answer (exec (.decInit 1) small) = faulted 3 := by decide +kernel
theorem test_dec_next_xor_row :
    part (fun t => (t.resp, t.ts, t.storedV.getD 0 0, t.bbRpos)) (exec .decNext (atRow 1 [one] 9 0b101111110 [0x80, 0x71, 0x40])) =
      some (done 1 0, 63, inf, 3) := by decide +kernel
theorem test_dec_next_malformed : answer (exec .decNext (atRow 1 [one] 1 0 [0x80, 0x45, 1, 2, 3, 4, 5])) = faulted 14 := by
  decide +kernel
theorem test_dec_ts : answer (exec .decTs { small with phase := .decRun, ts := 5000 }) = done 5000 0 := by decide +kernel
theorem test_dec_ts_before_a_row : answer (exec .decTs { small with phase := .decFirst }) = faulted 2 := by decide +kernel
theorem test_dec_val :
    answer (exec (.decVal 1) { small with phase := .decRun, ncols := 2, storedV := [one, inf] }) = done inf 0 := by
  decide +kernel
theorem test_dec_val_beyond_the_row :
    answer (exec (.decVal 1) { small with phase := .decRun, ncols := 1, storedV := [one, inf] }) = faulted 12 := by
  decide +kernel
theorem test_exp_nwords : answer (exec .expNwords { small with bpNbits := 133 }) = done 3 133 := by decide +kernel
theorem test_exp_word : answer (exec (.expWord 1) { small with bpNbits := 100, bpW := [(1, 0xA00000000)] }) = done 0xA00000000 0 := by
  decide +kernel
theorem test_exp_word_evicted :
    answer (exec (.expWord 0) { small with bpNbits := 197, bpMode := .read, bpRpos := 68 }) = faulted 15 := by decide +kernel
theorem test_exp_byte_consumed : answer (exec (.expByte 0) { loadBytes [1, 2] small with bbRpos := 2 }) = done 1 0 := by
  decide +kernel
theorem test_exp_byte_beyond : answer (exec (.expByte 2) { loadBytes [1, 2] small with bbRpos := 2 }) = faulted 15 := by
  decide +kernel
theorem test_ts_anchor : part State.anchor (exec (.tsAnchor 0xFFFFFFFFFFFFFC18) small) = some 0xFFFFFFFFFFFFFC18 := by
  decide +kernel
theorem test_ts_firstdelta :
    part (fun t => (t.ts, t.delta)) (exec (.tsFirstdelta 10) { small with phase := .decFirst, anchor := 1000 }) =
      some (1010, 10) := by decide +kernel
theorem test_ts_dod0 : part (fun t => (t.ts, t.delta)) (exec .tsDod0 (atRow 1 [] 0 0 [])) = some (0, 0) := by decide +kernel
theorem test_ts_dod7_negative :
    part (fun t => (t.ts, t.delta)) (exec (.tsDod7 0x7F) { atRow 1 [] 0 0 [] with ts := 100, delta := 60 }) =
      some (96, 0xFFFFFFFFFFFFFFFC) := by decide +kernel
theorem test_ts_dod9 : part State.ts (exec (.tsDod9 0x81) (atRow 1 [] 0 0 [])) = some (-65) := by decide +kernel
theorem test_ts_dod12 : part State.ts (exec (.tsDod12 0xFFE) (atRow 1 [] 0 0 [])) = some 2047 := by decide +kernel
theorem test_ts_dod32 : part State.ts (exec (.tsDod32 0xFFFFFFFD) (atRow 1 [] 0 0 [])) = some (-(2 ^ 31 - 1)) := by
  decide +kernel
theorem test_ts_eos : part State.phase (exec .tsEos (atRow 1 [] 0 0 [])) = some .decDone := by decide +kernel
theorem test_bp_trailer : part State.phase (exec .bpTrailer (atRow 1 [] 0 0 [])) = some .decDone := by decide +kernel
theorem test_val_exact : part (fun t => t.storedV.getD 0 0) (exec (.valExact 1) (atRow 1 [inf, one] 0 0 [])) = some one := by
  decide +kernel
theorem test_val_exact_beyond_the_count : answer (exec (.valExact 0x7F) (atRow 1 [one] 0 0 [])) = faulted 10 := by
  decide +kernel
theorem test_val_xor :
    part (fun t => t.storedV.getD 0 0) (exec (.valXor 0 0 8 0x0102030405060708) (atRow 1 [one] 0 0 [])) =
      some 0x3EF2030405060708 := by decide +kernel
theorem test_val_xor_malformed : answer (exec (.valXor 0 4 5 0) (atRow 1 [one] 0 0 [])) = faulted 14 := by decide +kernel
theorem test_val_escape :
    part (fun t => ((window t 0).entry 0, (window t 0).n)) (exec (.valEscape inf) (atRow 1 [one] 0 0 [])) = some (inf, 2) := by
  decide +kernel
theorem test_val_first :
    part (fun t => (t.storedV.getD 0 0, t.dcol)) (exec (.valFirst nan) { atRow 1 [] 0 0 [] with phase := .decFirst }) =
      some (nan, 1) := by decide +kernel
theorem test_fetch_word_places_a_stream_code :
    part (fun t => (t.resp, t.ts)) (step (State.reset.withFetchWord 9 0b101111110)) = some (done 1 0, 63) := by decide +kernel
theorem test_fetch_word_places_a_command :
    decodeTableWord 16 0x1300 = some .bpSize ∧ answer (step (State.reset.withFetchWord 16 0x1300)) = done 0 0 := by
  decide +kernel

/-! ## Witnesses: for each obligation with hypotheses, values that meet those of each of its clauses -/

/-- The small instance with a command word presented. -/
def presenting (cw : BitVec 16) : State := { small with port := [⟨cw, 0⟩] }

/-- A two-row session of one column, anchor 1000. -/
def sessionRows : List (Word × List Word) := [(1000, [one]), (1001, [one])]

theorem test_small_live : Live small where
  rposLe := by decide
  nbitsLe := by decide
  writeRpos := by decide
  bbRposLe := by decide
  bbLenLe := by decide
  windowN := by decide +kernel
  vidxLe := by decide
  ncolsLe := by decide
  vidxZero := by decide
  vidxLt := by decide
  firstRow := by decide
  frozen := by decide
  padding := fun k _ => streamBit_nil k

theorem test_small_inv : Inv small where
  cfgWf := by decide +kernel
  wordsWf := by decide
  bytesWf := by decide
  wordsIn := fun _ _ => rfl
  bytesIn := fun _ _ => rfl
  windows := by decide
  entries := by decide +kernel
  stored := by decide
  dcolZero := by decide
  faultLegal := by decide
  live := fun _ => test_small_live

theorem test_witness_DecodeOfEncodeIsTheInstruction :
    Instr.wf (.tsDod32 0xFFFFFFFE) = true ∧ Instr.wf (.valXor 126 7 1 0xFF) = true ∧ Instr.wf (.bpAppend 255 0) = true := by
  decide

theorem test_witness_IllegalCommandWordsFault_illegal :
    small.fault = 0 ∧
    [0x0300, 0x0F00, 0x1600, 0x1F00, 0x2300, 0x2F00, 0x3600, 0x3F00, 0x4500, 0x4F00, 0x5400, 0x5F00, 0x6300, 0xFF00,
      0x0001, 0x02FF, 0x1101, 0x2001, 0x4001, 0x5101, 0x62FF].all
      (fun w => answer (step (presenting w)) == faulted 1) = true := by decide +kernel

theorem test_witness_IllegalCommandWordsFault_legal :
    [0x0000, 0x0200, 0x1000, 0x1500, 0x2000, 0x2200, 0x30FF, 0x3500, 0x4000, 0x4400, 0x5000, 0x53FF, 0x6000, 0x6200].all
      (fun w => (decodeCommand ⟨w, 0⟩).isSome && answer (step (presenting w)) != faulted 1) = true := by decide +kernel

theorem test_witness_TimestampCodesAreAPrefixFreeCode :
    (TsCode.toInstr (.dod32 0)).wf = true ∧ 36 ≤ (List.replicate 36 true).length ∧
    (∀ l ∈ [[false], [true, false], [true, true, false], [true, true, true, false], [true, true, true, true]],
      (bpReadRun 4 (loadBits l small)).toOption.isSome = true) ∧
    (loadBits (List.replicate 36 true) small).bpMode = .read ∧
    36 ≤ (loadBits (List.replicate 36 true) small).bpNbits - (loadBits (List.replicate 36 true) small).bpRpos := by
  decide +kernel

theorem test_witness_FirstByteSelectsTheValueCode :
    (ValCode.toInstr (.xor 0 8 0 0)).wf = true ∧ 16 ≤ (List.replicate 16 (0 : Byte)).length ∧ (0x7F#8).toNat < 0x80 ∧
    0x80 ≤ (0x80#8).toNat ∧ (0xFE#8).toNat ≤ 0xFE := by decide

theorem test_witness_StepRunsTheDecodedInstruction :
    (presenting 0x1241).port = ⟨0x1241, 0⟩ :: [] ∧ decodeCommand ⟨0x1241, 0⟩ = some (.bpRead 65) ∧
    answer (step (presenting 0x1300)) = done 0 0 := by decide +kernel

theorem test_witness_IdleStepHoldsTheState : small.port = [] := by decide

theorem test_witness_FaultedCoreRefusesAllButThree :
    ({ small with fault := 1 } : State).fault ≠ 0 ∧
    [0x0001, 0x0201, 0x0300, 0x1300].all
      (fun w => answer (step { presenting w with fault := 1 }) == faulted 0xFF) = true ∧
    [0x0000, 0x0100].all (fun w => answer (step { presenting w with fault := 1 }) == done 0 0) = true ∧
    part State.faultOp (step { presenting 0x0200 with fault := 1, faultOp := 0x45 }) = some 0x45 := by decide +kernel

theorem test_witness_FirstFaultIsKeptUntilReset :
    ({ presenting 0x1300 with fault := 15 } : State).fault ≠ 0 ∧
    part State.fault (step { presenting 0x1300 with fault := 15 }) = some 15 ∧
    part State.fault (step { presenting 0x0100 with fault := 15 }) = some 0 := by decide +kernel

theorem test_witness_FaultMechanism :
    small.fault = 0 ∧ part (fun t => (t.fault, t.faultOp)) (exec (.bpRead 0) small) = some (3, 0x12) := by decide +kernel

theorem test_witness_EveryStepKeepsTheInvariant :
    Inv small ∧ step small = .next small ∧ part State.fault (step (presenting 0x4500)) = some 1 :=
  ⟨test_small_inv, rfl, by decide +kernel⟩

theorem test_witness_ResetMeetsTheInvariant :
    Config.wf Config.standard = true ∧ Config.wf ⟨255, 4, 0, 0xFFF0000000000001, true⟩ = true := by decide

theorem test_witness_OnlyResetAndBeginReopenTheBitPacker :
    part (fun t => (t.fault, t.bpMode)) (exec .bpFreeze small) = some (0, .read) ∧
    part (fun t => (t.fault, t.bpMode)) (exec (.encBegin 0) (loadBits [true] small)) = some (0, .write) ∧
    part (fun t => (t.fault, t.bpMode)) (exec (.bpRead 1) (loadBits [true] small)) = some (0, .read) := by decide +kernel

theorem test_witness_ReadOnlyCommandsChangeNothing :
    ∀ i ∈ [.nop, .coreStatus, .bpSize, .bbLen, .hwCount 0, .hwContains 1 0, .encBitsize, .expNwords],
      readOnly i = true ∧ part State.fault (exec i small) = some 0 := by decide +kernel

theorem test_witness_PhaseTransitions :
    phaseLegal (.encVal 0) .encFirst = false ∧ phaseLegal .decTs .decFirst = false ∧
    (∀ p ∈ ([(.encBegin 0, small, .encFirst), (.encRow 0 0, { small with phase := .encFirst }, .encRun),
        (.encRow 2 0, { small with phase := .encFirst }, .encRow), (.encRow 0 0, { small with phase := .encRun }, .encRun),
        (.encVal 0, inRowOf [] true, .encRun), (.encVal 0, { inRowOf [] true with ncols := 2 }, .encRow),
        (.encFinish, { small with phase := .encFirst }, .encDone), (.decInit 0, loadBits (tableBits 64 0) small, .decFirst),
        (.decNext, atRow 0 [] 1 0 [], .decRun), (.decNext, atRow 0 [] 36 (2 ^ 36 - 1) [], .decDone),
        (.coreReset, small, .idle), (.encBitsize, small, .idle), (.bpSize, { small with phase := .encRow }, .encRow)] :
          List (Instr × State × Phase)),
      placeOf p.1 = .port ∧ p.2.1.fault = 0 ∧
      part (fun t => (t.fault, t.phase)) (exec p.1 p.2.1) = some (0, p.2.2)) := by decide +kernel

theorem test_witness_StatusWordFields : small.fault = 0 ∧ ({ small with fault := 1 } : State).fault ≠ 0 := by decide

theorem test_witness_SizeCommandsReturnTheCounts : small.fault = 0 ∧ (loadBits [true] small).bpMode = .read := by decide

theorem test_witness_AppendWritesTheField :
    let s : State := { small with bpNbits := 192 }
    let full : State := { small with bpNbits := 256 }
    s.fault = 0 ∧ Store.wf s.bpW = true ∧ s.bpMode = .write ∧ 1 ≤ (64#8).toNat ∧ (64#8).toNat ≤ 64 ∧
    s.bpNbits + (64#8).toNat ≤ 64 * s.cfg.bpMaxWords ∧ (1 : Word) >>> (1#8).toNat = 0 ∧
    full.fault = 0 ∧ Store.wf full.bpW = true ∧ full.bpMode = .write ∧
    ¬ (full.bpNbits + (1#8).toNat ≤ 64 * full.cfg.bpMaxWords) ∧ (0x10 : Word) >>> (4#8).toNat ≠ 0 ∧
    ¬ (1 ≤ (0#8).toNat) ∧ ¬ ((65#8).toNat ≤ 64) ∧ (loadBits [] small).bpMode = .read := by decide

theorem test_witness_AppendEqualsItsWordLevelForm :
    (∀ k, small.bpNbits ≤ k → streamBit small.bpW k = false) ∧ small.bpMode = .write ∧ Store.wf small.bpW = true ∧
    0 % 64 + (64#8).toNat ≤ 64 ∧
    let s : State := { small with bpNbits := 63 }
    (∀ k, s.bpNbits ≤ k → streamBit s.bpW k = false) ∧ 64 < s.bpNbits % 64 + (2#8).toNat ∧
    (2#8).toNat < 64 ∧ (3 : Word) >>> (2#8).toNat = 0 :=
  ⟨fun k _ => streamBit_nil k, by decide, by decide, by decide, fun k _ => streamBit_nil k, by decide, by decide, by decide⟩

theorem test_witness_CloseAppendsTheTrailerAndFreezes :
    let s : State := { small with bpNbits := 123 }
    s.fault = 0 ∧ Store.wf s.bpW = true ∧ s.bpMode = .write ∧ s.bpNbits + 133 ≤ 64 * s.cfg.bpMaxWords ∧
    (loadBits [] small).bpMode = .read ∧ 64 * s.cfg.bpMaxWords < 124 + 133 := by decide

theorem test_witness_FreezeEntersReadMode : small.bpMode = .write ∧ (loadBits [] small).bpMode = .read := by decide

theorem test_witness_ReadReturnsTheNextBits :
    let s := loadBits (List.replicate 64 true) small
    s.fault = 0 ∧ s.bpMode = .read ∧ 1 ≤ (64#8).toNat ∧ (64#8).toNat ≤ s.bpNbits - s.bpRpos ∧ small.bpMode = .write ∧
    ¬ (1 ≤ (0#8).toNat) ∧ ¬ ((65#8).toNat ≤ 64) ∧ (loadBits [true] small).bpNbits - 0 < (2#8).toNat := by decide +kernel

theorem test_witness_ReadRunReturnsTheUnaryRun :
    let s := loadBits [true, true, false] small
    let ones := loadBits [true, true] small
    s.fault = 0 ∧ s.bpMode = .read ∧ 2 < (3#8).toNat ∧ 2 < s.bpNbits - s.bpRpos ∧
    (∀ j, j < 2 → streamBit s.bpW (s.bpRpos + j) = true) ∧ streamBit s.bpW (s.bpRpos + 2) = false ∧
    (∀ j, j < (2#8).toNat → streamBit ones.bpW (ones.bpRpos + j) = true) ∧ (2#8).toNat ≤ ones.bpNbits - ones.bpRpos ∧
    ones.bpNbits - ones.bpRpos < (3#8).toNat ∧
    (∀ j, j < ones.bpNbits - ones.bpRpos → streamBit ones.bpW (ones.bpRpos + j) = true) := by decide +kernel

theorem test_witness_AppendedFieldReadsBack :
    let s : State := { small with bpW := [(0, 0x8000000000000000)], bpNbits := 65 }
    s.fault = 0 ∧ Store.wf s.bpW = true ∧ s.bpMode = .write ∧ s.bpNbits + (58#8).toNat + 133 ≤ 64 * s.cfg.bpMaxWords ∧
    (5 : Word) >>> (58#8).toNat = 0 ∧ (∀ x ∈ [64#8, 1#8], 1 ≤ x.toNat ∧ x.toNat ≤ 64) ∧
    ([64#8, 1#8].map BitVec.toNat).sum = s.bpNbits := by decide

theorem test_witness_TrailerReadsAsEndOfStream :
    let s : State := { small with bpNbits := 123 }
    s.fault = 0 ∧ Store.wf s.bpW = true ∧ s.bpMode = .write ∧ s.bpNbits + 133 ≤ 64 * s.cfg.bpMaxWords ∧
    (∀ x ∈ [64#8, 59#8], 1 ≤ x.toNat ∧ x.toNat ≤ 64) ∧ ([64#8, 59#8].map BitVec.toNat).sum = s.bpNbits := by decide

theorem test_witness_PutAppendsOneByte :
    Memory.wf small.bbB = true ∧ ({ small with bbLen := 23 } : State).bbLen < small.cfg.bbMaxBytes ∧
    small.cfg.bbMaxBytes ≤ ({ small with bbLen := 24 } : State).bbLen := by decide

theorem test_witness_GetConsumesOneByte :
    let s := loadBytes [7] small
    s.fault = 0 ∧ s.bbRpos < s.bbLen ∧ small.bbLen ≤ small.bbRpos := by decide

theorem test_witness_BytesAreReadInTheOrderAppended :
    small.fault = 0 ∧ Memory.wf small.bbB = true ∧ small.bbRpos = small.bbLen ∧
    small.bbLen + (List.replicate 24 (5 : Byte)).length ≤ small.cfg.bbMaxBytes := by decide

theorem test_witness_WindowInitEmptiesTheWindow :
    small.fault = 0 ∧ small.hw.length = small.cfg.ncolMax ∧
    (1#8).toNat < small.cfg.ncolMax ∧ small.cfg.ncolMax ≤ (2#8).toNat := by decide

theorem test_witness_WindowAddInsertsAtTheFront_inserts :
    small.fault = 0 ∧ (1#8).toNat < small.cfg.ncolMax ∧ small.hw.length = small.cfg.ncolMax ∧
    (window small (1#8).toNat).e.length = 127 := by decide +kernel

theorem test_witness_WindowAddInsertsAtTheFront_faults : small.fault = 0 ∧ small.cfg.ncolMax ≤ (2#8).toNat := by decide

theorem test_witness_WindowContainsFindsTheLowestMatch :
    LowestMatch (window (withWindow [1, 2, 2]) 0) 2 1 ∧ NoMatch (window (withWindow [1, 2, 2]) 0) 3 := by
  unfold LowestMatch NoMatch; decide +kernel

theorem test_witness_WindowBestFindsTheBestCandidate :
    0 < (window (withWindow [1]) 0).n ∧ (window small 0).n = 0 := by decide

theorem test_witness_WindowAtAndCountReadTheWindow :
    (1 : Word).toNat < (window (withWindow [1, 2]) 0).n ∧ (window (withWindow [1, 2]) 0).n ≤ (2 : Word).toNat := by decide

theorem test_witness_OldestValueIsEvicted :
    let vs := (List.range 126).map fun k => BitVec.ofNat 64 (k + 2)
    ((0 : Word) :: 1 :: vs).length = 128 ∧ ((0 : Word) :: 1 :: vs).Nodup := by decide +kernel

theorem test_witness_BeginStartsTheSession :
    small.phase = .idle ∧ 1 ≤ small.cfg.bpMaxWords ∧ ({ small with phase := .encDone } : State).phase ≠ .idle ∧
    ({ small with cfg := { smallCfg with bpMaxWords := 0 } } : State).cfg.bpMaxWords = 0 := by decide

theorem test_witness_FirstRowTimestampIsAppended :
    let s : State := { small with phase := .encFirst, anchor := 1000, bpNbits := 64 }
    s.fault = 0 ∧ Store.wf s.bpW = true ∧ s.hw.length = s.cfg.ncolMax ∧ (2#8).toNat ≤ s.cfg.ncolMax ∧ s.bpMode = .write ∧
    ((1000 + 0xFFFFFFFF : Word) - s.anchor).toNat < 2 ^ 32 ∧ s.bpNbits + 32 ≤ 64 * s.cfg.bpMaxWords := by decide

theorem test_witness_LaterRowTimestampIsAppended :
    let s : State := { small with phase := .encRun, bpNbits := 96 }
    s.fault = 0 ∧ Store.wf s.bpW = true ∧ (0 : Byte) = s.ncols ∧ (0#8).toNat ≤ s.cfg.ncolMax ∧ s.bpMode = .write ∧
    ([0, 63, 64, 255, 256, 2047, 2048, 0xFFFFFFFF80000000, 0x80000000] : List Word).all (fun x =>
      decide (s.bpNbits + (encodeTs (tsCodeOf ((x - s.ts) - s.delta))).length ≤ 64 * s.cfg.bpMaxWords)) = true := by decide +kernel

theorem test_witness_RowFaults :
    let first : State := { small with phase := .encFirst, anchor := 1000, bpNbits := 225 }
    let later : State := { small with phase := .encRun, bpNbits := 256 }
    small.phase ≠ .encFirst ∧ small.phase ≠ .encRun ∧ small.cfg.ncolMax < (3#8).toNat ∧ (1 : Byte) ≠ later.ncols ∧
    (1#8).toNat ≤ later.cfg.ncolMax ∧ ({ later with bpMode := .read } : State).bpMode = .read ∧
    2 ^ 32 ≤ ((999 : Word) - first.anchor).toNat ∧ ((1000 : Word) - first.anchor).toNat < 2 ^ 32 ∧
    64 * first.cfg.bpMaxWords < first.bpNbits + 32 ∧ (0 : Byte) = later.ncols ∧
    64 * later.cfg.bpMaxWords < later.bpNbits + (encodeTs (tsCodeOf ((0 - later.ts) - later.delta))).length := by
  decide +kernel

theorem test_witness_FirstRowValueIsAppended :
    let s : State := { inRowOf [] true with bbLen := 16 }
    s.fault = 0 ∧ Memory.wf s.bbB = true ∧ s.phase = .encRow ∧ s.first = true ∧ s.vidx.toNat < s.hw.length ∧
    s.bbLen + 8 ≤ s.cfg.bbMaxBytes := by decide

theorem test_witness_ExactMatchIsOneByte :
    let s : State := { inRowOf [inf, one] false with bbLen := 23 }
    s.fault = 0 ∧ s.phase = .encRow ∧ s.first = false ∧ s.vidx.toNat < s.hw.length ∧ (window s s.vidx.toNat).n ≤ 127 ∧
    LowestMatch (window s s.vidx.toNat) (rawOf s one) 1 ∧ s.bbLen + 1 ≤ s.cfg.bbMaxBytes := by
  unfold LowestMatch; decide +kernel

theorem test_witness_SimilarValueIsXorCoded :
    let s : State := { inRowOf [nan] false with bbLen := 20 }
    let v : Word := 0x4004000000000000
    let x := (window s s.vidx.toNat).entry 0 ^^^ rawOf s v
    s.fault = 0 ∧ NoMatch (window s s.vidx.toNat) (rawOf s v) ∧ BestOffset (window s s.vidx.toNat) (rawOf s v) 0 ∧
    1 < lzb x + tzb x ∧ s.bbLen + 2 + (8 - lzb x - tzb x) ≤ s.cfg.bbMaxBytes := by
  unfold NoMatch BestOffset; decide +kernel

theorem test_witness_DissimilarValueIsEscaped :
    let s : State := { inRowOf [one] false with bbLen := 15 }
    let v : Word := 0x3F00000000000001
    let x := (window s s.vidx.toNat).entry 0 ^^^ rawOf s v
    s.fault = 0 ∧ NoMatch (window s s.vidx.toNat) (rawOf s v) ∧ BestOffset (window s s.vidx.toNat) (rawOf s v) 0 ∧
    lzb x + tzb x ≤ 1 ∧ s.bbLen + 9 ≤ s.cfg.bbMaxBytes := by
  unfold NoMatch BestOffset; decide +kernel

theorem test_witness_ValueFaults :
    let s : State := { inRowOf [one] false with bbLen := 22 }
    let v : Word := 0x3FF0000000000001
    let d := (window s s.vidx.toNat).entry 0 ^^^ rawOf s v
    small.phase ≠ .encRow ∧ s.cfg.bbMaxBytes < 17 + 8 ∧ (window (inRowOf [] false) 0).n = 0 ∧
    0 < (window s 0).n ∧ s.cfg.bbMaxBytes ≤ 24 ∧
    NoMatch (window s s.vidx.toNat) (rawOf s v) ∧ BestOffset (window s s.vidx.toNat) (rawOf s v) 0 ∧
    s.cfg.bbMaxBytes < s.bbLen + (if 1 < lzb d + tzb d then 2 + (8 - lzb d - tzb d) else 9) := by
  unfold NoMatch BestOffset; decide +kernel

theorem test_witness_FinishClosesTheSession :
    let s : State := { small with phase := .encRun, bpNbits := 123 }
    s.fault = 0 ∧ Store.wf s.bpW = true ∧ (s.phase = .encFirst ∨ s.phase = .encRun) ∧ s.bpMode = .write ∧
    s.bpNbits + 133 ≤ 64 * s.cfg.bpMaxWords ∧ ¬ (small.phase = .encFirst ∨ small.phase = .encRun) ∧
    64 * s.cfg.bpMaxWords < 124 + 133 := by decide

theorem test_witness_DecoderInitReadsTheAnchor :
    let s := loadBits (tableBits 64 1000) small
    s.fault = 0 ∧ s.hw.length = s.cfg.ncolMax ∧ (s.phase = .idle ∨ s.phase = .encDone) ∧ (2#8).toNat ≤ s.cfg.ncolMax ∧
    s.bpMode = .read ∧ 64 ≤ s.bpNbits - s.bpRpos ∧ s.cfg.ncolMax < (3#8).toNat ∧ small.bpMode = .write ∧
    (loadBits (tableBits 63 0) small).bpNbits - 0 < 64 ∧
    ¬ ((atRow 0 [] 0 0 []).phase = .idle ∨ (atRow 0 [] 0 0 []).phase = .encDone) := by decide +kernel

theorem test_witness_AllOnesEndTheStream :
    let first : State := { loadBits (List.replicate 32 true) small with phase := .decFirst }
    let later : State := { loadBits (List.replicate 36 true) small with phase := .decRun }
    first.fault = 0 ∧ first.bpMode = .read ∧ 32 ≤ first.bpNbits - first.bpRpos ∧
    (∀ j, j < 32 → streamBit first.bpW (first.bpRpos + j) = true) ∧
    later.fault = 0 ∧ later.bpMode = .read ∧ 36 ≤ later.bpNbits - later.bpRpos ∧
    (∀ j, j < 36 → streamBit later.bpW (later.bpRpos + j) = true) := by decide +kernel

theorem test_witness_FirstRowDecodes :
    let fd : BitVec 32 := 0xFFFFFFFE
    let vs : List Word := [one, inf]
    let s : State := { atRow 2 [] 32 0xFFFFFFFE (vs.flatMap bytes64) with phase := .decFirst }
    s.fault = 0 ∧ s.bpMode = .read ∧ s.dcol = 0 ∧ s.hw.length = s.cfg.ncolMax ∧ s.storedV.length = s.cfg.ncolMax ∧
    s.ncols.toNat ≤ s.cfg.ncolMax ∧ 32 ≤ s.bpNbits - s.bpRpos ∧
    streamBits s.bpW s.bpRpos 32 = fieldBits (fd.setWidth 64) 32 ∧ fd ≠ BitVec.allOnes 32 ∧ vs.length = s.ncols.toNat ∧
    s.bbRpos + 8 * vs.length ≤ s.bbLen ∧ storeBytes s.bbB s.bbRpos (8 * vs.length) = vs.flatMap bytes64 := by decide +kernel

theorem test_witness_LaterRowRunsItsStreamCodes :
    let c : TsCode := .dod7 0x7F
    let cs : List ValCode := [.xor 0 7 1 0x40]
    let s := atRow 1 [one] 9 0b101111111 [0x80, 0x71, 0x40]
    s.fault = 0 ∧ s.phase = .decRun ∧ s.bpMode = .read ∧ s.dcol = 0 ∧ c ≠ .eos ∧ c.toInstr.wf = true ∧
    (∀ x ∈ cs, x.toInstr.wf = true) ∧ cs.length = s.ncols.toNat ∧ (encodeTs c).length ≤ s.bpNbits - s.bpRpos ∧
    streamBits s.bpW s.bpRpos (encodeTs c).length = encodeTs c ∧ s.bbRpos + (cs.flatMap encodeVal).length ≤ s.bbLen ∧
    storeBytes s.bbB s.bbRpos (cs.flatMap encodeVal).length = cs.flatMap encodeVal ∧
    (runInstrs (c.toInstr :: cs.map ValCode.toInstr) s).isSome = true := by decide +kernel

theorem test_witness_DecodeFaults_streams :
    let first : State := { atRow 1 [] 31 0 [] with phase := .decFirst }
    let firstVal : State := { atRow 1 [] 32 0 (List.replicate 7 0) with phase := .decFirst }
    let later := atRow 1 [] 2 3 []
    small.phase ≠ .decFirst ∧ small.phase ≠ .decRun ∧ ({ later with bpMode := .write } : State).phase = .decRun ∧
    first.bpNbits - first.bpRpos < 32 ∧ 32 ≤ firstVal.bpNbits - firstVal.bpRpos ∧
    streamBits firstVal.bpW firstVal.bpRpos 32 ≠ List.replicate 32 true ∧ firstVal.bbRpos ≤ firstVal.bbLen ∧
    firstVal.bbLen < firstVal.bbRpos + 8 * firstVal.ncols.toNat ∧
    decodeTs (streamBits later.bpW later.bpRpos (later.bpNbits - later.bpRpos)) = none := by decide +kernel

theorem test_witness_DecodeFaults_values :
    let c : TsCode := .dod0
    let cs : List ValCode := [.exact 0]
    let len := (cs.flatMap encodeVal).length
    let short := atRow 2 [one] 1 0 [0]
    let bad := atRow 2 [one] 1 0 [0, 0x7F]
    (∀ s ∈ [short, bad], s.fault = 0 ∧ s.phase = .decRun ∧ s.bpMode = .read ∧ s.dcol = 0 ∧ cs.length < s.ncols.toNat ∧
      (encodeTs c).length ≤ s.bpNbits - s.bpRpos ∧ streamBits s.bpW s.bpRpos (encodeTs c).length = encodeTs c ∧
      s.bbRpos + len ≤ s.bbLen ∧ storeBytes s.bbB s.bbRpos len = cs.flatMap encodeVal ∧
      (runInstrs (c.toInstr :: cs.map ValCode.toInstr) s).isSome = true) ∧
    decodeVal (storeBytes short.bbB (short.bbRpos + len) (short.bbLen - (short.bbRpos + len))) = none ∧
    decodeVal (storeBytes bad.bbB (bad.bbRpos + len) (bad.bbLen - (bad.bbRpos + len))) = some (.exact 0x7F, []) ∧
    ((runInstrs (c.toInstr :: cs.map ValCode.toInstr) bad).map fun u => answer (exec (.valExact 0x7F) u)) =
      some (faulted 10) := by decide +kernel

theorem test_witness_CurrentRowIsRead :
    (atRow 2 [] 0 0 []).phase = .decRun ∧ (1#8).toNat < (atRow 2 [] 0 0 []).ncols.toNat ∧
    (atRow 2 [] 0 0 []).ncols.toNat ≤ (2#8).toNat ∧ small.phase ≠ .decRun := by decide

theorem test_witness_stream_codes :
    let s := atRow 1 [one] 0 0 []
    s.fault = 0 ∧ s.phase = .decRun ∧ s.dcol < s.ncols.toNat ∧ (0xFFFFFFFE : BitVec 32) ≠ BitVec.allOnes 32 ∧
    (0#7).toNat < (window s 0).n ∧ (window s 0).n ≤ (1#7).toNat ∧ (6#4).toNat + (2#4).toNat ≤ 8 ∧
    8 < (4#4).toNat + (5#4).toNat ∧ (small.phase = .idle ∨ small.phase = .encDone) ∧
    ({ s with phase := .decFirst } : State).phase = .decFirst := by decide

theorem test_witness_ExportReadsTheStores :
    let s := { loadBytes [1, 2] small with bpMode := .read, bpNbits := 65, bpRpos := 63 }
    s.bpRpos / 64 ≤ (0 : Word).toNat ∧ 64 * (1 : Word).toNat < s.bpNbits ∧ s.bpNbits ≤ 64 * (2 : Word).toNat ∧
    (0 : Word).toNat < ({ s with bpRpos := 64 } : State).bpRpos / 64 ∧ (1 : Word).toNat < s.bbLen ∧
    s.bbLen ≤ (2 : Word).toNat := by decide

theorem test_witness_ChosenValueCodeDecodesToTheValue :
    (windowOf [one]).n ≤ 127 ∧ 0 < (windowOf [one]).n ∧
    [one, inf, 0x4000000000000001].all (fun v => (chooseCode (windowOf [one]) v).toOption.isSome) = true := by decide +kernel

theorem test_witness_ChosenTimestampCodeDecodesToTheDelta :
    (2 ^ 31 - 1 : Word).toInt.natAbs ≤ 2 ^ 31 - 1 ∧ (-(2 ^ 31 - 1) : Word).toInt.natAbs ≤ 2 ^ 31 - 1 := by decide

theorem test_witness_SessionRoundTrips :
    Inv small ∧ small.fault = 0 ∧ small.phase = .idle ∧ (1#8).toNat ≤ small.cfg.ncolMax ∧
    (∀ r ∈ sessionRows, r.2.length = (1#8).toNat) ∧ timesSupported 1000 (sessionRows.map Prod.fst) ∧
    (runInstrs (sessionCommands 1000 sessionRows) small).isSome = true :=
  ⟨test_small_inv, by decide, by decide, by decide, by decide, ⟨by decide, by decide, trivial⟩, by decide +kernel⟩

theorem test_witness_DecoderWindowsKeepLockStep :
    ((runInstrs (sessionCommands 1000 sessionRows) small).map fun e => answer (exec (.decInit 1) e)) = some (done 0 0) ∧
    1 < sessionRows.length ∧ 0 < (1#8).toNat := by decide +kernel

end Sys2Proof.Tests
end

section
/-! SUPPORT. What a step can do, said once: the step's three cases, the instructions a command word can stand for, and for
every instruction the answers it can give (`exec_answers`), with the effect of a command that completes (`Completes`). -/

namespace Sys2Proof.Machine

/-! ## The step and the command word (R70, R71, R74, R75) -/

/-- A step holds the state, runs the decoded instruction, or answers an illegal command word. -/
theorem step_cases {s t : State} (h : step s = .next t) :
    (s.port = [] ∧ t = s) ∨
    (∃ c rest i, s.port = c :: rest ∧ decodeCommand c = some i ∧ exec i { s with port := rest } = .next t) ∨
    (∃ c rest, s.port = c :: rest ∧ illegalCommand c.cw { s with port := rest } = .next t) := by
  unfold step fetchCommand at h
  cases hp : s.port with
  | nil =>
    rw [hp] at h
    cases h
    exact .inl ⟨rfl, rfl⟩
  | cons c rest =>
    simp only [hp] at h
    cases hd : decodeCommand c with
    | none => rw [hd] at h; exact .inr (.inr ⟨c, rest, rfl, h⟩)
    | some i => rw [hd] at h; exact .inr (.inl ⟨c, rest, i, rfl, hd, h⟩)

/-- A command word is its opcode and its immediate (R71). -/
theorem commandWord_fields (cw : BitVec 16) : commandWord (opField cw) (immField cw) = cw :=
  (BitVec.extractLsb'_append_extractLsb'_eq_extractLsb' rfl).trans BitVec.extractLsb'_eq_self

theorem rsv_eq_some {imm : Byte} {i j : Instr} : rsv imm i = some j ↔ imm = 0 ∧ j = i := by
  unfold rsv
  split
  · simp only [*, true_and, Option.some.injEq, eq_comm]
  · simp only [*, false_and, reduceCtorEq]

/-- Only the word `0x0100` is `CORE.RESET` (R74). -/
theorem decodeCommand_coreReset {c : Command} (h : decodeCommand c = some .coreReset) : c.cw = 0x0100 := by
  have hfields : (opField c.cw).toNat = 1 ∧ immField c.cw = 0 := by
    unfold decodeCommand decodeOp at h
    split at h <;> simp_all [rsv_eq_some]
  obtain ⟨hop, himm⟩ := hfields
  have hop' : opField c.cw = 1 := BitVec.eq_of_toNat_eq hop
  rw [← commandWord_fields c.cw, hop', himm]
  rfl

/-- A command word stands for an instruction of the port, never for a stream code (R68, R74). -/
theorem placeOf_decodeCommand {c : Command} {i : Instr} (h : decodeCommand c = some i) : placeOf i = .port := by
  have hall : (decodeCommand c).all (fun j => decide (placeOf j = .port)) = true := by
    unfold decodeCommand decodeOp
    split <;> simp [rsv, apply_ite, placeOf]
  simpa [h] using hall

/-! ## What a command that completes does -/

/-- The effect of a command that completes, apart from its response: the state it leaves, by the operation of the unit it
belongs to. `CORE.RESET`, `NOP` and `CORE.STATUS` run in a faulted core too and stand in `Answers`. -/
inductive Completes : Instr → State → State → Prop
  | readOnly {i s} (hi : readOnly i = true) : Completes i s s
  | bpAppend {w din s t} (h : bpAppend din (immNat w) s = .ok t) : Completes (.bpAppend w din) s t
  | bpClose {s t} (h : bpClose s = .ok t) : Completes .bpClose s t
  | bpRead {w s r t} (h : bpRead (immNat w) s = .ok (r, t)) : Completes (.bpRead w) s t
  | bpReadrun {m s r t} (h : bpReadRun (immNat m) s = .ok (r, t)) : Completes (.bpReadrun m) s t
  | bpFreeze {s t} (h : bpFreeze s = .ok t) : Completes .bpFreeze s t
  | bbPut {din s t} (h : bbPut (dinByte din) s = .ok t) : Completes (.bbPut din) s t
  | bbGet {s b t} (h : bbGet s = .ok (b, t)) : Completes .bbGet s t
  | hwInit {col s c} (h : columnCheck s col = .ok c) : Completes (.hwInit col) s (hwInit c s)
  | hwAdd {col din s c} (h : columnCheck s col = .ok c) : Completes (.hwAdd col din) s (hwAdd c din s)
  | encBegin {din s t} (hp : s.phase = .idle) (h : bpAppend din 64 (startEncoder din (clearStores s)) = .ok t) :
      Completes (.encBegin din) s { t with phase := .encFirst }
  | encRow {n din s t} (hp : s.phase = .encFirst ∨ s.phase = .encRun) (hn : n.toNat ≤ s.cfg.ncolMax)
      (h : rowTimestamp n din s = .ok t) : Completes (.encRow n din) s (enterRow t)
  | encVal {din s t} (hp : s.phase = .encRow) (h : appendValue s.vidx.toNat (canonical din s) s = .ok t) :
      Completes (.encVal din) s (nextColumn (hwAdd s.vidx.toNat (canonical din s) t))
  | encFinish {s t} (hp : s.phase = .encFirst ∨ s.phase = .encRun) (h : bpClose s = .ok t) :
      Completes .encFinish s { t with phase := .encDone }
  | decInit {n s a t} (hp : s.phase = .idle ∨ s.phase = .encDone) (hn : n.toNat ≤ s.cfg.ncolMax)
      (h : bpRead 64 s = .ok (a, t)) : Completes (.decInit n) s (startDecoder n (takeAnchor a t))
  | decNext {s ended t} (hp : s.phase = .decFirst ∨ s.phase = .decRun) (h : decodeRow s = .ok (ended, t)) :
      Completes .decNext s (finishNext ended t).1

/-- The effect of a stream code that completes (R180 to R188). -/
inductive CodeEffect : State → State → Prop
  | anchor {s} (a : Word) : CodeEffect s (takeAnchor a s)
  | firstDelta {s} (d : BitVec 32) : CodeEffect s (takeFirstDelta d s)
  | dod {s} (u : Word) : CodeEffect s (takeDod u s)
  | endOfStream {s} : CodeEffect s (takeEnd s)
  | value {s} (v : Word) : CodeEffect s (storeValue v s)

/-- The answers an instruction can give (R201, R203, R225 to R227). -/
inductive Answers : Instr → State → State → Prop
  | nop {s} : Answers .nop s (respond 0 0 s)
  | coreReset {s} : Answers .coreReset s (respond 0 0 (resetCore s))
  | coreStatus {s} : Answers .coreStatus s (respond (statusWord s) 0 s)
  | refused {i s} (hs : s.fault ≠ 0) : Answers i s (refuse s)
  | faulted {i s} (hs : s.fault = 0) (c : FaultCode) : Answers i s (takeFault c (opcodeOf i) s)
  | completed {i s u} (hs : s.fault = 0) (h : Completes i s u) (r0 r1 : Word) : Answers i s (respond r0 r1 u)
  | coded {i s t} (hi : placeOf i ≠ .port) (hs : s.fault = 0) (h : CodeEffect s t) : Answers i s t

/-- A command of the common frame answers as soon as its body's results are effects of the command. -/
theorem runCommand_answers {i : Instr} {s t : State} {body : State → Comp (State × Word × Word)}
    (h : runCommand i s body = .next t) (hb : ∀ u r0 r1, body s = .ok (u, r0, r1) → Completes i s u) : Answers i s t := by
  rcases runCommand_cases i s body with ⟨hs, e⟩ | ⟨hs, u, r0, r1, hu, e⟩ | ⟨hs, c, _, e⟩ <;> rw [e] at h <;> cases h
  · exact .refused hs
  · exact .completed hs (hb u r0 r1 hu) r0 r1
  · exact .faulted hs c

/-- A read-only command of the common frame answers as soon as its body's results leave the state as it was. -/
theorem runCommand_answers_readOnly {i : Instr} {s t : State} {body : State → Comp (State × Word × Word)}
    (h : runCommand i s body = .next t) (hi : readOnly i = true) (hb : ∀ u r0 r1, body s = .ok (u, r0, r1) → u = s) :
    Answers i s t :=
  runCommand_answers h fun u r0 r1 hu => hb u r0 r1 hu ▸ .readOnly hi

theorem runCode_answers {i : Instr} {ps : List Phase} {s t : State} {body : State → Comp State}
    (h : runCode i ps s body = .next t) (hi : placeOf i ≠ .port) (hb : ∀ u, body s = .ok u → CodeEffect s u) :
    Answers i s t := by
  rcases runCode_cases i ps s body with ⟨hs, e⟩ | ⟨hs, _, e⟩ | ⟨hs, _, u, hu, e⟩ | ⟨hs, _, c, _, e⟩ <;>
    rw [e] at h <;> cases h
  · exact .refused hs
  · exact .faulted hs _
  · exact .coded hi hs (hb _ hu)
  · exact .faulted hs c

theorem takeValCode_effect {c : ValCode} {s t : State} (h : takeValCode c s = .ok t) : CodeEffect s t := by
  obtain ⟨v, _, e⟩ := (bind_eq_ok _ _ _).1 h
  cases e
  exact .value v

theorem inRow_eq_ok {s t : State} {body : State → Comp State} (h : inRow s body = .ok t) : body s = .ok t :=
  ((check_eq_ok _ _ _ _).1 h).2

theorem takeEnd_or_effect {p : Prop} [Decidable p] {s t u : State} (ht : CodeEffect s t)
    (h : (.ok (if p then takeEnd s else t) : Comp State) = .ok u) : CodeEffect s u := by
  cases h
  split
  · exact .endOfStream
  · exact ht

/-! ## The answers of each instruction -/

/-- A command that only updates the state. -/
theorem runCommand_answers_update {i : Instr} {s t : State} {f : State → Comp State}
    (h : runCommand i s (fun s => do let u ← f s; return (u, 0, 0)) = .next t)
    (hf : ∀ u, f s = .ok u → Completes i s u) : Answers i s t := by
  refine runCommand_answers h fun u r0 r1 hb => ?_
  obtain ⟨v, hv, e⟩ := (bind_eq_ok _ _ _).1 hb
  cases e
  exact hf _ hv

/-- A command that reads a value and moves a cursor. -/
theorem runCommand_answers_read {α : Type} {i : Instr} {s t : State} {f : State → Comp (α × State)} {g : α → Word}
    (h : runCommand i s (fun s => do let (r, u) ← f s; return (u, g r, 0)) = .next t)
    (hf : ∀ r u, f s = .ok (r, u) → Completes i s u) : Answers i s t := by
  refine runCommand_answers h fun u r0 r1 hb => ?_
  obtain ⟨⟨r, v⟩, hv, e⟩ := (bind_eq_ok _ _ _).1 hb
  cases e
  exact hf _ _ hv

theorem countCheck_eq_ok {s : State} {n : Byte} {x : Unit} (h : countCheck s n = .ok x) : n.toNat ≤ s.cfg.ncolMax :=
  Nat.le_of_not_lt ((check_eq_ok _ _ _ _).1 h).1

/-- One of the two phases a session command is legal in (R243). -/
theorem phase_of_check {p a b : Phase} (h : ¬ (p ≠ a ∧ p ≠ b)) : p = a ∨ p = b := by tauto

theorem execBpAppend_answers {w : Byte} {din : Word} {s t : State} (h : execBpAppend w din s = .next t) :
    Answers (.bpAppend w din) s t := runCommand_answers_update h fun _ => .bpAppend

theorem execBpClose_answers {s t : State} (h : execBpClose s = .next t) : Answers .bpClose s t :=
  runCommand_answers_update h fun _ => .bpClose

theorem execBpRead_answers {w : Byte} {s t : State} (h : execBpRead w s = .next t) : Answers (.bpRead w) s t :=
  runCommand_answers_read (g := id) h fun _ _ => .bpRead

theorem execBpReadrun_answers {m : Byte} {s t : State} (h : execBpReadrun m s = .next t) : Answers (.bpReadrun m) s t :=
  runCommand_answers_read (g := id) h fun _ _ => .bpReadrun

theorem execBpFreeze_answers {s t : State} (h : execBpFreeze s = .next t) : Answers .bpFreeze s t :=
  runCommand_answers_update h fun _ => .bpFreeze

theorem execBbPut_answers {din : Word} {s t : State} (h : execBbPut din s = .next t) : Answers (.bbPut din) s t :=
  runCommand_answers_update h fun _ => .bbPut

theorem execBbGet_answers {s t : State} (h : execBbGet s = .next t) : Answers .bbGet s t :=
  runCommand_answers_read h fun _ _ => .bbGet

theorem execHwInit_answers {col : Byte} {s t : State} (h : execHwInit col s = .next t) : Answers (.hwInit col) s t := by
  refine runCommand_answers h fun u r0 r1 hb => ?_
  obtain ⟨c, hc, e⟩ := (bind_eq_ok _ _ _).1 hb
  cases e
  exact .hwInit hc

theorem execHwAdd_answers {col : Byte} {din : Word} {s t : State} (h : execHwAdd col din s = .next t) :
    Answers (.hwAdd col din) s t := by
  refine runCommand_answers h fun u r0 r1 hb => ?_
  obtain ⟨c, hc, e⟩ := (bind_eq_ok _ _ _).1 hb
  cases e
  exact .hwAdd hc

theorem execHwContains_answers {col : Byte} {din : Word} {s t : State} (h : execHwContains col din s = .next t) :
    Answers (.hwContains col din) s t := by
  refine runCommand_answers_readOnly h rfl fun u r0 r1 hb => ?_
  obtain ⟨c, _, e⟩ := (bind_eq_ok _ _ _).1 hb
  exact congrArg Prod.fst (Except.ok.inj e).symm

theorem execHwBest_answers {col : Byte} {din : Word} {s t : State} (h : execHwBest col din s = .next t) :
    Answers (.hwBest col din) s t := by
  refine runCommand_answers_readOnly h rfl fun u r0 r1 hb => ?_
  obtain ⟨c, _, hb⟩ := (bind_eq_ok _ _ _).1 hb
  obtain ⟨⟨k, x⟩, _, e⟩ := (bind_eq_ok _ _ _).1 hb
  exact congrArg Prod.fst (Except.ok.inj e).symm

theorem execHwAt_answers {col : Byte} {din : Word} {s t : State} (h : execHwAt col din s = .next t) :
    Answers (.hwAt col din) s t := by
  refine runCommand_answers_readOnly h rfl fun u r0 r1 hb => ?_
  obtain ⟨c, _, hb⟩ := (bind_eq_ok _ _ _).1 hb
  obtain ⟨x, _, e⟩ := (bind_eq_ok _ _ _).1 hb
  exact congrArg Prod.fst (Except.ok.inj e).symm

theorem execHwCount_answers {col : Byte} {s t : State} (h : execHwCount col s = .next t) : Answers (.hwCount col) s t := by
  refine runCommand_answers_readOnly h rfl fun u r0 r1 hb => ?_
  obtain ⟨c, _, e⟩ := (bind_eq_ok _ _ _).1 hb
  exact congrArg Prod.fst (Except.ok.inj e).symm

theorem execEncBegin_answers {din : Word} {s t : State} (h : execEncBegin din s = .next t) :
    Answers (.encBegin din) s t := by
  refine runCommand_answers h fun u r0 r1 hb => ?_
  obtain ⟨hp, hb⟩ := (check_eq_ok _ _ _ _).1 hb
  obtain ⟨v, hv, e⟩ := (bind_eq_ok _ _ _).1 hb
  cases e
  exact .encBegin (not_not.1 hp) hv

theorem execEncRow_answers {n : Byte} {din : Word} {s t : State} (h : execEncRow n din s = .next t) :
    Answers (.encRow n din) s t := by
  refine runCommand_answers h fun u r0 r1 hb => ?_
  obtain ⟨hp, hb⟩ := (check_eq_ok _ _ _ _).1 hb
  obtain ⟨_, hn, hb⟩ := (bind_eq_ok _ _ _).1 hb
  obtain ⟨v, hv, e⟩ := (bind_eq_ok _ _ _).1 hb
  cases e
  exact .encRow (phase_of_check hp) (countCheck_eq_ok hn) hv

theorem execEncVal_answers {din : Word} {s t : State} (h : execEncVal din s = .next t) : Answers (.encVal din) s t := by
  refine runCommand_answers h fun u r0 r1 hb => ?_
  obtain ⟨hp, hb⟩ := (check_eq_ok _ _ _ _).1 hb
  obtain ⟨v, hv, e⟩ := (bind_eq_ok _ _ _).1 hb
  cases e
  exact .encVal (not_not.1 hp) hv

theorem execEncFinish_answers {s t : State} (h : execEncFinish s = .next t) : Answers .encFinish s t := by
  refine runCommand_answers h fun u r0 r1 hb => ?_
  obtain ⟨hp, hb⟩ := (check_eq_ok _ _ _ _).1 hb
  obtain ⟨v, hv, e⟩ := (bind_eq_ok _ _ _).1 hb
  cases e
  exact .encFinish (phase_of_check hp) hv

theorem execDecInit_answers {n : Byte} {s t : State} (h : execDecInit n s = .next t) : Answers (.decInit n) s t := by
  refine runCommand_answers h fun u r0 r1 hb => ?_
  obtain ⟨hp, hb⟩ := (check_eq_ok _ _ _ _).1 hb
  obtain ⟨_, hn, hb⟩ := (bind_eq_ok _ _ _).1 hb
  obtain ⟨⟨a, v⟩, hv, e⟩ := (bind_eq_ok _ _ _).1 hb
  cases e
  exact .decInit (phase_of_check hp) (countCheck_eq_ok hn) hv

theorem execDecNext_answers {s t : State} (h : execDecNext s = .next t) : Answers .decNext s t := by
  refine runCommand_answers h fun u r0 r1 hb => ?_
  obtain ⟨hp, hb⟩ := (check_eq_ok _ _ _ _).1 hb
  obtain ⟨⟨ended, v⟩, hv, e⟩ := (bind_eq_ok _ _ _).1 hb
  have hu : u = (finishNext ended v).1 := congrArg Prod.fst (Except.ok.inj e).symm
  exact hu ▸ .decNext (phase_of_check hp) hv

theorem execDecTs_answers {s t : State} (h : execDecTs s = .next t) : Answers .decTs s t := by
  refine runCommand_answers_readOnly h rfl fun u r0 r1 hb => ?_
  obtain ⟨_, e⟩ := (check_eq_ok _ _ _ _).1 hb
  exact congrArg Prod.fst (Except.ok.inj e).symm

theorem execDecVal_answers {col : Byte} {s t : State} (h : execDecVal col s = .next t) : Answers (.decVal col) s t := by
  refine runCommand_answers_readOnly h rfl fun u r0 r1 hb => ?_
  obtain ⟨_, hb⟩ := (check_eq_ok _ _ _ _).1 hb
  obtain ⟨_, e⟩ := (check_eq_ok _ _ _ _).1 hb
  exact congrArg Prod.fst (Except.ok.inj e).symm

theorem execExpWord_answers {din : Word} {s t : State} (h : execExpWord din s = .next t) : Answers (.expWord din) s t := by
  refine runCommand_answers_readOnly h rfl fun u r0 r1 hb => ?_
  obtain ⟨_, e⟩ := (check_eq_ok _ _ _ _).1 hb
  exact congrArg Prod.fst (Except.ok.inj e).symm

theorem execExpByte_answers {din : Word} {s t : State} (h : execExpByte din s = .next t) : Answers (.expByte din) s t := by
  refine runCommand_answers_readOnly h rfl fun u r0 r1 hb => ?_
  obtain ⟨_, e⟩ := (check_eq_ok _ _ _ _).1 hb
  exact congrArg Prod.fst (Except.ok.inj e).symm

/-- A command whose body only computes a response from the state (R61). -/
theorem runCommand_answers_response {i : Instr} {s t : State} {f g : State → Word}
    (h : runCommand i s (fun s => .ok (s, f s, g s)) = .next t) (hi : readOnly i = true) : Answers i s t :=
  runCommand_answers_readOnly h hi fun _ _ _ e => congrArg Prod.fst (Except.ok.inj e).symm

theorem execBpSize_answers {s t : State} (h : execBpSize s = .next t) : Answers .bpSize s t :=
  runCommand_answers_response (f := fun s => countWord (bpSizeBits s)) (g := fun _ => 0) h rfl

theorem execBbLen_answers {s t : State} (h : execBbLen s = .next t) : Answers .bbLen s t :=
  runCommand_answers_response (f := fun s => countWord s.bbLen) (g := fun s => countWord s.bbRpos) h rfl

theorem execEncBitsize_answers {s t : State} (h : execEncBitsize s = .next t) : Answers .encBitsize s t :=
  runCommand_answers_response (f := fun s => countWord (bpSizeBits s + 8 * s.bbLen)) (g := fun _ => 0) h rfl

theorem execExpNwords_answers {s t : State} (h : execExpNwords s = .next t) : Answers .expNwords s t :=
  runCommand_answers_response (f := fun s => countWord (wordsInUse s)) (g := fun s => countWord s.bpNbits) h rfl

/-- A stream code whose effect is always possible. -/
theorem runCode_answers_total {i : Instr} {ps : List Phase} {s t : State} {f : State → State}
    (h : runCode i ps s (fun s => .ok (f s)) = .next t) (hi : placeOf i ≠ .port) (hf : CodeEffect s (f s)) :
    Answers i s t :=
  runCode_answers h hi fun _ e => Except.ok.inj e ▸ hf

theorem execTsFirstdelta_answers {d : BitVec 32} {s t : State} (h : execTsFirstdelta d s = .next t) :
    Answers (.tsFirstdelta d) s t :=
  runCode_answers h nofun fun _ => takeEnd_or_effect (.firstDelta d)

theorem execTsDod32_answers {p : BitVec 32} {s t : State} (h : execTsDod32 p s = .next t) : Answers (.tsDod32 p) s t :=
  runCode_answers h nofun fun _ => takeEnd_or_effect (.dod _)

/-- A later row's value code (R186 to R188). -/
theorem runCode_answers_valCode {i : Instr} {ps : List Phase} {s t : State} {c : ValCode}
    (h : runCode i ps s (fun s => inRow s (takeValCode c)) = .next t) (hi : placeOf i ≠ .port) : Answers i s t :=
  runCode_answers h hi fun _ hu => takeValCode_effect (inRow_eq_ok hu)

theorem execValFirst_answers {v : Word} {s t : State} (h : execValFirst v s = .next t) : Answers (.valFirst v) s t := by
  refine runCode_answers h nofun fun u hu => ?_
  cases inRow_eq_ok hu
  exact .value v

/-- Everything an instruction that answers a next state can have done. -/
theorem exec_answers {i : Instr} {s t : State} (h : exec i s = .next t) : Answers i s t := by
  cases i with
  | nop => cases h; exact .nop
  | coreReset => cases h; exact .coreReset
  | coreStatus => cases h; exact .coreStatus
  | bpAppend w din => exact execBpAppend_answers h
  | bpClose => exact execBpClose_answers h
  | bpRead w => exact execBpRead_answers h
  | bpSize => exact execBpSize_answers h
  | bpReadrun m => exact execBpReadrun_answers h
  | bpFreeze => exact execBpFreeze_answers h
  | bbPut din => exact execBbPut_answers h
  | bbGet => exact execBbGet_answers h
  | bbLen => exact execBbLen_answers h
  | hwInit col => exact execHwInit_answers h
  | hwAdd col din => exact execHwAdd_answers h
  | hwContains col din => exact execHwContains_answers h
  | hwBest col din => exact execHwBest_answers h
  | hwAt col din => exact execHwAt_answers h
  | hwCount col => exact execHwCount_answers h
  | encBegin din => exact execEncBegin_answers h
  | encRow n din => exact execEncRow_answers h
  | encVal din => exact execEncVal_answers h
  | encFinish => exact execEncFinish_answers h
  | encBitsize => exact execEncBitsize_answers h
  | decInit n => exact execDecInit_answers h
  | decNext => exact execDecNext_answers h
  | decTs => exact execDecTs_answers h
  | decVal col => exact execDecVal_answers h
  | expNwords => exact execExpNwords_answers h
  | expWord din => exact execExpWord_answers h
  | expByte din => exact execExpByte_answers h
  | tsAnchor a => exact runCode_answers_total (f := takeAnchor a) h nofun (.anchor a)
  | tsFirstdelta d => exact execTsFirstdelta_answers h
  | tsDod0 => exact runCode_answers_total (f := takeDod (tsPayload .dod0)) h nofun (.dod _)
  | tsDod7 p => exact runCode_answers_total (f := takeDod (tsPayload (.dod7 p))) h nofun (.dod _)
  | tsDod9 p => exact runCode_answers_total (f := takeDod (tsPayload (.dod9 p))) h nofun (.dod _)
  | tsDod12 p => exact runCode_answers_total (f := takeDod (tsPayload (.dod12 p))) h nofun (.dod _)
  | tsDod32 p => exact execTsDod32_answers h
  | tsEos => exact runCode_answers_total (f := takeEnd) h nofun .endOfStream
  | bpTrailer => exact runCode_answers_total (f := takeEnd) h nofun .endOfStream
  | valExact x => exact runCode_answers_valCode (c := .exact x) h nofun
  | valXor k t l y => exact runCode_answers_valCode (c := .xor k t l y) h nofun
  | valEscape v => exact runCode_answers_valCode (c := .escape v) h nofun
  | valFirst v => exact execValFirst_answers h

end Sys2Proof.Machine
end

section
/-! SUPPORT. What the composed operations of the Encoder and the Decoder do to the state, as sequences of elementary moves: the
appends of a row's timestamp, and the cursor moves and stored values of a decoded row. An invariant is then checked once per
move. -/

namespace Sys2Proof.Machine

/-! ## Appends (R101, R103, R153 to R155) -/

/-- One `BPAppend` that answers. -/
def BitAppend (s t : State) : Prop := ∃ v w, bpAppend v w s = .ok t

/-- Any number of appends. -/
abbrev BitAppends : State → State → Prop := Relation.ReflTransGen BitAppend

/-- An append needs write mode and leaves it. -/
theorem BitAppend.mode {s t : State} (h : BitAppend s t) : s.bpMode = .write ∧ t.bpMode = .write := by
  obtain ⟨v, w, h⟩ := h
  obtain ⟨hm, _, _, _, rfl⟩ := (bpAppend_eq_ok _ _ _ _).1 h
  exact ⟨hm, hm⟩

/-- Appends change the stream's words and their number only. -/
theorem BitAppends.frame {s t : State} (h : BitAppends s t) : ∃ m n, t = { s with bpW := m, bpNbits := n } := by
  induction h with
  | refl => exact ⟨s.bpW, s.bpNbits, rfl⟩
  | tail _ h ih =>
    obtain ⟨m, n, rfl⟩ := ih
    obtain ⟨v, w, h⟩ := h
    obtain ⟨_, _, _, _, rfl⟩ := (bpAppend_eq_ok _ _ _ _).1 h
    exact ⟨_, _, rfl⟩

/-- A close is appends in write mode, then read mode (R103). -/
theorem bpClose_appends {s t : State} (h : bpClose s = .ok t) :
    s.bpMode = .write ∧ ∃ u, BitAppends s u ∧ t = enterRead u := by
  obtain ⟨hm, h⟩ := (check_eq_ok _ _ _ _).1 h
  obtain ⟨_, h⟩ := (check_eq_ok _ _ _ _).1 h
  obtain ⟨s1, h1, h⟩ := (bind_eq_ok _ _ _).1 h
  obtain ⟨s2, h2, h⟩ := (bind_eq_ok _ _ _).1 h
  obtain ⟨s3, h3, h⟩ := (bind_eq_ok _ _ _).1 h
  obtain ⟨s4, h4, h⟩ := (bind_eq_ok _ _ _).1 h
  exact ⟨not_not.1 hm, s4, .head ⟨_, _, h1⟩ (.head ⟨_, _, h2⟩ (.head ⟨_, _, h3⟩ (.single ⟨_, _, h4⟩))),
    (Except.ok.inj h).symm⟩

theorem bpFreeze_eq_ok {s t : State} (h : bpFreeze s = .ok t) : s.bpMode = .write ∧ t = enterRead s := by
  unfold bpFreeze at h
  rw [check_eq_ok, ok_eq_ok] at h
  exact ⟨not_not.1 h.1, h.2⟩

/-- A bucket's code is one append or two (R154, R155). -/
theorem appendBucket_appends {u : Word} {s t : State} (h : appendBucket u s = .ok t) :
    s.bpMode = .write ∧ BitAppends s t := by
  have one (h : BitAppend s t) : s.bpMode = .write ∧ BitAppends s t := ⟨h.mode.1, .single h⟩
  unfold appendBucket at h
  split at h
  · exact one ⟨_, _, h⟩
  · split at h
    · exact one ⟨_, _, h⟩
    · split at h
      · exact one ⟨_, _, h⟩
      · obtain ⟨s1, h1, h2⟩ := (bind_eq_ok _ _ _).1 h
        have ha : BitAppend s s1 := ⟨_, _, h1⟩
        exact ⟨ha.mode.1, .head ha (.single ⟨_, _, h2⟩)⟩

theorem appendDod_appends {d : Word} {s t : State} (h : appendDod d s = .ok t) : s.bpMode = .write ∧ BitAppends s t := by
  unfold appendDod at h
  split at h
  · have ha : BitAppend s t := ⟨_, _, h⟩
    exact ⟨ha.mode.1, .single ha⟩
  · exact appendBucket_appends h

/-- The state a row's timestamp is appended to: the first row takes its column count and empties its windows (R152). -/
def rowStart (n : Byte) (s : State) : State :=
  if s.phase = .encFirst then hwInitBelow (immNat n) { s with ncols := n } else s

/-- A row's timestamp is appended in write mode, then enters the codec registers; a later row has the first row's column
count (R151 to R153). -/
theorem rowTimestamp_appends {n : Byte} {x : Word} {s t : State} (h : rowTimestamp n x s = .ok t) :
    (s.phase ≠ .encFirst → n = s.ncols) ∧ (rowStart n s).bpMode = .write ∧
    ∃ u d f, BitAppends (rowStart n s) u ∧ t = { u with ts := x, delta := d, first := f } := by
  unfold rowTimestamp at h
  unfold rowStart
  split at h
  · next hp =>
    obtain ⟨u, hu, e⟩ := (bind_eq_ok _ _ _).1 h
    have ha : BitAppend (hwInitBelow (immNat n) { s with ncols := n }) u := ⟨_, _, hu⟩
    rw [if_pos hp]
    exact ⟨absurd hp, ha.mode.1, u, _, _, .single ha, (Except.ok.inj e).symm⟩
  · next hp =>
    obtain ⟨hn, h⟩ := (check_eq_ok _ _ _ _).1 h
    obtain ⟨u, hu, e⟩ := (bind_eq_ok _ _ _).1 h
    obtain ⟨hm, ha⟩ := appendDod_appends hu
    rw [if_neg hp]
    exact ⟨fun _ => not_not.1 hn, hm, u, _, u.first, ha, (Except.ok.inj e).symm⟩

/-! ## Windows -/

/-- Emptying the windows below a column changes the windows only (R152, R180). -/
theorem hwInitBelow_eq (n : Nat) (s : State) : hwInitBelow n s = { s with hw := (hwInitBelow n s).hw } := by
  obtain ⟨h, _⟩ := hwInitBelow_frame n s
  exact congrArg (fun u => { u with hw := (hwInitBelow n s).hw }) h

/-- The start of a row changes the column count and the windows only. -/
theorem rowStart_eq (n : Byte) (s : State) :
    rowStart n s = { s with ncols := (rowStart n s).ncols, hw := (rowStart n s).hw } := by
  unfold rowStart
  split
  · rw [hwInitBelow_eq]
  · rfl

/-- The value of a row is bytes appended to the ByteBuffer (R157, R158, R160 to R162). -/
theorem appendValue_bytes {c : Nat} {raw : Word} {s t : State} (h : appendValue c raw s = .ok t) :
    ∃ l, bbPutAll l s = .ok t := by
  unfold appendValue at h
  split at h
  · exact ⟨_, h⟩
  · obtain ⟨code, _, h⟩ := (bind_eq_ok _ _ _).1 h
    exact ⟨_, h⟩

/-! ## The Decoder's moves (R180 to R188) -/

/-- What the Decoder does to the state while it reads a row: the BitPacker's cursor moves in read mode and within the stream,
the ByteBuffer's cursor within its bytes, a value is stored, the loop variable or the codec's times are set. -/
inductive DecoderMove : State → State → Prop
  | bits {s} (p : Nat) (hm : s.bpMode = .read) (hp : s.bpRpos ≤ s.bpNbits → p ≤ s.bpNbits) :
      DecoderMove s { s with bpRpos := p }
  | bytes {s} (p : Nat) (hp : p ≤ s.bbLen) : DecoderMove s { s with bbRpos := p }
  | value {s} (v : Word) : DecoderMove s (storeValue v s)
  | column {s} (d : Nat) : DecoderMove s { s with dcol := d }
  | times {s} (x d : Word) : DecoderMove s { s with ts := x, delta := d }

/-- Any number of the Decoder's moves. -/
abbrev DecoderMoves : State → State → Prop := Relation.ReflTransGen DecoderMove

/-- A read of the BitPacker moves its cursor, in read mode and within the stream, and changes nothing else (R105, R107). -/
def MovesCursor (s t : State) : Prop :=
  s.bpMode = .read ∧ ∃ p, (s.bpRpos ≤ s.bpNbits → p ≤ s.bpNbits) ∧ t = { s with bpRpos := p }

theorem MovesCursor.move {s t : State} (h : MovesCursor s t) : DecoderMove s t := by
  obtain ⟨hm, p, hp, rfl⟩ := h
  exact .bits p hm hp

theorem MovesCursor.trans {s t u : State} (h : MovesCursor s t) (h' : MovesCursor t u) : MovesCursor s u := by
  obtain ⟨hm, p, hp, rfl⟩ := h
  obtain ⟨_, q, hq, rfl⟩ := h'
  exact ⟨hm, q, fun hs => hq (hp hs), rfl⟩

theorem MovesCursor.dcol {s t : State} (h : MovesCursor s t) : t.dcol = s.dcol := by
  obtain ⟨_, p, _, rfl⟩ := h
  rfl

theorem bpRead_cursor {w : Nat} {s t : State} {r : Word} (h : bpRead w s = .ok (r, t)) : MovesCursor s t := by
  obtain ⟨hm, hw, hle, _, rfl⟩ := (bpRead_eq_ok _ _ _ _).1 h
  exact ⟨hm, _, fun _ => by omega, rfl⟩

theorem bpReadRun_cursor {m : Nat} {s t : State} {r : Word} (h : bpReadRun m s = .ok (r, t)) : MovesCursor s t := by
  obtain ⟨hm, _, h⟩ := (bpReadRun_eq_ok _ _ _ _).1 h
  obtain ⟨e, _, hp⟩ := readRunLoop_frame h
  exact ⟨hm, _, fun _ => by omega, e⟩

/-- The two parts of a timestamp code are read by the cursor alone (R185). -/
theorem readTsCode_cursor {s t : State} {c : TsCode} (h : readTsCode s = .ok (c, t)) : MovesCursor s t := by
  obtain ⟨⟨p, s1⟩, h1, h⟩ := (bind_eq_ok _ _ _).1 h
  dsimp only at h
  split at h
  · cases h; exact bpReadRun_cursor h1
  · obtain ⟨⟨u, s2⟩, h2, e⟩ := (bind_eq_ok _ _ _).1 h
    cases e
    exact (bpReadRun_cursor h1).trans (bpRead_cursor h2)

theorem bbGet_move {s t : State} {b : Byte} (h : bbGet s = .ok (b, t)) : DecoderMove s t := by
  obtain ⟨hlt, _, rfl⟩ := (bbGet_eq_ok _ _ _).1 h
  exact .bytes _ hlt

theorem bbGetLoop_moves {n : Nat} {r q : Word} {s t : State} (h : bbGetLoop n r s = .ok (q, t)) : DecoderMoves s t := by
  induction n generalizing r s with
  | zero => cases h; exact .refl
  | succ n ih =>
    obtain ⟨⟨b, s1⟩, h1, h2⟩ := (bind_eq_ok _ _ _).1 h
    exact .head (bbGet_move h1) (ih h2)

theorem readValCode_moves {s t : State} {c : ValCode} (h : readValCode s = .ok (c, t)) : DecoderMoves s t := by
  obtain ⟨⟨b, s1⟩, h1, h⟩ := (bind_eq_ok _ _ _).1 h
  refine .head (bbGet_move h1) ?_
  dsimp only at h
  split at h
  · cases h; exact .refl
  · split at h
    · obtain ⟨⟨v, s2⟩, h2, e⟩ := (bind_eq_ok _ _ _).1 h
      cases e
      exact bbGetLoop_moves h2
    · obtain ⟨⟨info, s2⟩, h2, h⟩ := (bind_eq_ok _ _ _).1 h
      refine .head (bbGet_move h2) ?_
      dsimp only at h
      split at h
      · cases h; exact .refl
      · obtain ⟨⟨y, s3⟩, h3, e⟩ := (bind_eq_ok _ _ _).1 h
        cases e
        exact bbGetLoop_moves h3

theorem takeValCode_move {c : ValCode} {s t : State} (h : takeValCode c s = .ok t) : DecoderMove s t := by
  obtain ⟨v, _, e⟩ := (bind_eq_ok _ _ _).1 h
  cases e
  exact .value v

theorem readFirstValues_moves {n : Nat} {s t : State} (h : readFirstValues n s = .ok t) : DecoderMoves s t := by
  induction n generalizing s with
  | zero => cases h; exact .refl
  | succ n ih =>
    obtain ⟨⟨v, s1⟩, h1, h⟩ := (bind_eq_ok _ _ _).1 h
    exact (bbGetLoop_moves h1).trans (.head (.value v) (ih h))

theorem readRowValues_moves {n : Nat} {s t : State} (h : readRowValues n s = .ok t) : DecoderMoves s t := by
  induction n generalizing s with
  | zero => cases h; exact .refl
  | succ n ih =>
    obtain ⟨⟨c, s1⟩, h1, h⟩ := (bind_eq_ok _ _ _).1 h
    obtain ⟨s2, h2, h⟩ := (bind_eq_ok _ _ _).1 h
    exact (readValCode_moves h1).trans (.head (takeValCode_move h2) (ih h))

/-- A first row's timestamp and values, or the end of the stream (R182 to R184). -/
theorem decodeFirstRow_moves {s t : State} {ended : Bool} (h : decodeFirstRow s = .ok (ended, t)) :
    DecoderMoves s t ∧ (s.dcol = 0 → t.dcol = 0) := by
  obtain ⟨⟨fd, s1⟩, h1, h⟩ := (bind_eq_ok _ _ _).1 h
  have hc := bpRead_cursor h1
  dsimp only at h
  split at h
  · cases h
    exact ⟨.single hc.move, hc.dcol.trans⟩
  · obtain ⟨s2, h2, e⟩ := (bind_eq_ok _ _ _).1 h
    cases e
    exact ⟨(Relation.ReflTransGen.head hc.move (.head (.column 0) (readFirstValues_moves h2))).tail (.column 0)
      |>.tail (.times _ _), fun _ => rfl⟩

/-- A later row's timestamp and values, or the end of the stream (R185 to R188). -/
theorem decodeLaterRow_moves {s t : State} {ended : Bool} (h : decodeLaterRow s = .ok (ended, t)) :
    DecoderMoves s t ∧ (s.dcol = 0 → t.dcol = 0) := by
  obtain ⟨⟨c, s1⟩, h1, h⟩ := (bind_eq_ok _ _ _).1 h
  have hc := readTsCode_cursor h1
  dsimp only at h
  split at h
  · cases h
    exact ⟨.single hc.move, hc.dcol.trans⟩
  · obtain ⟨s2, h2, e⟩ := (bind_eq_ok _ _ _).1 h
    cases e
    exact ⟨(Relation.ReflTransGen.head hc.move (.head (.times _ _) (.head (.column 0) (readRowValues_moves h2)))).tail
      (.column 0), fun _ => rfl⟩

/-- A decoded row is moves of the Decoder, and the loop variable ends at 0 (R181 to R188). -/
theorem decodeRow_moves {s t : State} {ended : Bool} (h : decodeRow s = .ok (ended, t)) :
    DecoderMoves s t ∧ (s.dcol = 0 → t.dcol = 0) := by
  unfold decodeRow at h
  split at h
  · exact decodeFirstRow_moves h
  · exact decodeLaterRow_moves h

end Sys2Proof.Machine
end

section
/-! SUPPORT. Who changes the BitPacker's mode and its contents (R25, R27, R100). -/

namespace Sys2Proof.Machine

/-- The BitPacker is in the same mode with the same words and the same number of bits. -/
structure SameStream (s t : State) : Prop where
  mode : t.bpMode = s.bpMode
  words : t.bpW = s.bpW
  nbits : t.bpNbits = s.bpNbits

theorem SameStream.rfl {s : State} : SameStream s s := ⟨.refl _, .refl _, .refl _⟩

theorem SameStream.trans {s t u : State} (h : SameStream s t) (h' : SameStream t u) : SameStream s u :=
  ⟨h'.mode.trans h.mode, h'.words.trans h.words, h'.nbits.trans h.nbits⟩

theorem DecoderMove.sameStream {s t : State} (h : DecoderMove s t) : SameStream s t := by
  cases h <;> exact ⟨.refl _, .refl _, .refl _⟩

theorem DecoderMoves.sameStream {s t : State} (h : DecoderMoves s t) : SameStream s t := by
  induction h with
  | refl => exact .rfl
  | tail _ h ih => exact ih.trans h.sameStream

theorem CodeEffect.sameStream {s t : State} (h : CodeEffect s t) : SameStream s t := by
  cases h <;> exact ⟨.refl _, .refl _, .refl _⟩

theorem nextColumn_sameStream (s : State) : SameStream s (nextColumn s) := by
  unfold nextColumn
  split <;> exact ⟨.refl _, .refl _, .refl _⟩

theorem finishNext_sameStream (ended : Bool) (s : State) : SameStream s (finishNext ended s).1 := by
  cases ended <;> exact ⟨.refl _, .refl _, .refl _⟩

theorem startDecoder_sameStream (n : Byte) (s : State) : SameStream s (startDecoder n s) := by
  unfold startDecoder
  rw [hwInitBelow_eq]
  exact ⟨.refl _, .refl _, .refl _⟩

theorem enterRow_bpMode (s : State) : (enterRow s).bpMode = s.bpMode := by
  unfold enterRow
  split <;> rfl

/-- A row begins and ends in write mode. -/
theorem rowTimestamp_mode {n : Byte} {x : Word} {s t : State} (h : rowTimestamp n x s = .ok t) :
    s.bpMode = .write ∧ t.bpMode = .write := by
  obtain ⟨_, hm, u, d, f, ha, rfl⟩ := rowTimestamp_appends h
  obtain ⟨m, k, rfl⟩ := ha.frame
  rw [rowStart_eq] at hm
  exact ⟨hm, by rw [rowStart_eq]; exact hm⟩

/-- What an instruction can have done to the BitPacker's mode and contents: nothing, an append in write mode, a freeze, or a
new beginning. -/
inductive StreamChange (i : Instr) (s t : State) : Prop
  | same (h : SameStream s t)
  | appended (hs : s.bpMode = .write) (ht : t.bpMode = .write)
  | frozen (hi : i = .bpClose ∨ i = .bpFreeze ∨ i = .encFinish) (hs : s.bpMode = .write) (ht : t.bpMode = .read)
  | cleared (hi : i = .coreReset ∨ ∃ a, i = .encBegin a) (ht : t.bpMode = .write)

theorem StreamChange.respond {i : Instr} {s t : State} (h : StreamChange i s t) (r0 r1 : Word) :
    StreamChange i s (respond r0 r1 t) := by
  cases h with
  | same h => exact .same ⟨h.mode, h.words, h.nbits⟩
  | appended hs ht => exact .appended hs ht
  | frozen hi hs ht => exact .frozen hi hs ht
  | cleared hi ht => exact .cleared hi ht

theorem Completes.streamChange {i : Instr} {s t : State} (h : Completes i s t) : StreamChange i s t := by
  cases h with
  | readOnly hi => exact .same .rfl
  | bpAppend h =>
    obtain ⟨hs, ht⟩ := BitAppend.mode ⟨_, _, h⟩
    exact .appended hs ht
  | bpClose h =>
    obtain ⟨hm, u, _, rfl⟩ := bpClose_appends h
    exact .frozen (.inl rfl) hm rfl
  | bpRead h => exact .same (bpRead_cursor h).move.sameStream
  | bpReadrun h => exact .same (bpReadRun_cursor h).move.sameStream
  | bpFreeze h =>
    obtain ⟨hm, rfl⟩ := bpFreeze_eq_ok h
    exact .frozen (.inr (.inl rfl)) hm rfl
  | bbPut h =>
    obtain ⟨_, rfl⟩ := (bbPut_eq_ok _ _ _).1 h
    exact .same ⟨rfl, rfl, rfl⟩
  | bbGet h => exact .same (bbGet_move h).sameStream
  | hwInit h => exact .same ⟨rfl, rfl, rfl⟩
  | hwAdd h => exact .same ⟨rfl, rfl, rfl⟩
  | encBegin hp h =>
    obtain ⟨_, ht⟩ := BitAppend.mode ⟨_, _, h⟩
    exact .cleared (.inr ⟨_, rfl⟩) ht
  | encRow hp hn h =>
    obtain ⟨hs, ht⟩ := rowTimestamp_mode h
    exact .appended hs ((enterRow_bpMode _).trans ht)
  | encVal hp h =>
    obtain ⟨l, h⟩ := appendValue_bytes h
    obtain ⟨_, rfl⟩ := (bbPutAll_eq_ok _ _ _).1 h
    exact .same ⟨(nextColumn_sameStream _).mode, (nextColumn_sameStream _).words, (nextColumn_sameStream _).nbits⟩
  | encFinish hp h =>
    obtain ⟨hm, u, _, rfl⟩ := bpClose_appends h
    exact .frozen (.inr (.inr rfl)) hm rfl
  | decInit hp hn h =>
    obtain ⟨_, p, _, rfl⟩ := bpRead_cursor h
    exact .same ⟨(startDecoder_sameStream _ _).mode, (startDecoder_sameStream _ _).words,
      (startDecoder_sameStream _ _).nbits⟩
  | decNext hp h =>
    obtain ⟨hm, _⟩ := decodeRow_moves h
    exact .same (hm.sameStream.trans (finishNext_sameStream _ _))

/-- What a completed instruction can have done to the BitPacker's mode and contents. -/
theorem exec_streamChange {i : Instr} {s t : State} (hs : s.fault = 0) (h : exec i s = .next t) (ht : t.fault = 0) :
    StreamChange i s t := by
  cases exec_answers h with
  | nop => exact .same ⟨rfl, rfl, rfl⟩
  | coreReset => exact .cleared (.inl rfl) rfl
  | coreStatus => exact .same ⟨rfl, rfl, rfl⟩
  | refused hf => exact absurd hs hf
  | faulted _ c => exact absurd ht (faultByte_ne_zero c)
  | completed _ hc r0 r1 => exact hc.streamChange.respond r0 r1
  | coded _ _ hc => exact .same hc.sameStream

/-- Settles O13, by what each completed instruction can have done to the BitPacker (`exec_streamChange`). -/
theorem onlyResetAndBeginReopenTheBitPacker : Obligations.OnlyResetAndBeginReopenTheBitPacker := by
  intro i s t hs h ht
  cases exec_streamChange hs h ht with
  | same same =>
    have hm := same.mode
    refine ⟨fun hsw htr => ?_, fun hsr htw => ?_, fun _ _ _ => ⟨same.words, same.nbits⟩⟩
    · simp [hsw, htr] at hm
    · simp [hsr, htw] at hm
  | appended hsw htw => simp [hsw, htw]
  | frozen hi hsw htr => simp [hi, hsw, htr]
  | cleared hi htw => simp [hi, htw]

end Sys2Proof.Machine
end

section
/-! The state's obligations about faults and reset (R24, R42, R46, R226). -/

namespace Sys2Proof.Machine

/-- Only `CORE.RESET` leaves a fault: every other answer of a faulted core keeps `FAULT` and `FAULT_OP` (R24, R226). -/
theorem exec_keeps_fault {i : Instr} {s t : State} (hs : s.fault ≠ 0) (h : exec i s = .next t) :
    (t.fault = s.fault ∧ t.faultOp = s.faultOp) ∨ (i = .coreReset ∧ t.fault = 0) := by
  cases exec_answers h with
  | nop => exact .inl ⟨rfl, rfl⟩
  | coreReset => exact .inr ⟨rfl, rfl⟩
  | coreStatus => exact .inl ⟨rfl, rfl⟩
  | refused => exact .inl ⟨rfl, rfl⟩
  | faulted h0 => exact absurd h0 hs
  | completed h0 => exact absurd h0 hs
  | coded _ h0 => exact absurd h0 hs

theorem illegalCommand_refused {cw : BitVec 16} {s : State} (hs : s.fault ≠ 0) : illegalCommand cw s = .next (refuse s) :=
  if_pos hs

/-- Settles O9, by the cases of a step and what a faulted core answers (`exec_keeps_fault`). -/
theorem firstFaultIsKeptUntilReset : Obligations.FirstFaultIsKeptUntilReset := by
  intro s t hs h
  rcases step_cases h with ⟨_, rfl⟩ | ⟨c, rest, i, hport, hd, hexec⟩ | ⟨c, rest, hport, hill⟩
  · exact .inl ⟨rfl, rfl⟩
  · rcases exec_keeps_fault (s := { s with port := rest }) hs hexec with hkept | ⟨rfl, h0⟩
    · exact .inl hkept
    · have hcw : c.cw = 0x0100 := decodeCommand_coreReset hd
      exact .inr ⟨c.din, rest, by rw [hport, ← hcw], h0⟩
  · rw [illegalCommand_refused (s := { s with port := rest }) hs] at hill
    cases hill
    exact .inl ⟨rfl, rfl⟩

/-- A window emptied has 127 entries of 0, populated only with `ZERO_FILL_WINDOW` (R42, R131). -/
theorem empty_entry (z : Bool) (k : Nat) : (Window.empty z).entry k = 0 := by
  simp only [Window.entry, Window.empty, List.getD_eq_getElem?_getD, List.getElem?_replicate]
  split <;> rfl

theorem window_resetCore {s : State} {c : Nat} (hc : c < s.cfg.ncolMax) :
    window (resetCore s) c = Window.empty s.cfg.zeroFill := by
  simp [window, List.getD_eq_getElem?_getD, hc]

theorem getD_replicate_zero (n c : Nat) : (List.replicate n (0 : Word)).getD c 0 = 0 := by
  simp only [List.getD_eq_getElem?_getD, List.getElem?_replicate]
  split <;> rfl

/-- Settles O16: the reset state is written out by `State.powerOn`; the windows are the only part that is computed. -/
theorem coreResetSetsEveryRegister : Obligations.CoreResetSetsEveryRegister := by
  intro s
  have hwin (c : Nat) (hc : c < s.cfg.ncolMax) :
      (window (resetCore s) c).n = (if s.cfg.zeroFill then 127 else 0) ∧ (window (resetCore s) c).e.length = 127 ∧
        ∀ k, (window (resetCore s) c).entry k = 0 := by
    rw [window_resetCore hc]
    exact ⟨rfl, List.length_replicate, empty_entry _⟩
  exact ⟨respond 0 0 (resetCore s), rfl, rfl, rfl, rfl, rfl, rfl, rfl, fun _ => rfl, rfl, rfl, fun _ => rfl,
    List.length_replicate, hwin, rfl, rfl, rfl, rfl, rfl, rfl, List.length_replicate, getD_replicate_zero _, rfl, rfl, rfl⟩

/-! ## The status word (R46) -/

/-- A field that begins at or above the lowest part of a concatenation is a field of the rest. -/
theorem field_above {v w start len : Nat} {hi : BitVec v} {lo : BitVec w} (k : Nat) (hs : start = k + w) :
    (hi ++ lo).extractLsb' start len = hi.extractLsb' k len := by
  subst hs
  rw [BitVec.extractLsb'_append_eq_of_le (Nat.le_add_left w k), Nat.add_sub_cancel]

/-- The lowest part of a concatenation is its lowest field. -/
theorem field_lowest {v w : Nat} (hi : BitVec v) (lo : BitVec w) : (hi ++ lo).extractLsb' 0 w = lo :=
  BitVec.extractLsb'_append_eq_right

/-- `FAULT` and `FAULT_OP` stand at their places in the status word of a faulted core (R46). -/
theorem faultedStatusWord_fields (s : State) :
    (faultedStatusWord s).extractLsb' 8 8 = s.fault ∧ (faultedStatusWord s).extractLsb' 16 8 = s.faultOp :=
  ⟨(field_above _ rfl).trans (field_lowest _ _),
   (field_above _ rfl).trans ((field_above _ rfl).trans (field_lowest _ _))⟩

/-- Every field stands at its place in the status word of a core without a fault, and the bits between are 0 (R46). -/
theorem liveStatusWord_fields (s : State) :
    (liveStatusWord s).extractLsb' 0 3 = phaseCode s.phase ∧ (liveStatusWord s).extractLsb' 3 1 = modeCode s.bpMode ∧
    (liveStatusWord s).extractLsb' 4 4 = 0 ∧ (liveStatusWord s).extractLsb' 8 8 = s.fault ∧
    (liveStatusWord s).extractLsb' 16 8 = s.faultOp ∧ (liveStatusWord s).extractLsb' 24 8 = s.ncols ∧
    (liveStatusWord s).extractLsb' 32 8 = s.vidx ∧ (liveStatusWord s).extractLsb' 40 1 = BitVec.ofBool s.first ∧
    (liveStatusWord s).extractLsb' 41 23 = 0 := by
  unfold liveStatusWord
  refine ⟨field_lowest _ _, ?mode, ?zeros, ?fault, ?faultOp, ?ncols, ?vidx, ?first, ?top⟩
  case mode => exact (field_above _ rfl).trans (field_lowest _ _)
  case zeros => iterate 2 refine (field_above _ rfl).trans ?_
                exact field_lowest _ _
  case fault => iterate 3 refine (field_above _ rfl).trans ?_
                exact field_lowest _ _
  case faultOp => iterate 4 refine (field_above _ rfl).trans ?_
                  exact field_lowest _ _
  case ncols => iterate 5 refine (field_above _ rfl).trans ?_
                exact field_lowest _ _
  case vidx => iterate 6 refine (field_above _ rfl).trans ?_
               exact field_lowest _ _
  case first => iterate 7 refine (field_above _ rfl).trans ?_
                exact field_lowest _ _
  case top => iterate 8 refine (field_above _ rfl).trans ?_
              exact BitVec.extractLsb'_eq_self

/-- Settles O18, by the fields of the status word without a fault and with one. -/
theorem statusWordFields : Obligations.StatusWordFields := by
  intro s
  refine ⟨statusWord s, rfl, ?_⟩
  unfold statusWord
  by_cases h0 : s.fault = 0
  · rw [if_pos h0]
    obtain ⟨hphase, hmode, hzeros, hfault, hop, hncols, hvidx, hfirst, htop⟩ := liveStatusWord_fields s
    exact ⟨hfault, hop, fun _ => ⟨hphase, hmode, hzeros, hncols, hvidx, hfirst, htop⟩⟩
  · rw [if_neg h0]
    obtain ⟨hfault, hop⟩ := faultedStatusWord_fields s
    exact ⟨hfault, hop, fun h => absurd h h0⟩

end Sys2Proof.Machine
end

section
/-! SUPPORT. The invariant of a core without a fault, unit by unit. Each part speaks of the fields of its unit only, so that an
update of other fields keeps it as it stands; `liveInv_iff` ties the parts to `Inv`. -/

namespace Sys2Proof.Machine

/-! ## The parts -/

/-- The BitPacker of `cap` words (R26 to R28, R39, R53). -/
structure BitPackerOk (cap : Nat) (mode : BpMode) (words : Store 64) (nbits rpos : Nat) : Prop where
  canonical : Store.wf words = true
  nbitsLe : nbits ≤ 64 * cap
  rposLe : rpos ≤ nbits
  writeRpos : mode = .write → rpos = 0
  padding : ∀ k, nbits ≤ k → streamBit words k = false

/-- The ByteBuffer of `cap` bytes (R30, R39). -/
structure ByteBufferOk (cap : Nat) (bytes : Memory) (len rpos : Nat) : Prop where
  canonical : Memory.wf bytes = true
  lenLe : len ≤ cap
  rposLe : rpos ≤ len
  beyond : ∀ j, cap ≤ j → readByte bytes j = 0

/-- A window has its 127 entries and counts at most those (R31). -/
def WindowOk (x : Window) : Prop := x.n ≤ winCap ∧ x.e.length = winCap

/-- The windows and the stored row of `ncolMax` columns (R31, R38). -/
structure WindowsOk (ncolMax : Nat) (hw : List Window) (row : List Word) : Prop where
  count : hw.length = ncolMax
  sizes : ∀ x ∈ hw, WindowOk x
  stored : row.length = ncolMax

/-- The session registers against the phase (R25, R35 to R37, R39). -/
structure SessionOk (ncolMax : Nat) (phase : Phase) (mode : BpMode) (ncols vidx : Byte) (first : Bool) : Prop where
  ncolsLe : ncols.toNat ≤ ncolMax
  vidxZero : phase ≠ .encRow → vidx = 0
  vidxLt : phase = .encRow → vidx.toNat < ncols.toNat
  firstRow : first = true → phase = .encRow
  frozen : phase = .encDone ∨ phase = .decFirst ∨ phase = .decRun ∨ phase = .decDone → mode = .read

/-- The parts that hold inside a command too, at each of its moves. -/
structure StoresOk (s : State) : Prop where
  cfgWf : s.cfg.wf = true
  noFault : s.fault = 0
  bitPacker : BitPackerOk s.cfg.bpMaxWords s.bpMode s.bpW s.bpNbits s.bpRpos
  byteBuffer : ByteBufferOk s.cfg.bbMaxBytes s.bbB s.bbLen s.bbRpos
  windows : WindowsOk s.cfg.ncolMax s.hw s.storedV

/-- The session and codec registers are no part of the stores. -/
theorem StoresOk.setRegisters {s : State} (h : StoresOk s) {p : Phase} {a x d : Word} {n v : Byte} {f : Bool} {k : Nat} :
    StoresOk { s with phase := p, anchor := a, ts := x, delta := d, ncols := n, vidx := v, first := f, dcol := k } :=
  ⟨h.cfgWf, h.noFault, h.bitPacker, h.byteBuffer, h.windows⟩

/-- The session registers of a state are as the phase asks. -/
abbrev SessionInv (s : State) : Prop := SessionOk s.cfg.ncolMax s.phase s.bpMode s.ncols s.vidx s.first

/-- The invariant of a core without a fault, between commands. -/
structure LiveInv (s : State) : Prop where
  stores : StoresOk s
  session : SessionInv s
  dcolZero : s.dcol = 0

/-- A word whose stream bits all stand behind the written ones is 0 (R53). -/
theorem BitPackerOk.readWord_beyond {cap : Nat} {mode : BpMode} {words : Store 64} {nbits rpos : Nat}
    (h : BitPackerOk cap mode words nbits rpos) {i : Nat} (hi : cap ≤ i) : readWord words i = 0 := by
  have hn := h.nbitsLe
  refine BitVec.eq_of_getLsbD_eq fun j hj => ?_
  rw [getLsbD_readWord _ _ _ hj, h.padding _ (by omega)]
  exact BitVec.getLsbD_zero.symm

theorem SessionOk.vidxLe {ncolMax : Nat} {phase : Phase} {mode : BpMode} {ncols vidx : Byte} {first : Bool}
    (h : SessionOk ncolMax phase mode ncols vidx first) : vidx.toNat ≤ ncols.toNat := by
  by_cases hp : phase = .encRow
  · exact (h.vidxLt hp).le
  · rw [h.vidxZero hp]
    exact Nat.zero_le _

/-- Without a fault the invariant is its parts. -/
theorem liveInv_iff {s : State} : LiveInv s ↔ Inv s ∧ s.fault = 0 := by
  constructor
  · rintro ⟨⟨hcfg, h0, bp, bb, hw⟩, ses, hd⟩
    refine ⟨⟨hcfg, bp.canonical, bb.canonical, fun _ => bp.readWord_beyond, bb.beyond, hw.count,
      fun x hx => (hw.sizes x hx).2, hw.stored, hd, by rw [h0]; decide, fun _ => ?_⟩, h0⟩
    exact ⟨bp.rposLe, bp.nbitsLe, bp.writeRpos, bb.rposLe, bb.lenLe, fun x hx => (hw.sizes x hx).1, ses.vidxLe,
      ses.ncolsLe, ses.vidxZero, ses.vidxLt, ses.firstRow, ses.frozen, bp.padding⟩
  · rintro ⟨h, h0⟩
    have live := h.live h0
    exact ⟨⟨h.cfgWf, h0, ⟨h.wordsWf, live.nbitsLe, live.rposLe, live.writeRpos, live.padding⟩,
      ⟨h.bytesWf, live.bbLenLe, live.bbRposLe, h.bytesIn⟩,
      ⟨h.windows, fun x hx => ⟨live.windowN x hx, h.entries x hx⟩, h.stored⟩⟩,
      ⟨live.ncolsLe, live.vidxZero, live.vidxLt, live.firstRow, live.frozen⟩, h.dcolZero⟩

theorem LiveInv.inv {s : State} (h : LiveInv s) : Inv s := (liveInv_iff.1 h).1

/-! ## The BitPacker -/

theorem BitPackerOk.empty (cap : Nat) : BitPackerOk cap .write [] 0 0 :=
  ⟨rfl, Nat.zero_le _, Nat.le_refl _, fun _ => rfl, fun k _ => streamBit_nil k⟩

/-- A field that fits keeps the bits behind it 0 (R53, R101). -/
theorem BitPackerOk.append {cap : Nat} {mode : BpMode} {words : Store 64} {nbits rpos : Nat}
    (h : BitPackerOk cap mode words nbits rpos) (v : Word) {w : Nat} (hw : nbits + w ≤ 64 * cap) :
    BitPackerOk cap mode (putField words nbits v w) (nbits + w) rpos where
  canonical := putField_wf h.canonical _ _ _
  nbitsLe := hw
  rposLe := h.rposLe.trans (Nat.le_add_right _ _)
  writeRpos := h.writeRpos
  padding k hk := by
    rw [streamBit_putField h.canonical, if_neg (by omega)]
    exact h.padding k (by omega)

theorem BitPackerOk.freeze {cap : Nat} {mode : BpMode} {words : Store 64} {nbits rpos : Nat}
    (h : BitPackerOk cap mode words nbits rpos) : BitPackerOk cap .read words nbits 0 :=
  ⟨h.canonical, h.nbitsLe, Nat.zero_le _, nofun, h.padding⟩

/-- In read mode the cursor may stand anywhere in the stream (R28). -/
theorem BitPackerOk.seek {cap : Nat} {mode : BpMode} {words : Store 64} {nbits rpos p : Nat}
    (h : BitPackerOk cap mode words nbits rpos) (hm : mode = .read) (hp : p ≤ nbits) :
    BitPackerOk cap mode words nbits p :=
  ⟨h.canonical, h.nbitsLe, hp, by rw [hm]; nofun, h.padding⟩

/-! ## The ByteBuffer -/

theorem ByteBufferOk.empty (cap : Nat) : ByteBufferOk cap [] 0 0 :=
  ⟨rfl, Nat.zero_le _, Nat.le_refl _, fun _ _ => rfl⟩

/-- Bytes that fit leave the bytes beyond the store 0 (R121). -/
theorem ByteBufferOk.append {cap : Nat} {bytes : Memory} {len rpos : Nat} (h : ByteBufferOk cap bytes len rpos)
    {l : List Byte} (hl : len + l.length ≤ cap) : ByteBufferOk cap (putBytes bytes len l) (len + l.length) rpos where
  canonical := putBytes_wf h.canonical _ _
  lenLe := hl
  rposLe := h.rposLe.trans (Nat.le_add_right _ _)
  beyond j hj := by
    rw [readByte_putBytes h.canonical, dif_neg (by omega)]
    exact h.beyond j hj

theorem ByteBufferOk.seek {cap : Nat} {bytes : Memory} {len rpos p : Nat} (h : ByteBufferOk cap bytes len rpos)
    (hp : p ≤ len) : ByteBufferOk cap bytes len p := ⟨h.canonical, h.lenLe, hp, h.beyond⟩

/-! ## The windows -/

theorem windowOk_empty (z : Bool) : WindowOk (Window.empty z) := by
  cases z <;> exact ⟨by decide, List.length_replicate⟩

theorem WindowOk.push {x : Window} (h : WindowOk x) (v : Word) : WindowOk (x.push v) :=
  ⟨Nat.min_le_right _ _, (push_size v x h.2).2⟩

theorem WindowsOk.set {ncolMax : Nat} {hw : List Window} {row : List Word} (h : WindowsOk ncolMax hw row) (c : Nat)
    {x : Window} (hx : WindowOk x) : WindowsOk ncolMax (hw.set c x) row where
  count := List.length_set.trans h.count
  sizes y hy := (List.mem_or_eq_of_mem_set hy).elim (h.sizes y) fun e => e ▸ hx
  stored := h.stored

theorem WindowsOk.store {ncolMax : Nat} {hw : List Window} {row : List Word} (h : WindowsOk ncolMax hw row) (c : Nat)
    (v : Word) : WindowsOk ncolMax hw (row.set c v) := ⟨h.count, h.sizes, List.length_set.trans h.stored⟩

/-- A value added to a window; at a column beyond the last, nothing changes. -/
theorem WindowsOk.add {s : State} {row : List Word} (h : WindowsOk s.cfg.ncolMax s.hw row) (c : Nat) (v : Word) :
    WindowsOk s.cfg.ncolMax (s.hw.set c ((window s c).push v)) row := by
  by_cases hc : c < s.hw.length
  · have hmem : window s c ∈ s.hw := by
      rw [window, List.getD_eq_getElem _ _ hc]
      exact List.getElem_mem hc
    exact h.set c ((h.sizes _ hmem).push v)
  · rw [List.set_eq_of_length_le (Nat.le_of_not_lt hc)]
    exact h

theorem WindowsOk.replicate (ncolMax : Nat) (z : Bool) :
    WindowsOk ncolMax (List.replicate ncolMax (Window.empty z)) (List.replicate ncolMax 0) :=
  ⟨List.length_replicate, fun _ hx => List.eq_of_mem_replicate hx ▸ windowOk_empty z, List.length_replicate⟩

/-! ## The session registers -/

/-- Outside a row the row's registers are clear. -/
theorem SessionOk.outsideRow {ncolMax : Nat} {phase : Phase} {mode : BpMode} {ncols : Byte}
    (hn : ncols.toNat ≤ ncolMax) (hp : phase ≠ .encRow)
    (hm : phase = .encDone ∨ phase = .decFirst ∨ phase = .decRun ∨ phase = .decDone → mode = .read) :
    SessionOk ncolMax phase mode ncols 0 false := ⟨hn, fun _ => rfl, fun h => absurd h hp, nofun, hm⟩

/-- From one phase outside a row to another. -/
theorem SessionOk.setPhase {ncolMax : Nat} {p q : Phase} {mode : BpMode} {ncols vidx : Byte} {first : Bool}
    (h : SessionOk ncolMax p mode ncols vidx first) (hp : p ≠ .encRow) (hq : q ≠ .encRow)
    (hm : q = .encDone ∨ q = .decFirst ∨ q = .decRun ∨ q = .decDone → mode = .read) :
    SessionOk ncolMax q mode ncols vidx first := by
  have hfirst : first = false := Bool.eq_false_iff.2 fun hf => hp (h.firstRow hf)
  rw [h.vidxZero hp, hfirst]
  exact .outsideRow h.ncolsLe hq hm

theorem SessionOk.freeze {ncolMax : Nat} {phase : Phase} {mode : BpMode} {ncols vidx : Byte} {first : Bool}
    (h : SessionOk ncolMax phase mode ncols vidx first) : SessionOk ncolMax phase .read ncols vidx first :=
  ⟨h.ncolsLe, h.vidxZero, h.vidxLt, h.firstRow, fun _ => rfl⟩

theorem phase_ne_of_or {p a b c : Phase} (h : p = a ∨ p = b) (ha : a ≠ c) (hb : b ≠ c) : p ≠ c := by
  rcases h with rfl | rfl <;> assumption

/-- The next column of a row that has one (R157). -/
theorem SessionOk.nextColumn {ncolMax : Nat} {phase : Phase} {mode : BpMode} {ncols vidx : Byte} {first : Bool}
    (h : SessionOk ncolMax phase mode ncols vidx first) (hp : phase = .encRow) (hv : vidx + 1 ≠ ncols) :
    SessionOk ncolMax phase mode ncols (vidx + 1) first where
  ncolsLe := h.ncolsLe
  vidxZero hp' := absurd hp hp'
  vidxLt _ := by
    have hlt := h.vidxLt hp
    bv_omega
  firstRow := h.firstRow
  frozen := h.frozen

end Sys2Proof.Machine
end

section
/-! SUPPORT. Every move of a command keeps the parts of the invariant, and every command the whole (R39). -/

namespace Sys2Proof.Machine

/-! ## Moves -/

theorem BitAppend.storesOk {s t : State} (h : BitAppend s t) (hs : StoresOk s) : StoresOk t := by
  obtain ⟨v, w, h⟩ := h
  obtain ⟨_, _, _, hfit, rfl⟩ := (bpAppend_eq_ok _ _ _ _).1 h
  exact ⟨hs.cfgWf, hs.noFault, hs.bitPacker.append v hfit, hs.byteBuffer, hs.windows⟩

theorem BitAppends.storesOk {s t : State} (h : BitAppends s t) (hs : StoresOk s) : StoresOk t := by
  induction h with
  | refl => exact hs
  | tail _ h ih => exact h.storesOk ih

theorem BitAppends.liveInv {s t : State} (h : BitAppends s t) (hs : LiveInv s) : LiveInv t := by
  have hst := BitAppends.storesOk h hs.stores
  obtain ⟨m, n, rfl⟩ := h.frame
  exact ⟨hst, hs.session, hs.dcolZero⟩

theorem enterRead_storesOk {s : State} (hs : StoresOk s) : StoresOk (enterRead s) :=
  ⟨hs.cfgWf, hs.noFault, hs.bitPacker.freeze, hs.byteBuffer, hs.windows⟩

theorem enterRead_liveInv {s : State} (hs : LiveInv s) : LiveInv (enterRead s) :=
  ⟨enterRead_storesOk hs.stores, hs.session.freeze, hs.dcolZero⟩

theorem bpClose_liveInv {s t : State} (h : bpClose s = .ok t) (hs : LiveInv s) :
    LiveInv t ∧ t.phase = s.phase ∧ t.bpMode = .read := by
  obtain ⟨_, u, ha, rfl⟩ := bpClose_appends h
  refine ⟨enterRead_liveInv (BitAppends.liveInv ha hs), ?_, rfl⟩
  obtain ⟨m, n, rfl⟩ := ha.frame
  rfl

theorem bbPutAll_liveInv {l : List Byte} {s t : State} (h : bbPutAll l s = .ok t) (hs : LiveInv s) : LiveInv t := by
  obtain ⟨hfit, rfl⟩ := (bbPutAll_eq_ok _ _ _).1 h
  have hlen : s.bbLen + l.length ≤ s.cfg.bbMaxBytes := by
    rcases hfit with rfl | hfit
    · exact hs.stores.byteBuffer.lenLe
    · exact hfit
  exact ⟨⟨hs.stores.cfgWf, hs.stores.noFault, hs.stores.bitPacker, hs.stores.byteBuffer.append hlen, hs.stores.windows⟩,
    hs.session, hs.dcolZero⟩

theorem hwAdd_storesOk {s : State} (hs : StoresOk s) (c : Nat) (v : Word) : StoresOk (hwAdd c v s) :=
  ⟨hs.cfgWf, hs.noFault, hs.bitPacker, hs.byteBuffer, hs.windows.add c v⟩

theorem hwInit_storesOk {s : State} (hs : StoresOk s) (c : Nat) : StoresOk (hwInit c s) :=
  ⟨hs.cfgWf, hs.noFault, hs.bitPacker, hs.byteBuffer, hs.windows.set c (windowOk_empty _)⟩

theorem hwInitBelow_storesOk {s : State} (hs : StoresOk s) (n : Nat) : StoresOk (hwInitBelow n s) := by
  induction n with
  | zero => exact hs
  | succ n ih => exact hwInit_storesOk ih n

/-- The Decoder's moves keep the stores and touch no session register. -/
theorem DecoderMove.keeps {s t : State} (h : DecoderMove s t) (hs : StoresOk s) :
    StoresOk t ∧ (SessionInv s → SessionInv t) ∧ t.phase = s.phase := by
  cases h with
  | bits p hm hp =>
    exact ⟨⟨hs.cfgWf, hs.noFault, hs.bitPacker.seek hm (hp hs.bitPacker.rposLe), hs.byteBuffer, hs.windows⟩, id, rfl⟩
  | bytes p hp => exact ⟨⟨hs.cfgWf, hs.noFault, hs.bitPacker, hs.byteBuffer.seek hp, hs.windows⟩, id, rfl⟩
  | value v =>
    exact ⟨⟨hs.cfgWf, hs.noFault, hs.bitPacker, hs.byteBuffer, (hs.windows.add s.dcol v).store s.dcol v⟩, id, rfl⟩
  | column d => exact ⟨hs.setRegisters, id, rfl⟩
  | times x d => exact ⟨hs.setRegisters, id, rfl⟩

theorem DecoderMoves.keeps {s t : State} (h : DecoderMoves s t) (hs : StoresOk s) :
    StoresOk t ∧ (SessionInv s → SessionInv t) ∧ t.phase = s.phase := by
  induction h with
  | refl => exact ⟨hs, id, rfl⟩
  | tail _ h ih =>
    obtain ⟨h1, h2, h3⟩ := ih
    obtain ⟨h1', h2', h3'⟩ := h.keeps h1
    exact ⟨h1', fun hk => h2' (h2 hk), h3'.trans h3⟩

/-- Moves that end with the loop variable at 0 keep the invariant. -/
theorem DecoderMoves.liveInv {s t : State} (h : DecoderMoves s t) (hs : LiveInv s) (hd : t.dcol = 0) : LiveInv t := by
  obtain ⟨hst, hses, _⟩ := DecoderMoves.keeps h hs.stores
  exact ⟨hst, hses hs.session, hd⟩

theorem MovesCursor.liveInv {s t : State} (h : MovesCursor s t) (hs : LiveInv s) : LiveInv t :=
  DecoderMoves.liveInv (.single h.move) hs (h.dcol.trans hs.dcolZero)

/-! ## Ends of the session commands -/

/-- A row is entered with its column count set, whatever the registers of a row held (R151). -/
theorem enterRow_liveInv {s : State} (hs : StoresOk s) (hn : s.ncols.toNat ≤ s.cfg.ncolMax) (hd : s.dcol = 0) :
    LiveInv (enterRow s) := by
  unfold enterRow
  split
  · exact ⟨hs.setRegisters, .outsideRow hn nofun (by simp), hd⟩
  · next hne =>
    refine ⟨hs.setRegisters, ⟨hn, fun hp => absurd rfl hp, fun _ => ?_, fun _ => rfl, by simp⟩, hd⟩
    exact Nat.pos_of_ne_zero fun h0 => hne (BitVec.eq_of_toNat_eq h0)

theorem nextColumn_liveInv {s : State} (hs : LiveInv s) (hp : s.phase = .encRow) : LiveInv (nextColumn s) := by
  unfold nextColumn
  split
  · exact ⟨hs.stores.setRegisters, .outsideRow hs.session.ncolsLe nofun (by simp), hs.dcolZero⟩
  · next hne => exact ⟨hs.stores.setRegisters, hs.session.nextColumn hp hne, hs.dcolZero⟩

theorem startDecoder_liveInv {n : Byte} {s : State} (hs : StoresOk s) (hn : n.toNat ≤ s.cfg.ncolMax)
    (hm : s.bpMode = .read) (hd : s.dcol = 0) : LiveInv (startDecoder n s) := by
  have hst := hwInitBelow_storesOk (s := { s with ncols := n }) hs.setRegisters (immNat n)
  unfold startDecoder
  rw [hwInitBelow_eq] at hst ⊢
  exact ⟨hst.setRegisters, .outsideRow hn nofun fun _ => hm, hd⟩

theorem finishNext_liveInv {ended : Bool} {s : State} (hs : LiveInv s) (hp : s.phase = .decFirst ∨ s.phase = .decRun) :
    LiveInv (finishNext ended s).1 := by
  have hm : s.bpMode = .read := hs.session.frozen (by tauto)
  have hrow : s.phase ≠ .encRow := phase_ne_of_or hp nofun nofun
  cases ended with
  | false => exact ⟨hs.stores.setRegisters, hs.session.setPhase hrow nofun fun _ => hm, hs.dcolZero⟩
  | true => exact ⟨hs.stores.setRegisters, hs.session.setPhase hrow nofun fun _ => hm, hs.dcolZero⟩

/-! ## The start of a row -/

theorem rowStart_storesOk {n : Byte} {s : State} (hs : StoresOk s) : StoresOk (rowStart n s) := by
  unfold rowStart
  split
  · exact hwInitBelow_storesOk (s := { s with ncols := n }) hs.setRegisters _
  · exact hs

/-- At the start of a row the column count is the row's own (R151, R152). -/
theorem rowStart_ncols {n : Byte} {s : State} (hn : s.phase ≠ .encFirst → n = s.ncols) : (rowStart n s).ncols = n := by
  unfold rowStart
  split
  · rw [hwInitBelow_eq]
  · next hp => exact (hn hp).symm

theorem encRow_liveInv {n : Byte} {x : Word} {s t : State} (hs : LiveInv s) (hn : n.toNat ≤ s.cfg.ncolMax)
    (h : rowTimestamp n x s = .ok t) : LiveInv (enterRow t) := by
  obtain ⟨hcount, _, u, d, f, ha, rfl⟩ := rowTimestamp_appends h
  have hst := BitAppends.storesOk ha (rowStart_storesOk hs.stores)
  have hncols : u.ncols = n ∧ u.cfg = s.cfg ∧ u.dcol = s.dcol := by
    obtain ⟨m, k, rfl⟩ := ha.frame
    refine ⟨rowStart_ncols hcount, ?_, ?_⟩ <;> rw [rowStart_eq]
  obtain ⟨rfl, hcfg, hdcol⟩ := hncols
  exact enterRow_liveInv hst.setRegisters (by rw [hcfg]; exact hn) (hdcol.trans hs.dcolZero)

theorem encBegin_liveInv {a : Word} {s t : State} (hs : LiveInv s)
    (h : bpAppend a 64 (startEncoder a (clearStores s)) = .ok t) : LiveInv { t with phase := .encFirst } := by
  have hclear : StoresOk (startEncoder a (clearStores s)) :=
    ⟨hs.stores.cfgWf, hs.stores.noFault, .empty _, .empty _, hs.stores.windows⟩
  have ha : BitAppend (startEncoder a (clearStores s)) t := ⟨_, _, h⟩
  have hst := ha.storesOk hclear
  obtain ⟨m, n, rfl⟩ := BitAppends.frame (.single ha)
  exact ⟨hst.setRegisters, .outsideRow (Nat.zero_le _) nofun (by simp), hs.dcolZero⟩

/-! ## Commands and steps -/

/-- A command that completes keeps the invariant. -/
theorem Completes.liveInv {i : Instr} {s t : State} (h : Completes i s t) (hs : LiveInv s) : LiveInv t := by
  cases h with
  | readOnly => exact hs
  | bpAppend h => exact BitAppends.liveInv (.single ⟨_, _, h⟩) hs
  | bpClose h => exact (bpClose_liveInv h hs).1
  | bpRead h => exact (bpRead_cursor h).liveInv hs
  | bpReadrun h => exact (bpReadRun_cursor h).liveInv hs
  | bpFreeze h =>
    obtain ⟨_, rfl⟩ := bpFreeze_eq_ok h
    exact enterRead_liveInv hs
  | @bbPut din _ _ h =>
    have hall : bbPutAll [dinByte din] s = .ok t := (bind_eq_ok _ _ _).2 ⟨t, h, rfl⟩
    exact bbPutAll_liveInv hall hs
  | bbGet h =>
    have hd : t.dcol = s.dcol := by obtain ⟨_, _, rfl⟩ := (bbGet_eq_ok _ _ _).1 h; rfl
    exact DecoderMoves.liveInv (.single (bbGet_move h)) hs (hd.trans hs.dcolZero)
  | hwInit => exact ⟨hwInit_storesOk hs.stores _, hs.session, hs.dcolZero⟩
  | hwAdd => exact ⟨hwAdd_storesOk hs.stores _ _, hs.session, hs.dcolZero⟩
  | encBegin _ h => exact encBegin_liveInv hs h
  | encRow _ hn h => exact encRow_liveInv hs hn h
  | encVal hp h =>
    obtain ⟨l, h⟩ := appendValue_bytes h
    have hu := bbPutAll_liveInv h hs
    obtain ⟨_, rfl⟩ := (bbPutAll_eq_ok _ _ _).1 h
    exact nextColumn_liveInv ⟨hwAdd_storesOk hu.stores _ _, hu.session, hu.dcolZero⟩ hp
  | encFinish hp h =>
    obtain ⟨hu, hphase, hm⟩ := bpClose_liveInv h hs
    rw [← hphase] at hp
    exact ⟨hu.stores.setRegisters, hu.session.setPhase (phase_ne_of_or hp nofun nofun) nofun fun _ => hm, hu.dcolZero⟩
  | decInit _ hn h =>
    have hc := bpRead_cursor h
    have hu := hc.liveInv hs
    obtain ⟨hm, p, _, rfl⟩ := hc
    exact startDecoder_liveInv hu.stores.setRegisters hn hm hu.dcolZero
  | decNext hp h =>
    obtain ⟨hmoves, hd⟩ := decodeRow_moves h
    obtain ⟨_, _, hphase⟩ := DecoderMoves.keeps hmoves hs.stores
    exact finishNext_liveInv (DecoderMoves.liveInv hmoves hs (hd hs.dcolZero)) (by rwa [hphase])

/-- The fields the host and the model keep beside the core's are not in the invariant. -/
theorem Inv.host {s : State} (h : Inv s) (port : List Command) (resp : Option Response) (seed : Nat) :
    Inv { s with port := port, resp := resp, freeSeed := seed } :=
  { h with live := fun h0 => { h.live h0 with } }

theorem Inv.respond {s : State} (h : Inv s) (r0 r1 : Word) : Inv (respond r0 r1 s) := h.host _ _ _

theorem Inv.refuse {s : State} (h : Inv s) : Inv (refuse s) := h.host _ _ _

/-- A fault keeps the parameters, the canonical form and the sizes of the stores; nothing more is asked of a faulted core. -/
theorem Inv.takeFault {s : State} (h : Inv s) (c : FaultCode) (op : Byte) : Inv (takeFault c op s) := by
  obtain ⟨hw, hb, hwords, hbytes, hlen, hentries, hstored⟩ := takeFault_stores c op s
  exact ⟨h.cfgWf, hw, hb, hwords, hbytes, hlen, hentries, hstored, rfl, (faultByte_range c).2,
    fun h0 => absurd h0 (faultByte_ne_zero c)⟩

theorem liveInv_powerOn {cfg : Config} (h : cfg.wf = true) : LiveInv (State.powerOn cfg) :=
  ⟨⟨h, rfl, .empty _, .empty _, .replicate _ _⟩, .outsideRow (Nat.zero_le _) nofun nofun, rfl⟩

theorem Inv.resetCore {s : State} (h : Inv s) : Inv (resetCore s) := (liveInv_powerOn h.cfgWf).inv.host _ _ _

/-- Settles O12: after power-on every part of the invariant holds, for the standard parameters too. -/
theorem resetMeetsTheInvariant : Obligations.ResetMeetsTheInvariant :=
  ⟨fun _ h => (liveInv_powerOn h).inv, (liveInv_powerOn (by decide)).inv⟩

/-- A command of the port keeps the invariant, whatever it answers. -/
theorem exec_keeps_inv {i : Instr} {s t : State} (hi : placeOf i = .port) (hs : Inv s) (h : exec i s = .next t) :
    Inv t := by
  cases exec_answers h with
  | nop => exact hs.respond _ _
  | coreReset => exact hs.resetCore.respond _ _
  | coreStatus => exact hs.respond _ _
  | refused => exact hs.refuse
  | faulted _ c => exact hs.takeFault c _
  | completed h0 hc r0 r1 => exact (hc.liveInv (liveInv_iff.2 ⟨hs, h0⟩)).inv.respond r0 r1
  | coded hcode => exact absurd hi hcode

theorem illegalCommand_keeps_inv {cw : BitVec 16} {s t : State} (hs : Inv s) (h : illegalCommand cw s = .next t) :
    Inv t := by
  unfold illegalCommand at h
  split at h <;> cases h
  · exact hs.refuse
  · exact hs.takeFault _ _

/-- Settles O11, by the cases of a step: a held state, a command of the port, an illegal command word. -/
theorem everyStepKeepsTheInvariant : Obligations.EveryStepKeepsTheInvariant := by
  intro s t hs h
  rcases step_cases h with ⟨_, rfl⟩ | ⟨c, rest, i, _, hd, hexec⟩ | ⟨c, rest, _, hill⟩
  · exact hs
  · exact exec_keeps_inv (placeOf_decodeCommand hd) (hs.host rest s.resp s.freeSeed) hexec
  · exact illegalCommand_keeps_inv (hs.host rest s.resp s.freeSeed) hill

end Sys2Proof.Machine
end

section
/-! The obligations about memory: the step's command (R62, R70), the commands without a side effect (R61), and the order in
which the ByteBuffer gives its bytes back (R57, R120). -/

namespace Sys2Proof.Machine

/-! ## The step's command -/

/-- Settles O6: the port is not empty and the command word decodes, so both cases of `step` are known. -/
theorem stepRunsTheDecodedInstruction : Obligations.StepRunsTheDecodedInstruction := by
  intro s c rest i hport hdecode
  have hfetch : fetchCommand s = some (c, { s with port := rest }) := by rw [fetchCommand, hport]
  simp only [step, hfetch, hdecode]

/-! ## The commands without a side effect (R61) -/

/-- The state with another response. -/
def withResp (p : Option Response) (s : State) : State := { s with resp := p }

/-- What is done to a result leaves the check before it as it is. -/
theorem map_check {α β : Type} (f : α → β) (q : Prop) [Decidable q] (c : FaultCode) (x : Comp α) :
    f <$> (if q then raise c else x) = if q then raise c else f <$> x := apply_ite (f <$> ·) q _ _

/-- The results of a command's body, the state in them with another response. -/
def relabel (p : Option Response) (q : State × Word × Word) : State × Word × Word := (withResp p q.1, q.2)

/-- A command of the common frame whose body does not read the old response answers as if there had been another one: a
refusal, a completion and a fault all write their own. -/
theorem runCommand_withResp {i : Instr} {s : State} {p : Option Response}
    {body : State → Comp (State × Word × Word)} (hb : body (withResp p s) = relabel p <$> body s) :
    runCommand i (withResp p s) body = runCommand i s body := by
  rcases runCommand_cases i s body with ⟨hs, e⟩ | ⟨hs, u, r0, r1, hu, e⟩ | ⟨hs, c, hc, e⟩ <;> rw [e]
  · exact runCommand_refused (s := withResp p s) i body hs
  · exact runCommand_ok (s := withResp p s) (t := withResp p u) i hs (hb.trans (by rw [hu]; rfl))
  · exact runCommand_error (s := withResp p s) i hs (hb.trans (by rw [hc]; rfl))

/-- No command without a side effect reads the response of the one before it (R61). -/
theorem exec_withResp {i : Instr} (hi : readOnly i = true) (p : Option Response) (s : State) :
    exec i (withResp p s) = exec i s := by
  match i, hi with
  | .nop, _ | .coreStatus, _ => rfl
  | .bpSize, _ | .bbLen, _ | .encBitsize, _ | .expNwords, _ =>
    simp only [exec]
    exact runCommand_withResp rfl
  | .hwContains _ _, _ | .hwBest _ _, _ | .hwAt _ _, _ | .hwCount _, _ =>
    simp only [exec]
    exact runCommand_withResp (by simp only [map_bind]; rfl)
  | .decTs, _ | .decVal _, _ | .expWord _, _ | .expByte _, _ =>
    simp only [exec]
    exact runCommand_withResp (by simp only [map_check]; rfl)

/-- Every command without a side effect is a command of the port (R61, R74). -/
theorem placeOf_readOnly {i : Instr} (hi : readOnly i = true) : placeOf i = .port :=
  match i, hi with
  | .nop, _ | .coreStatus, _ | .bpSize, _ | .bbLen, _ | .hwContains _ _, _ | .hwBest _ _, _ | .hwAt _ _, _
  | .hwCount _, _ | .encBitsize, _ | .decTs, _ | .decVal _, _ | .expNwords, _ | .expWord _, _ | .expByte _, _ => rfl

/-- A command without a side effect that completes only answers (R61). -/
theorem exec_readOnly {i : Instr} {s t : State} (hi : readOnly i = true) (hs : s.fault = 0) (h : exec i s = .next t)
    (ht : t.fault = 0) : ∃ p, t = withResp p s := by
  cases exec_answers h with
  | nop => exact ⟨_, rfl⟩
  | coreReset => exact absurd hi nofun
  | coreStatus => exact ⟨_, rfl⟩
  | refused hf => exact absurd hs hf
  | faulted _ c => exact absurd ht (faultByte_ne_zero c)
  | completed _ hc =>
    cases hc with
    | readOnly => exact ⟨_, rfl⟩
    | _ => exact absurd hi nofun
  | coded hplace => exact absurd (placeOf_readOnly hi) hplace

/-- Settles O14: such a command changes the response only (`exec_readOnly`), and its answer does not depend on the
response it finds (`exec_withResp`), so run again it answers the very same state. -/
theorem readOnlyCommandsChangeNothing : Obligations.ReadOnlyCommandsChangeNothing := by
  intro i s t hi hs h ht
  obtain ⟨p, rfl⟩ := exec_readOnly hi hs h ht
  have hagain : exec i (withResp p s) = .next (withResp p s) := (exec_withResp hi p s).trans h
  exact ⟨rfl, withResp p s, hagain, rfl⟩

/-! ## The ByteBuffer is a FIFO (R57, R120) -/

/-- A run goes on behind an instruction that completed. -/
theorem runInstrs_cons {i : Instr} {s t : State} (l : List Instr) (h : exec i s = .next t) (ht : t.fault = 0) :
    runInstrs (i :: l) s = runInstrs l t := by
  simp only [runInstrs, h, ht, if_true]

/-- `BB.PUT` with room writes its byte at `BB_LEN` (R121). -/
theorem exec_bbPut_ok {s : State} (din : Word) (hs : s.fault = 0) (hroom : s.bbLen < s.cfg.bbMaxBytes) :
    exec (.bbPut din) s =
      .next (respond 0 0 { s with bbB := writeByte s.bbB s.bbLen (dinByte din), bbLen := s.bbLen + 1 }) := by
  have hput := (bbPut_eq_ok (dinByte din) s _).2 ⟨hroom, rfl⟩
  rw [exec_bbPut, execBbPut]
  exact runCommand_ok _ hs (by simp only [hput, bind_ok, pure_eq_ok])

/-- `BB.GET` with a byte left returns the one at `BB_RPOS` and consumes it (R122). -/
theorem exec_bbGet_ok {s : State} (hs : s.fault = 0) (hleft : s.bbRpos < s.bbLen) :
    exec .bbGet s = .next (respond ((readByte s.bbB s.bbRpos).setWidth 64) 0 { s with bbRpos := s.bbRpos + 1 }) := by
  have hget := (bbGet_eq_ok s _ _).2 ⟨hleft, rfl, rfl⟩
  rw [exec_bbGet, execBbGet]
  exact runCommand_ok _ hs (by simp only [hget, bind_ok, pure_eq_ok])

/-- The byte operand a program gives to `BB.PUT` is the byte itself (R72). -/
theorem dinByte_setWidth (b : Byte) : dinByte (b.setWidth 64) = b := by
  rw [dinByte, ← BitVec.setWidth_eq_extractLsb' (by decide), BitVec.setWidth_setWidth_of_le _ (by decide),
    BitVec.setWidth_eq]

/-- A `BB.PUT` of each byte of a list writes the list at `BB_LEN` (R57, R121). -/
theorem runInstrs_bbPut (l : List Byte) {s : State} (hs : s.fault = 0) (hroom : s.bbLen + l.length ≤ s.cfg.bbMaxBytes) :
    ∃ p, runInstrs (l.map fun b => Instr.bbPut (b.setWidth 64)) s =
      some (withResp p { s with bbB := putBytes s.bbB s.bbLen l, bbLen := s.bbLen + l.length }) := by
  induction l generalizing s with
  | nil => exact ⟨s.resp, rfl⟩
  | cons b l ih =>
    rw [List.length_cons] at hroom
    have hput := exec_bbPut_ok (b.setWidth 64) hs (by omega)
    rw [dinByte_setWidth] at hput
    rw [List.map_cons, runInstrs_cons _ hput hs, List.length_cons, ← Nat.add_assoc, Nat.add_right_comm]
    have hrest : s.bbLen + 1 + l.length ≤ s.cfg.bbMaxBytes := by omega
    exact ih hs hrest

/-- The last of `k + 1` `BB.GET`s returns the byte `k` places behind `BB_RPOS` (R122). -/
theorem runInstrs_bbGet (k : Nat) {s : State} (hs : s.fault = 0) (hleft : s.bbRpos + k < s.bbLen) :
    ∃ u, runInstrs (List.replicate (k + 1) .bbGet) s = some u ∧
      u.resp = some ⟨0, (readByte s.bbB (s.bbRpos + k)).setWidth 64, 0⟩ := by
  induction k generalizing s with
  | zero => exact ⟨_, runInstrs_cons [] (exec_bbGet_ok hs hleft) hs, rfl⟩
  | succ k ih =>
    rw [List.replicate_succ, runInstrs_cons _ (exec_bbGet_ok hs (by omega)) hs, ← Nat.add_assoc, Nat.add_right_comm]
    have hrest : s.bbRpos + 1 + k < s.bbLen := by omega
    exact ih hs hrest

/-- Settles O30: the puts leave the list at the old `BB_LEN`, where `BB_RPOS` stands, so the `k`-th
get finds its `k`-th byte. -/
theorem bytesAreReadInTheOrderAppended : Obligations.BytesAreReadInTheOrderAppended := by
  intro l s hs hwf hread hroom
  obtain ⟨p, hputs⟩ := runInstrs_bbPut l hs hroom
  refine ⟨_, hputs, fun k hk => ?_⟩
  have hbyte : readByte (putBytes s.bbB s.bbLen l) (s.bbRpos + k) = l[k] := by
    rw [readByte_putBytes hwf, hread, dif_pos (by omega)]
    simp only [Nat.add_sub_cancel_left]
  have hleft : s.bbRpos + k < s.bbLen + l.length := by omega
  rw [← hbyte]
  exact runInstrs_bbGet k hs hleft

end Sys2Proof.Machine
end

section
/-! SUPPORT. Reading fields and bytes back from the head of a string (R54, R57, R124), and the timestamp codes: what is read from
a bit string is the well-formed code whose bits stand at its head (R80 to R82). -/

namespace Sys2Proof

open Machine

/-! ## Fields and bytes at the head of a string (R54, R57) -/

theorem takeField_of_le {w : Nat} {l : List Bool} (h : w ≤ l.length) :
    takeField w l = some (wordOfBits (l.take w), l.drop w) := if_neg (Nat.not_lt.2 h)

theorem takeField_fieldBits {v : Word} {w : Nat} (hv : v.toNat < 2 ^ w) (rest : List Bool) :
    takeField w (fieldBits v w ++ rest) = some (v, rest) := by
  rw [takeField_of_le (by simp)]
  simp [wordOfBits_fieldBits v w hv]

theorem takeBytes_of_le {n : Nat} {l : List Byte} (h : n ≤ l.length) :
    takeBytes n l = some (wordOfBytes (l.take n), l.drop n) := if_neg (Nat.not_lt.2 h)

theorem takeBytes_lowBytes {y : Word} {n : Nat} (hy : y.toNat < 2 ^ (8 * n)) (rest : List Byte) :
    takeBytes n (lowBytes y n ++ rest) = some (y, rest) := by
  rw [takeBytes_of_le (by simp)]
  simp [wordOfBytes_lowBytes y n hy]

/-- A payload widened to a word fits in its own width (R54). -/
theorem toNat_setWidth_lt {w : Nat} (u : BitVec w) : (u.setWidth 64).toNat < 2 ^ w :=
  lt_of_le_of_lt (by simpa using Nat.mod_le _ _) u.isLt

/-- The payload read from the field of a value of its width is that value (R54). -/
theorem payload_fieldBits {w : Nat} (u : BitVec w) (hw : w ≤ 64) :
    (wordOfBits (fieldBits (u.setWidth 64) w)).setWidth w = u := by
  rw [wordOfBits_fieldBits _ w (toNat_setWidth_lt u), BitVec.setWidth_setWidth_of_le u hw, BitVec.setWidth_eq]

/-- The payload of `w` bits read from a bit string encodes to that string (R54). -/
theorem fieldBits_payload {b : List Bool} {w : Nat} (hb : b.length = w) (hw : w ≤ 64) :
    fieldBits (((wordOfBits b).setWidth w).setWidth 64) w = b := by
  subst hb
  have hlow : ((wordOfBits b).setWidth b.length).setWidth 64 = wordOfBits b := by
    apply BitVec.eq_of_toNat_eq
    simp [Nat.mod_eq_of_lt (wordOfBits_lt b), Nat.mod_eq_of_lt (wordOfBits b).isLt]
  rw [hlow, fieldBits_wordOfBits b hw]

/-! ## The prefixes of the timestamp codes (R80, R82) -/

/-- The five prefixes of R82, each with the number `readRunLength(4)` returns for it. -/
def tsPrefixes : List (List Bool × Word) :=
  [([false], 0), ([true, false], 2), ([true, true, false], 6), ([true, true, true, false], 14), ([true, true, true, true], 15)]

/-- The run loop answers exactly when one of the five prefixes stands at the head of the string (R82). -/
theorem readRunBits_eq_some {l rest : List Bool} {p : Word} :
    readRunBits 4 0 l = some (p, rest) ↔ ∃ q, (q, p) ∈ tsPrefixes ∧ l = q ++ rest := by
  constructor
  · intro h
    match l, h with
    | false :: _, h => cases h; exact ⟨[false], by decide, rfl⟩
    | true :: false :: _, h => cases h; exact ⟨[true, false], by decide, rfl⟩
    | true :: true :: false :: _, h => cases h; exact ⟨[true, true, false], by decide, rfl⟩
    | true :: true :: true :: false :: _, h => cases h; exact ⟨[true, true, true, false], by decide, rfl⟩
    | true :: true :: true :: true :: _, h => cases h; exact ⟨[true, true, true, true], by decide, rfl⟩
  · rintro ⟨q, hq, rfl⟩
    simp only [tsPrefixes, List.mem_cons, Prod.mk.injEq, List.not_mem_nil, or_false] at hq
    rcases hq with ⟨rfl, rfl⟩ | ⟨rfl, rfl⟩ | ⟨rfl, rfl⟩ | ⟨rfl, rfl⟩ | ⟨rfl, rfl⟩ <;> rfl

/-- The run loop stops at a clear bit, or after the bits it may read (R107). -/
theorem readRunBits_of_le {n : Nat} {l : List Bool} (r : Word) (h : n ≤ l.length) :
    ∃ p rest, readRunBits n r l = some (p, rest) := by
  induction n generalizing r l with
  | zero => exact ⟨r, l, rfl⟩
  | succ n ih =>
    match l, h with
    | true :: l, h => exact ih (pushBit r true) (Nat.le_of_succ_le_succ h)
    | false :: l, _ => exact ⟨pushBit r false, l, rfl⟩

/-! ## The timestamp codes (R80 to R82) -/

/-- A payload behind the bits `1111` is `TS.EOS` when all ones, else `TS.DOD32` (R80, R81). -/
theorem tsOfPrefix_escape (u : Word) :
    tsOfPrefix 15 u = if u.setWidth 32 = BitVec.allOnes 32 then .eos else .dod32 (u.setWidth 32) := rfl

/-- The timestamp code read from the run `q` and the payload bits `b` encodes to these bits and is well-formed (R80, R81). -/
theorem encodeTs_tsOfPrefix {q b : List Bool} {p : Word} (hq : (q, p) ∈ tsPrefixes) (hb : b.length = tsPayloadWidth p) :
    encodeTs (tsOfPrefix p (wordOfBits b)) = q ++ b ∧ (tsOfPrefix p (wordOfBits b)).toInstr.wf = true := by
  simp only [tsPrefixes, List.mem_cons, Prod.mk.injEq, List.not_mem_nil, or_false] at hq
  rcases hq with ⟨rfl, rfl⟩ | ⟨rfl, rfl⟩ | ⟨rfl, rfl⟩ | ⟨rfl, rfl⟩ | ⟨rfl, rfl⟩
  · cases List.length_eq_zero_iff.1 hb
    exact ⟨rfl, rfl⟩
  · exact ⟨congrArg ([true, false] ++ ·) (fieldBits_payload hb (by decide)), rfl⟩
  · exact ⟨congrArg ([true, true, false] ++ ·) (fieldBits_payload hb (by decide)), rfl⟩
  · exact ⟨congrArg ([true, true, true, false] ++ ·) (fieldBits_payload hb (by decide)), rfl⟩
  · have hbits : fieldBits (((wordOfBits b).setWidth 32).setWidth 64) 32 = b := fieldBits_payload hb (by decide)
    rw [tsOfPrefix_escape]
    split
    · next hall =>
      rw [hall] at hbits
      rw [← hbits]
      exact ⟨rfl, rfl⟩
    · next hall => exact ⟨congrArg ([true, true, true, true] ++ ·) hbits, bne_iff_ne.2 hall⟩

/-- Every well-formed timestamp code is one of the five prefixes and its payload (R80, R81). -/
theorem exists_tsOfPrefix {c : TsCode} (hc : c.toInstr.wf = true) :
    ∃ q p b, (q, p) ∈ tsPrefixes ∧ b.length = tsPayloadWidth p ∧ c = tsOfPrefix p (wordOfBits b) := by
  cases c with
  | dod0 => exact ⟨[false], 0, [], by decide, rfl, rfl⟩
  | dod7 u =>
    exact ⟨[true, false], 2, fieldBits (u.setWidth 64) 7, by decide, rfl,
      congrArg TsCode.dod7 (payload_fieldBits u (by decide)).symm⟩
  | dod9 u =>
    exact ⟨[true, true, false], 6, fieldBits (u.setWidth 64) 9, by decide, rfl,
      congrArg TsCode.dod9 (payload_fieldBits u (by decide)).symm⟩
  | dod12 u =>
    exact ⟨[true, true, true, false], 14, fieldBits (u.setWidth 64) 12, by decide, rfl,
      congrArg TsCode.dod12 (payload_fieldBits u (by decide)).symm⟩
  | dod32 u =>
    refine ⟨[true, true, true, true], 15, fieldBits (u.setWidth 64) 32, by decide, rfl, ?_⟩
    rw [tsOfPrefix_escape, payload_fieldBits u (by decide), if_neg (bne_iff_ne.1 hc)]
  | eos => exact ⟨[true, true, true, true], 15, List.replicate 32 true, by decide, rfl, by decide⟩

/-- What the decoder reads from the head of a bit string is the well-formed timestamp code whose bits stand there (R80 to
R82). -/
theorem decodeTs_eq_some {l rest : List Bool} {c : TsCode} :
    decodeTs l = some (c, rest) ↔ c.toInstr.wf = true ∧ l = encodeTs c ++ rest := by
  constructor
  · intro h
    unfold decodeTs at h
    split at h
    · cases h
    · next p l1 hrun =>
      obtain ⟨q, hq, rfl⟩ := readRunBits_eq_some.1 hrun
      by_cases hw : tsPayloadWidth p ≤ l1.length
      · rw [takeField_of_le hw] at h
        cases h
        obtain ⟨hbits, hwf⟩ := encodeTs_tsOfPrefix hq (List.length_take_of_le hw)
        exact ⟨hwf, by rw [hbits, List.append_assoc, List.take_append_drop]⟩
      · rw [takeField, if_pos (Nat.not_le.1 hw)] at h
        cases h
  · rintro ⟨hwf, rfl⟩
    obtain ⟨q, p, b, hq, hb, rfl⟩ := exists_tsOfPrefix hwf
    have hrun := readRunBits_eq_some.2 ⟨q, hq, List.append_assoc q b rest⟩
    rw [(encodeTs_tsOfPrefix hq hb).1, decodeTs, hrun]
    simp [takeField, ← hb]

/-- Every bit string of 36 bits or more starts with a timestamp code (R82). -/
theorem decodeTs_of_le {l : List Bool} (h : 36 ≤ l.length) : ∃ c rest, decodeTs l = some (c, rest) := by
  obtain ⟨p, l1, hrun⟩ := readRunBits_of_le (n := 4) (l := l) 0 (by omega)
  obtain ⟨q, hq, rfl⟩ := readRunBits_eq_some.1 hrun
  have hlen : q.length + tsPayloadWidth p ≤ 36 := by
    have hall : ∀ x ∈ tsPrefixes, x.1.length + tsPayloadWidth x.2 ≤ 36 := by decide
    exact hall _ hq
  rw [List.length_append] at h
  exact ⟨tsOfPrefix p (wordOfBits (l1.take (tsPayloadWidth p))), l1.drop (tsPayloadWidth p),
    by rw [decodeTs, hrun]; dsimp only; rw [takeField_of_le (by omega)]⟩

end Sys2Proof
end

section
/-! The value codes: a well-formed code is read back from its bytes, and the code that is read is well-formed and has
the bytes that were consumed (R83 to R87, R187). -/

namespace Sys2Proof

open Machine

/-! ## The header and the info byte (R84, R85) -/

theorem toNat_header (k : BitVec 7) : (0x80#8 ||| k.setWidth 8).toNat = 0x80 + k.toNat := by
  have hk : k.toNat < 2 ^ 7 := k.isLt
  rw [BitVec.toNat_or, BitVec.toNat_setWidth_of_le (by decide)]
  exact (Nat.two_pow_add_eq_or_of_lt hk 1).symm

theorem setWidth_header (k : BitVec 7) : (0x80#8 ||| k.setWidth 8).setWidth 7 = k := by
  have hk : k.toNat < 2 ^ 7 := k.isLt
  apply BitVec.eq_of_toNat_eq
  rw [BitVec.toNat_setWidth, toNat_header]
  omega

/-- A byte from `0x80` on is the header of its low 7 bits. -/
theorem header_setWidth {h : Byte} (hh : 0x80 ≤ h.toNat) : 0x80#8 ||| (h.setWidth 7).setWidth 8 = h := by
  have hlt : h.toNat < 2 ^ 8 := h.isLt
  apply BitVec.eq_of_toNat_eq
  rw [toNat_header, BitVec.toNat_setWidth]
  omega

/-- Only the offset `0x7F` has the header of an escape (R84, R87). -/
theorem header_eq_escape (k : BitVec 7) : 0x80#8 ||| k.setWidth 8 = 0xFF#8 ↔ k = 0x7F#7 := by
  rw [← BitVec.toNat_inj, ← BitVec.toNat_inj, toNat_header]
  change 0x80 + k.toNat = 0xFF ↔ k.toNat = 0x7F
  omega

@[simp] theorem infoT_append (t l : BitVec 4) : infoT (t ++ l) = t := BitVec.extractLsb'_append_eq_left

@[simp] theorem infoL_append (t l : BitVec 4) : infoL (t ++ l) = l := BitVec.extractLsb'_append_eq_right

theorem infoT_append_infoL (info : Byte) : (infoT info ++ infoL info : BitVec 8) = info :=
  (BitVec.extractLsb'_append_extractLsb'_eq_extractLsb' rfl).trans BitVec.extractLsb'_eq_self

/-! ## The value codes (R83 to R87) -/

/-- A first byte below `0x80` is an `EXACT` code (R83, R87). -/
theorem decodeVal_exact {h : Byte} (l : List Byte) (hh : h.toNat < 0x80) :
    decodeVal (h :: l) = some (.exact (h.setWidth 7), l) := if_pos hh

/-- A first byte `0xFF` is an `ESCAPE` code of 8 more bytes (R86, R87). -/
theorem decodeVal_escape {l : List Byte} (hl : 8 ≤ l.length) :
    decodeVal (0xFF :: l) = some (.escape (wordOfBytes (l.take 8)), l.drop 8) := by
  simp [decodeVal, takeBytes_of_le hl]

/-- A first byte from `0x80` to `0xFE` is an `XOR` code, which has no data where the info byte is malformed (R84, R187). -/
theorem decodeVal_malformed {h info : Byte} (l : List Byte) (hh : 0x80 ≤ h.toNat) (hne : h ≠ 0xFF)
    (hinfo : 8 < (infoT info).toNat + (infoL info).toNat) :
    decodeVal (h :: info :: l) = some (.xor (h.setWidth 7) (infoT info) (infoL info) 0, l) := by
  rw [decodeVal, if_neg (Nat.not_lt.2 hh), if_neg hne]
  exact if_pos hinfo

/-- An `XOR` code whose info byte is not malformed has the data bytes it asks for (R84, R85). -/
theorem decodeVal_xor {h info : Byte} {l : List Byte} (hh : 0x80 ≤ h.toNat) (hne : h ≠ 0xFF)
    (hinfo : (infoT info).toNat + (infoL info).toNat ≤ 8) (hl : (infoL info).toNat ≤ l.length) :
    decodeVal (h :: info :: l) =
      some (.xor (h.setWidth 7) (infoT info) (infoL info) (wordOfBytes (l.take (infoL info).toNat)),
        l.drop (infoL info).toNat) := by
  rw [decodeVal, if_neg (Nat.not_lt.2 hh), if_neg hne]
  rw [if_neg (Nat.not_lt.2 hinfo), takeBytes_of_le hl]

/-- A well-formed value code is read from the head of any byte string that begins with it (R87). -/
theorem decodeVal_encodeVal {c : ValCode} (hc : c.toInstr.wf = true) (rest : List Byte) :
    decodeVal (encodeVal c ++ rest) = some (c, rest) := by
  cases c with
  | exact h =>
    have hlt : (h.setWidth 8).toNat < 0x80 := by
      rw [BitVec.toNat_setWidth_of_le (by decide)]
      exact h.isLt
    refine (decodeVal_exact rest hlt).trans ?_
    rw [BitVec.setWidth_setWidth_of_le h (by decide), BitVec.setWidth_eq]
  | escape v =>
    refine (decodeVal_escape (l := bytes64 v ++ rest) (by simp)).trans ?_
    simp [wordOfBytes_bytes64]
  | xor k t l y =>
    simp only [ValCode.toInstr, Instr.wf, Bool.and_eq_true, bne_iff_ne] at hc
    obtain ⟨hk, hy⟩ := hc
    have hh : 0x80 ≤ (0x80#8 ||| k.setWidth 8).toNat := by rw [toNat_header]; exact Nat.le_add_right _ _
    have hne : 0x80#8 ||| k.setWidth 8 ≠ 0xFF := mt (header_eq_escape k).1 hk
    by_cases htl : t.toNat + l.toNat ≤ 8
    · rw [if_pos htl, decide_eq_true_eq] at hy
      have hx := decodeVal_xor (info := t ++ l) (l := lowBytes y l.toNat ++ rest) hh hne (by simpa using htl) (by simp)
      simpa [encodeVal, Nat.not_lt.2 htl, setWidth_header, wordOfBytes_lowBytes y _ hy] using hx
    · rw [if_neg htl, beq_iff_eq] at hy
      have hx := decodeVal_malformed (info := t ++ l) rest hh hne (by simpa using htl)
      simpa [encodeVal, Nat.not_le.1 htl, setWidth_header, hy] using hx

/-- The code read from a first byte below `0x80` (R83). -/
theorem encodeVal_exact_of_lt {h : Byte} (hh : h.toNat < 0x80) : encodeVal (.exact (h.setWidth 7)) = [h] := by
  have hlow : (h.setWidth 7).setWidth 8 = h := by
    apply BitVec.eq_of_toNat_eq
    simp only [BitVec.toNat_setWidth]
    omega
  exact congrArg (· :: []) hlow

/-- The data bytes of a code are the bytes its value was read from (R57, R84, R86). -/
theorem lowBytes_take {n : Nat} {l : List Byte} (hl : n ≤ l.length) (hn : n ≤ 8) :
    lowBytes (wordOfBytes (l.take n)) n = l.take n := by
  have hlen : (l.take n).length = n := List.length_take_of_le hl
  have hbytes := lowBytes_wordOfBytes (l.take n) (by omega)
  rwa [hlen] at hbytes

theorem wordOfBytes_take_lt {n : Nat} {l : List Byte} (hl : n ≤ l.length) :
    (wordOfBytes (l.take n)).toNat < 2 ^ (8 * n) := by
  have hlt := wordOfBytes_lt (l.take n)
  rwa [List.length_take_of_le hl] at hlt

/-- From a first byte `0x80` to `0xFE`, an info byte and the data bytes it asks for, a well-formed `XOR` code is read whose
bytes are those (R84, R85, R187). -/
theorem exists_decodeVal_xor {h info : Byte} {l : List Byte} (hh : 0x80 ≤ h.toNat) (hne : h ≠ 0xFF) (hl : 15 ≤ l.length) :
    ∃ y rest, decodeVal (h :: info :: l) = some (.xor (h.setWidth 7) (infoT info) (infoL info) y, rest) ∧
      (ValCode.xor (h.setWidth 7) (infoT info) (infoL info) y).toInstr.wf = true ∧
      h :: info :: l = encodeVal (.xor (h.setWidth 7) (infoT info) (infoL info) y) ++ rest := by
  have hk : h.setWidth 7 ≠ 0x7F#7 := fun hk => hne (by rw [← header_setWidth hh, hk]; rfl)
  have hL : (infoL info).toNat < 16 := (infoL info).isLt
  by_cases htl : (infoT info).toNat + (infoL info).toNat ≤ 8
  · have hle : (infoL info).toNat ≤ l.length := by omega
    refine ⟨_, _, decodeVal_xor hh hne htl hle, ?_, ?_⟩
    · simp [ValCode.toInstr, Instr.wf, hk, htl, wordOfBytes_take_lt hle]
    · simp [encodeVal, header_setWidth hh, infoT_append_infoL, Nat.not_lt.2 htl, lowBytes_take hle (by omega)]
  · refine ⟨_, _, decodeVal_malformed l hh hne (Nat.not_le.1 htl), ?_, ?_⟩
    · simp [ValCode.toInstr, Instr.wf, hk, htl]
    · simp [encodeVal, header_setWidth hh, infoT_append_infoL, Nat.not_le.1 htl]

/-- Settles O5: a code is read back from its bytes (`decodeVal_encodeVal`), and the three ranges of the first byte cover every
byte, each with its code. -/
theorem firstByteSelectsTheValueCode : Obligations.FirstByteSelectsTheValueCode := by
  refine ⟨fun c rest hc => decodeVal_encodeVal hc rest, fun h l hl => ?_⟩
  by_cases hlow : h.toNat < 0x80
  · refine ⟨_, _, decodeVal_exact l hlow, rfl, by rw [encodeVal_exact_of_lt hlow]; rfl, fun _ => ⟨_, rfl⟩,
      fun hge => absurd hlow (Nat.not_lt.2 hge), ?_⟩
    rintro rfl
    exact absurd hlow (by decide)
  · by_cases hff : h = 0xFF
    · subst hff
      refine ⟨_, _, decodeVal_escape (by omega), rfl, ?_, fun hlt => absurd hlt hlow, fun _ hle => absurd hle (by decide),
        fun _ => ⟨_, rfl⟩⟩
      simp [encodeVal, bytes64, lowBytes_take (n := 8) (l := l) (by omega)]
    · match l, hl with
      | info :: l, hl =>
        obtain ⟨y, rest, hdec, hwf, hbytes⟩ :=
          exists_decodeVal_xor (info := info) (Nat.not_lt.1 hlow) hff (Nat.le_of_succ_le_succ hl)
        exact ⟨_, rest, hdec, hwf, hbytes, fun hlt => absurd hlt hlow, fun _ _ => ⟨_, _, _, y, rfl⟩, fun h => absurd h hff⟩

end Sys2Proof
end

section
/-! The decoder reads every instruction back from its encoding (R71 to R88, R103). -/

namespace Sys2Proof

open Machine

/-! ## Commands (R71, R74) -/

@[simp] theorem opField_commandWord (op imm : Byte) : opField (commandWord op imm) = op := BitVec.extractLsb'_append_eq_left

@[simp] theorem immField_commandWord (op imm : Byte) : immField (commandWord op imm) = imm := BitVec.extractLsb'_append_eq_right

/-- A command sent with an immediate and a data operand is looked up by its opcode (R74). -/
theorem decodeAt_sendCommand (i : Instr) (imm : Byte) (din : Word) :
    decodeAt .port (sendCommand i imm din) = decodeOp (opcodeOf i).toNat imm din := by
  simp [sendCommand, decodeAt, decodeCommand]

/-! ## Stream codes (R79 to R88) -/

theorem decodeAt_fieldBits_anchor (a : Word) : decodeAt .anchor (.bits (fieldBits a 64)) = some (.tsAnchor a) := by
  have htake := takeField_fieldBits a.isLt []
  rw [List.append_nil] at htake
  simp only [decodeAt, htake]

theorem decodeAt_fieldBits_firstDelta (d : BitVec 32) :
    decodeAt .firstDelta (.bits (fieldBits (d.setWidth 64) 32)) = some (.tsFirstdelta d) := by
  have htake := takeField_fieldBits (toNat_setWidth_lt d) []
  rw [List.append_nil] at htake
  simp only [decodeAt, htake, BitVec.setWidth_setWidth_of_le d (by decide : 32 ≤ 64), BitVec.setWidth_eq]

theorem decodeAt_encodeTs {c : TsCode} (hc : c.toInstr.wf = true) :
    decodeAt .tsRow (.bits (encodeTs c)) = some c.toInstr := by
  have hdec : decodeTs (encodeTs c) = some (c, []) := decodeTs_eq_some.2 ⟨hc, (List.append_nil _).symm⟩
  simp only [decodeAt, hdec]

theorem decodeAt_encodeVal {c : ValCode} (hc : c.toInstr.wf = true) :
    decodeAt .rowVal (.bytes (encodeVal c)) = some c.toInstr := by
  have hdec := decodeVal_encodeVal hc []
  rw [List.append_nil] at hdec
  simp only [decodeAt, hdec]

theorem decodeAt_trailerBits : decodeAt .trailer (.bits trailerBits) = some .bpTrailer := by simp only [decodeAt, if_true]

theorem decodeAt_bytes64 (v : Word) : decodeAt .firstVal (.bytes (bytes64 v)) = some (.valFirst v) := by
  have htake := takeBytes_lowBytes (n := 8) v.isLt []
  rw [List.append_nil] at htake
  simp only [decodeAt, bytes64, htake]

/-- Settles O1, constructor by constructor: a command by its row of the opcode map (`decodeAt_sendCommand`), a stream code by
the round trip of its place. -/
theorem decodeOfEncodeIsTheInstruction : Obligations.DecodeOfEncodeIsTheInstruction := by
  intro i hi
  cases i with
  | tsAnchor a => exact decodeAt_fieldBits_anchor a
  | tsFirstdelta d => exact decodeAt_fieldBits_firstDelta d
  | tsDod0 => exact decodeAt_encodeTs (c := .dod0) hi
  | tsDod7 u => exact decodeAt_encodeTs (c := .dod7 u) hi
  | tsDod9 u => exact decodeAt_encodeTs (c := .dod9 u) hi
  | tsDod12 u => exact decodeAt_encodeTs (c := .dod12 u) hi
  | tsDod32 u => exact decodeAt_encodeTs (c := .dod32 u) hi
  | tsEos => exact decodeAt_encodeTs (c := .eos) hi
  | bpTrailer => exact decodeAt_trailerBits
  | valExact h => exact decodeAt_encodeVal (c := .exact h) hi
  | valXor k t l y => exact decodeAt_encodeVal (c := .xor k t l y) hi
  | valEscape v => exact decodeAt_encodeVal (c := .escape v) hi
  | valFirst v => exact decodeAt_bytes64 v
  | _ => exact decodeAt_sendCommand _ _ _

/-- Settles O3: each word is the encoding of its instruction, which the decoder reads back (O1). -/
theorem sampleWordsDecode : Obligations.SampleWordsDecode :=
  ⟨decodeOfEncodeIsTheInstruction (.bpAppend 9 0x102) rfl, decodeOfEncodeIsTheInstruction (.hwAt 3 5) rfl,
    decodeOfEncodeIsTheInstruction (.encRow 2 1001) rfl, decodeOfEncodeIsTheInstruction .decNext rfl,
    decodeOfEncodeIsTheInstruction (.tsDod7 2) rfl, decodeOfEncodeIsTheInstruction (.valXor 0 6 2 0x3FFC) rfl⟩

end Sys2Proof
end

section
/-! The Decoder's reading of the BitPacker is the decoder of bit strings on the bits that are left (R82, R105, R107, R185). -/

namespace Sys2Proof.Machine

/-! ## The bits that are left -/

/-- The stream bits not yet read, in stream order (R28, R29). -/
def restBits (s : State) : List Bool := streamBits s.bpW s.bpRpos (remaining s)

@[simp] theorem length_restBits (s : State) : (restBits s).length = remaining s := length_streamBits _ _ _

/-- The state with the cursor moved past `n` bits. -/
def skipBits (n : Nat) (s : State) : State := { s with bpRpos := s.bpRpos + n }

theorem remaining_skipBits (n : Nat) (s : State) : remaining (skipBits n s) = remaining s - n := Nat.sub_add_eq _ _ _

theorem skipBits_skipBits (m n : Nat) (s : State) : skipBits m (skipBits n s) = skipBits (n + m) s := by
  simp only [skipBits, Nat.add_assoc]

theorem restBits_skipBits {n : Nat} {s : State} (h : n ≤ remaining s) :
    restBits s = streamBits s.bpW s.bpRpos n ++ restBits (skipBits n s) := by
  have hsplit := streamBits_add s.bpW s.bpRpos n (remaining s - n)
  rw [Nat.add_sub_cancel' h] at hsplit
  rw [restBits, hsplit, restBits, remaining_skipBits]
  rfl

/-- A string stands at the head of the bits that are left exactly when they are as many and the stream holds it there. -/
theorem restBits_eq_append {q : List Bool} {s : State} :
    (∃ rest, restBits s = q ++ rest) ↔ q.length ≤ remaining s ∧ streamBits s.bpW s.bpRpos q.length = q := by
  constructor
  · rintro ⟨rest, h⟩
    have hle : q.length ≤ remaining s := by
      rw [← length_restBits, h, List.length_append]
      exact Nat.le_add_right _ _
    rw [restBits_skipBits hle] at h
    exact ⟨hle, (List.append_inj h (by simp)).1⟩
  · rintro ⟨hle, h⟩
    exact ⟨_, (restBits_skipBits hle).trans (by rw [h])⟩

/-- Behind a string at the head of the bits that are left stands the rest of them. -/
theorem restBits_skipBits_length {q rest : List Bool} {s : State} (h : restBits s = q ++ rest) :
    restBits (skipBits q.length s) = rest := by
  obtain ⟨hle, hq⟩ := restBits_eq_append.1 ⟨rest, h⟩
  rw [restBits_skipBits hle, hq] at h
  exact List.append_cancel_left h

/-! ## Reading them (R105, R107, R185) -/

/-- The result of a decoder of bit strings as a reading of the core: the cursor moves past the bits it consumed, and a string
that ends too early is `BP_UNDERFLOW`. -/
def atStream {α : Type} (s : State) : Option (α × List Bool) → Comp (α × State)
  | some (a, rest) => .ok (a, skipBits (remaining s - rest.length) s)
  | none => raise .bpUnderflow

theorem atStream_eq_ok {α : Type} {s t : State} {x : Option (α × List Bool)} {a : α} :
    atStream s x = .ok (a, t) ↔ ∃ rest, x = some (a, rest) ∧ t = skipBits (remaining s - rest.length) s := by
  cases x with
  | none => simp [atStream]
  | some y => simp [atStream, Prod.ext_iff, eq_comm, and_assoc]

/-- A reading that begins `n` bits further on is one of the whole. -/
theorem atStream_skipBits {α : Type} {n : Nat} {s : State} {x : Option (α × List Bool)}
    (hx : ∀ a rest, x = some (a, rest) → n + rest.length ≤ remaining s) : atStream (skipBits n s) x = atStream s x := by
  match x, hx with
  | none, _ => rfl
  | some (a, rest), hx =>
    have hle := hx a rest rfl
    have hsum : n + (remaining s - n - rest.length) = remaining s - rest.length := by omega
    rw [atStream, atStream, skipBits_skipBits, remaining_skipBits, hsum]

/-- The run loop of bit strings leaves an end of the string it is given. -/
theorem readRunBits_length_le {n : Nat} {r p : Word} {l rest : List Bool} (h : readRunBits n r l = some (p, rest)) :
    rest.length ≤ l.length := by
  induction n generalizing r l with
  | zero => cases h; exact Nat.le_refl _
  | succ n ih =>
    match l, h with
    | true :: l, h => exact Nat.le_succ_of_le (ih h)
    | false :: l, h => cases h; exact Nat.le_succ _

/-- The first bit of a run: a set bit goes on, a clear bit ends it (R107). -/
theorem readRunLoop_succ {n : Nat} {s : State} (r : Word) (h : 1 ≤ remaining s) :
    readRunLoop (n + 1) r s =
      if streamBit s.bpW s.bpRpos then readRunLoop n (pushBit r true) (skipBits 1 s)
      else .ok (pushBit r false, skipBits 1 s) := by
  refine (if_neg (Nat.not_lt.2 h)).trans ?_
  cases streamBit s.bpW s.bpRpos <;> rfl

/-- The loop of `BPReadRun` is that of bit strings on the bits that are left (R80, R107). -/
theorem readRunLoop_eq (n : Nat) (r : Word) (s : State) : readRunLoop n r s = atStream s (readRunBits n r (restBits s)) := by
  induction n generalizing r s with
  | zero => simp [readRunLoop, readRunBits, atStream, skipBits]
  | succ n ih =>
    by_cases h : remaining s < 1
    · have hnil : restBits s = [] := List.length_eq_zero_iff.1 (by rw [length_restBits]; omega)
      rw [hnil]
      exact if_pos h
    · have hcons : restBits s = streamBit s.bpW s.bpRpos :: restBits (skipBits 1 s) := restBits_skipBits (Nat.not_lt.1 h)
      rw [hcons, readRunLoop_succ r (Nat.not_lt.1 h)]
      cases streamBit s.bpW s.bpRpos with
      | false =>
        have hone : remaining s - (remaining s - 1) = 1 := by omega
        simp [readRunBits, atStream, remaining_skipBits, hone]
      | true =>
        refine (ih (pushBit r true) (skipBits 1 s)).trans (atStream_skipBits fun p rest hp => ?_)
        have hle := readRunBits_length_le hp
        rw [length_restBits, remaining_skipBits] at hle
        omega

/-- `BPReadRun(4)` answers exactly where one of the five prefixes stands, with its number, and consumes it (R82). -/
theorem bpReadRun_four_eq_ok {s t : State} {p : Word} :
    bpReadRun 4 s = .ok (p, t) ↔
      s.bpMode = .read ∧ ∃ q rest, (q, p) ∈ tsPrefixes ∧ restBits s = q ++ rest ∧ t = skipBits q.length s := by
  have hconsumed : ∀ {q rest : List Bool}, restBits s = q ++ rest → remaining s - rest.length = q.length := by
    intro q rest h
    rw [← length_restBits, h, List.length_append, Nat.add_sub_cancel]
  rw [bpReadRun_eq_ok, readRunLoop_eq, atStream_eq_ok]
  constructor
  · rintro ⟨hm, _, rest, hrun, rfl⟩
    obtain ⟨q, hq, h⟩ := readRunBits_eq_some.1 hrun
    exact ⟨hm, q, rest, hq, h, by rw [hconsumed h]⟩
  · rintro ⟨hm, q, rest, hq, h, rfl⟩
    exact ⟨hm, by decide, rest, readRunBits_eq_some.2 ⟨q, hq, h⟩, by rw [hconsumed h]⟩

/-- A field that stands at the head of the bits that are left is read (R105). -/
theorem bpRead_restBits {b rest : List Bool} {s : State} (hm : s.bpMode = .read) (hb : 1 ≤ b.length ∧ b.length ≤ 64)
    (h : restBits s = b ++ rest) : bpRead b.length s = .ok (wordOfBits b, skipBits b.length s) := by
  obtain ⟨hle, hbits⟩ := restBits_eq_append.1 ⟨rest, h⟩
  exact (bpRead_eq_ok _ _ _ _).2 ⟨hm, hb, hle, by rw [getField_zero, hbits], rfl⟩

/-- The Decoder reads the timestamp code at the head of the bits that are left and consumes exactly it (R82, R185). -/
theorem readTsCode_restBits {c : TsCode} {rest : List Bool} {s : State} (hm : s.bpMode = .read) (hc : c.toInstr.wf = true)
    (h : restBits s = encodeTs c ++ rest) : readTsCode s = .ok (c, skipBits (encodeTs c).length s) := by
  obtain ⟨q, p, b, hq, hb, rfl⟩ := exists_tsOfPrefix hc
  rw [(encodeTs_tsOfPrefix hq hb).1] at h ⊢
  rw [List.append_assoc] at h
  have hrun : bpReadRun 4 s = .ok (p, skipBits q.length s) := bpReadRun_four_eq_ok.2 ⟨hm, q, _, hq, h, rfl⟩
  rw [readTsCode, hrun, bind_ok]
  by_cases hp : p = 0
  · subst hp
    cases List.length_eq_zero_iff.1 hb
    simp [wordOfBits]
  · have hwidth : 1 ≤ tsPayloadWidth p ∧ tsPayloadWidth p ≤ 64 := by
      unfold tsPayloadWidth
      split_ifs <;> decide
    have hread := bpRead_restBits (s := skipBits q.length s) hm (hb ▸ hwidth) (restBits_skipBits_length h)
    dsimp only
    rw [if_neg hp, ← hb, hread, bind_ok]
    simp [skipBits_skipBits]

/-- Settles O4: on bit strings by `decodeTs_eq_some` and `decodeTs_of_le`, and in the core because its reading is the decoder's
on the bits that are left. -/
theorem timestampCodesAreAPrefixFreeCode : Obligations.TimestampCodesAreAPrefixFreeCode := by
  refine ⟨fun c rest hc => decodeTs_eq_some.2 ⟨hc, rfl⟩, fun l hl => ?_, fun s t p => ?_, fun s hm hleft => ?_,
    fun s hm hleft => ?_⟩
  · obtain ⟨c, rest, hdec⟩ := decodeTs_of_le hl
    obtain ⟨hwf, hbits⟩ := decodeTs_eq_some.1 hdec
    exact ⟨c, rest, hdec, hwf, hbits⟩
  · rw [bpReadRun_four_eq_ok]
    constructor
    · rintro ⟨hm, q, rest, hq, h, rfl⟩
      obtain ⟨hle, hbits⟩ := restBits_eq_append.1 ⟨rest, h⟩
      exact ⟨hm, q, hq, hle, hbits, rfl⟩
    · rintro ⟨hm, q, hq, hle, hbits, rfl⟩
      obtain ⟨rest, h⟩ := restBits_eq_append.2 ⟨hle, hbits⟩
      exact ⟨hm, q, rest, hq, h, rfl⟩
  · obtain ⟨p, rest, hrun⟩ := readRunBits_of_le (n := 4) (l := restBits s) 0 (by rwa [length_restBits])
    obtain ⟨q, hq, h⟩ := readRunBits_eq_some.1 hrun
    exact ⟨p, _, bpReadRun_four_eq_ok.2 ⟨hm, q, rest, hq, h, rfl⟩⟩
  · obtain ⟨c, rest, hdec⟩ := decodeTs_of_le (l := restBits s) (by rwa [length_restBits])
    obtain ⟨hwf, hbits⟩ := decodeTs_eq_some.1 hdec
    exact ⟨c, readTsCode_restBits hm hwf hbits, hwf, (restBits_eq_append.1 ⟨rest, hbits⟩).2⟩

end Sys2Proof.Machine
end

section
/-! SUPPORT. No operation and no command raises `ILLEGAL_COMMAND`: it is the fault of a command word that matches no row alone
(R75, R221). -/

namespace Sys2Proof.Machine

/-! ## Computations -/

/-- The computation does not raise `ILLEGAL_COMMAND`. -/
def NotIllegal {α : Type} (x : Comp α) : Prop := x ≠ .error .illegalCommand

theorem NotIllegal.ok {α : Type} (a : α) : NotIllegal (.ok a) := nofun

theorem NotIllegal.raise {α : Type} {c : FaultCode} (hc : c ≠ .illegalCommand) : NotIllegal (raise c : Comp α) :=
  fun h => hc (Except.error.inj h)

theorem NotIllegal.ite {α : Type} {p : Prop} [Decidable p] {x y : Comp α} (hx : NotIllegal x) (hy : NotIllegal y) :
    NotIllegal (if p then x else y) := by
  split
  · exact hx
  · exact hy

theorem NotIllegal.check {α : Type} {p : Prop} [Decidable p] {c : FaultCode} {x : Comp α} (hc : c ≠ .illegalCommand)
    (hx : NotIllegal x) : NotIllegal (if p then Machine.raise c else x) := .ite (.raise hc) hx

theorem NotIllegal.bind {α β : Type} {x : Comp α} {f : α → Comp β} (hx : NotIllegal x) (hf : ∀ a, NotIllegal (f a)) :
    NotIllegal (x >>= f) := by
  intro h
  rcases (bind_eq_error _ _ _).1 h with h | ⟨a, _, h⟩
  · exact hx h
  · exact hf a h

/-! ## The shared operations (R101 to R135) -/

theorem columnCheck_notIllegal (s : State) (col : Byte) : NotIllegal (columnCheck s col) := .check nofun (.ok _)

theorem countCheck_notIllegal (s : State) (n : Byte) : NotIllegal (countCheck s n) := .check nofun (.ok _)

theorem bpAppend_notIllegal (v : Word) (w : Nat) (s : State) : NotIllegal (bpAppend v w s) :=
  .check nofun <| .check nofun <| .check nofun <| .check nofun <| .ok _

theorem bpClose_notIllegal (s : State) : NotIllegal (bpClose s) :=
  .check nofun <| .check nofun <| .bind (bpAppend_notIllegal _ _ _) fun _ => .bind (bpAppend_notIllegal _ _ _) fun _ =>
    .bind (bpAppend_notIllegal _ _ _) fun _ => .bind (bpAppend_notIllegal _ _ _) fun _ => .ok _

theorem bpFreeze_notIllegal (s : State) : NotIllegal (bpFreeze s) := .check nofun (.ok _)

theorem bpRead_notIllegal (w : Nat) (s : State) : NotIllegal (bpRead w s) :=
  .check nofun <| .check nofun <| .check nofun <| .ok _

theorem atStream_notIllegal {α : Type} (s : State) (x : Option (α × List Bool)) : NotIllegal (atStream s x) :=
  match x with
  | some _ => .ok _
  | none => .raise nofun

theorem bpReadRun_notIllegal (m : Nat) (s : State) : NotIllegal (bpReadRun m s) :=
  .check nofun <| .check nofun <| readRunLoop_eq m 0 s ▸ atStream_notIllegal s _

theorem bbPut_notIllegal (b : Byte) (s : State) : NotIllegal (bbPut b s) := .check nofun (.ok _)

theorem bbPutAll_notIllegal (l : List Byte) (s : State) : NotIllegal (bbPutAll l s) := by
  induction l generalizing s with
  | nil => exact .ok _
  | cons b l ih => exact .bind (bbPut_notIllegal b s) ih

theorem bbGet_notIllegal (s : State) : NotIllegal (bbGet s) := .check nofun (.ok _)

theorem bbGetLoop_notIllegal (n : Nat) (r : Word) (s : State) : NotIllegal (bbGetLoop n r s) := by
  induction n generalizing r s with
  | zero => exact .ok _
  | succ n ih => exact .bind (bbGet_notIllegal s) fun _ => ih _ _

theorem best_notIllegal (v : Word) (x : Window) : NotIllegal (x.best v) := .check nofun (.ok _)

theorem entryAt_notIllegal (k : Nat) (x : Window) : NotIllegal (x.entryAt k) := .check nofun (.ok _)

/-! ## The Encoder's and the Decoder's operations (R151 to R162, R182 to R188) -/

theorem appendBucket_notIllegal (u : Word) (s : State) : NotIllegal (appendBucket u s) :=
  .ite (bpAppend_notIllegal _ _ _) <| .ite (bpAppend_notIllegal _ _ _) <| .ite (bpAppend_notIllegal _ _ _) <|
    .bind (bpAppend_notIllegal _ _ _) fun _ => bpAppend_notIllegal _ _ _

theorem encodeTimestamp_notIllegal (t : Word) (s : State) : NotIllegal (encodeTimestamp t s) :=
  .bind (.ite (bpAppend_notIllegal _ _ _) (appendBucket_notIllegal _ _)) fun _ => .ok _

theorem rowTimestamp_notIllegal (n : Byte) (t : Word) (s : State) : NotIllegal (rowTimestamp n t s) :=
  .ite (.bind (bpAppend_notIllegal _ _ _) fun _ => .ok _) (.check nofun (encodeTimestamp_notIllegal t s))

theorem chooseCode_notIllegal (x : Window) (raw : Word) : NotIllegal (chooseCode x raw) := by
  unfold chooseCode
  split
  · exact .ok _
  · exact .bind (best_notIllegal raw x) fun _ => .ok _

theorem appendValue_notIllegal (c : Nat) (raw : Word) (s : State) : NotIllegal (appendValue c raw s) :=
  .ite (bbPutAll_notIllegal _ _) (.bind (chooseCode_notIllegal _ _) fun _ => bbPutAll_notIllegal _ _)

theorem readTsCode_notIllegal (s : State) : NotIllegal (readTsCode s) :=
  .bind (bpReadRun_notIllegal 4 s) fun _ => .ite (.ok _) (.bind (bpRead_notIllegal _ _) fun _ => .ok _)

theorem readValCode_notIllegal (s : State) : NotIllegal (readValCode s) :=
  .bind (bbGet_notIllegal s) fun _ => .ite (.ok _) <| .ite (.bind (bbGetLoop_notIllegal _ _ _) fun _ => .ok _) <|
    .bind (bbGet_notIllegal _) fun _ => .ite (.ok _) (.bind (bbGetLoop_notIllegal _ _ _) fun _ => .ok _)

theorem codeValue_notIllegal (c : ValCode) (x : Window) : NotIllegal (codeValue c x) := by
  cases c with
  | exact h => exact entryAt_notIllegal _ x
  | xor k t l y => exact .check nofun (.bind (entryAt_notIllegal _ x) fun _ => .ok _)
  | escape v => exact .ok v

theorem readFirstValues_notIllegal (n : Nat) (s : State) : NotIllegal (readFirstValues n s) := by
  induction n generalizing s with
  | zero => exact .ok s
  | succ n ih => exact .bind (bbGetLoop_notIllegal _ _ _) fun _ => ih _

theorem readRowValues_notIllegal (n : Nat) (s : State) : NotIllegal (readRowValues n s) := by
  induction n generalizing s with
  | zero => exact .ok s
  | succ n ih =>
    exact .bind (readValCode_notIllegal s) fun _ => .bind (.bind (codeValue_notIllegal _ _) fun _ => .ok _) fun _ => ih _

theorem decodeRow_notIllegal (s : State) : NotIllegal (decodeRow s) :=
  .ite (.bind (bpRead_notIllegal 32 s) fun _ => .ite (.ok _) (.bind (readFirstValues_notIllegal _ _) fun _ => .ok _))
    (.bind (readTsCode_notIllegal s) fun _ => .ite (.ok _) (.bind (readRowValues_notIllegal _ _) fun _ => .ok _))

/-! ## The commands -/

theorem faultByte_eq_illegalCommand {c : FaultCode} : faultByte c = faultByte .illegalCommand ↔ c = .illegalCommand := by
  cases c <;> decide

/-- The response of a command that took the fault `ILLEGAL_COMMAND` (R225). -/
def illegalResponse : Option Response := some ⟨faultByte .illegalCommand, 0, 0⟩

theorem resp_ne_illegal {st : Byte} (r0 r1 : Word) (h : st ≠ faultByte .illegalCommand) :
    some ⟨st, r0, r1⟩ ≠ illegalResponse := fun hr => h (congrArg Response.st (Option.some.inj hr))

theorem respond_ne_illegal (r0 r1 : Word) (s : State) : (respond r0 r1 s).resp ≠ illegalResponse :=
  resp_ne_illegal r0 r1 (by decide)

/-- A command whose body does not raise `ILLEGAL_COMMAND` does not answer it. -/
theorem runCommand_ne_illegal {i : Instr} {s t : State} {body : State → Comp (State × Word × Word)}
    (h : runCommand i s body = .next t) (hb : NotIllegal (body s)) : t.resp ≠ illegalResponse := by
  rcases runCommand_cases i s body with ⟨_, e⟩ | ⟨_, u, r0, r1, _, e⟩ | ⟨_, c, hc, e⟩ <;> rw [e] at h <;> cases h
  · exact resp_ne_illegal 0 0 (by decide)
  · exact respond_ne_illegal r0 r1 u
  · refine resp_ne_illegal 0 0 fun hcode => ?_
    cases faultByte_eq_illegalCommand.1 hcode
    exact hb hc

/-- No command answers `ILLEGAL_COMMAND` (R221). -/
theorem exec_ne_illegal {i : Instr} {s t : State} (hi : placeOf i = .port) (h : exec i s = .next t) :
    t.resp ≠ illegalResponse := by
  cases i with simp only [exec] at h
  | nop => cases h; exact respond_ne_illegal _ _ _
  | coreReset => cases h; exact respond_ne_illegal _ _ _
  | coreStatus => cases h; exact respond_ne_illegal _ _ _
  | bpAppend w din => exact runCommand_ne_illegal h (.bind (bpAppend_notIllegal _ _ _) fun _ => .ok _)
  | bpClose => exact runCommand_ne_illegal h (.bind (bpClose_notIllegal _) fun _ => .ok _)
  | bpRead w => exact runCommand_ne_illegal h (.bind (bpRead_notIllegal _ _) fun _ => .ok _)
  | bpSize => exact runCommand_ne_illegal h (.ok _)
  | bpReadrun m => exact runCommand_ne_illegal h (.bind (bpReadRun_notIllegal _ _) fun _ => .ok _)
  | bpFreeze => exact runCommand_ne_illegal h (.bind (bpFreeze_notIllegal _) fun _ => .ok _)
  | bbPut din => exact runCommand_ne_illegal h (.bind (bbPut_notIllegal _ _) fun _ => .ok _)
  | bbGet => exact runCommand_ne_illegal h (.bind (bbGet_notIllegal _) fun _ => .ok _)
  | bbLen => exact runCommand_ne_illegal h (.ok _)
  | hwInit col => exact runCommand_ne_illegal h (.bind (columnCheck_notIllegal _ _) fun _ => .ok _)
  | hwAdd col din => exact runCommand_ne_illegal h (.bind (columnCheck_notIllegal _ _) fun _ => .ok _)
  | hwContains col din => exact runCommand_ne_illegal h (.bind (columnCheck_notIllegal _ _) fun _ => .ok _)
  | hwBest col din =>
    exact runCommand_ne_illegal h (.bind (columnCheck_notIllegal _ _) fun _ => .bind (best_notIllegal _ _) fun _ => .ok _)
  | hwAt col din =>
    exact runCommand_ne_illegal h (.bind (columnCheck_notIllegal _ _) fun _ => .bind (entryAt_notIllegal _ _) fun _ => .ok _)
  | hwCount col => exact runCommand_ne_illegal h (.bind (columnCheck_notIllegal _ _) fun _ => .ok _)
  | encBegin din => exact runCommand_ne_illegal h (.check nofun (.bind (bpAppend_notIllegal _ _ _) fun _ => .ok _))
  | encRow n din =>
    exact runCommand_ne_illegal h
      (.check nofun (.bind (countCheck_notIllegal _ _) fun _ => .bind (rowTimestamp_notIllegal _ _ _) fun _ => .ok _))
  | encVal din => exact runCommand_ne_illegal h (.check nofun (.bind (appendValue_notIllegal _ _ _) fun _ => .ok _))
  | encFinish => exact runCommand_ne_illegal h (.check nofun (.bind (bpClose_notIllegal _) fun _ => .ok _))
  | encBitsize => exact runCommand_ne_illegal h (.ok _)
  | decInit n =>
    exact runCommand_ne_illegal h
      (.check nofun (.bind (countCheck_notIllegal _ _) fun _ => .bind (bpRead_notIllegal _ _) fun _ => .ok _))
  | decNext => exact runCommand_ne_illegal h (.check nofun (.bind (decodeRow_notIllegal _) fun _ => .ok _))
  | decTs => exact runCommand_ne_illegal h (.check nofun (.ok _))
  | decVal col => exact runCommand_ne_illegal h (.check nofun (.check nofun (.ok _)))
  | expNwords => exact runCommand_ne_illegal h (.ok _)
  | expWord din => exact runCommand_ne_illegal h (.check nofun (.ok _))
  | expByte din => exact runCommand_ne_illegal h (.check nofun (.ok _))
  | _ => exact absurd hi nofun

/-! ## A command that completes leaves `FAULT` as it was -/

theorem DecoderMoves.fault {s t : State} (h : DecoderMoves s t) : t.fault = s.fault := by
  induction h with
  | refl => rfl
  | tail _ h ih => cases h <;> exact ih

theorem BitAppends.fault {s t : State} (h : BitAppends s t) : t.fault = s.fault := by
  obtain ⟨m, n, rfl⟩ := h.frame
  rfl

theorem bpClose_fault {s t : State} (h : bpClose s = .ok t) : t.fault = s.fault := by
  obtain ⟨_, u, hu, rfl⟩ := bpClose_appends h
  exact hu.fault

theorem rowTimestamp_fault {n : Byte} {x : Word} {s t : State} (h : rowTimestamp n x s = .ok t) : t.fault = s.fault := by
  obtain ⟨_, _, u, d, f, hu, rfl⟩ := rowTimestamp_appends h
  exact hu.fault.trans (by rw [rowStart_eq])

theorem appendValue_fault {c : Nat} {raw : Word} {s t : State} (h : appendValue c raw s = .ok t) : t.fault = s.fault := by
  obtain ⟨l, h⟩ := appendValue_bytes h
  obtain ⟨_, rfl⟩ := (bbPutAll_eq_ok _ _ _).1 h
  rfl

theorem Completes.fault {i : Instr} {s t : State} (h : Completes i s t) : t.fault = s.fault := by
  cases h with
  | readOnly => rfl
  | bpAppend h => exact BitAppends.fault (.single ⟨_, _, h⟩)
  | bpClose h => exact bpClose_fault h
  | bpRead h => exact DecoderMoves.fault (.single (bpRead_cursor h).move)
  | bpReadrun h => exact DecoderMoves.fault (.single (bpReadRun_cursor h).move)
  | bpFreeze h => obtain ⟨_, rfl⟩ := bpFreeze_eq_ok h; rfl
  | bbPut h => obtain ⟨_, rfl⟩ := (bbPut_eq_ok _ _ _).1 h; rfl
  | bbGet h => exact DecoderMoves.fault (.single (bbGet_move h))
  | hwInit | hwAdd => rfl
  | encBegin _ h => exact (BitAppends.fault (.single ⟨_, _, h⟩) :)
  | encRow _ _ h =>
    refine Eq.trans ?_ (rowTimestamp_fault h)
    unfold enterRow
    split <;> rfl
  | encVal _ h =>
    refine Eq.trans ?_ (appendValue_fault h)
    unfold nextColumn
    split <;> rfl
  | encFinish _ h => exact (bpClose_fault h :)
  | decInit _ _ h =>
    refine Eq.trans ?_ (DecoderMoves.fault (.single (bpRead_cursor h).move))
    unfold startDecoder
    rw [hwInitBelow_eq]
    rfl
  | decNext _ h =>
    refine Eq.trans ?_ (decodeRow_moves h).1.fault
    unfold finishNext
    split <;> rfl

end Sys2Proof.Machine
end

section
/-! The opcode map and the illegal command words (R74, R75, R221). -/

namespace Sys2Proof.Machine

/-! ## The opcode map (R74, R75) -/

/-- The command words that match no row (R75): an unassigned opcode, or a reserved immediate that is not 0. -/
def MatchesNoRow (op : Nat) (imm : Byte) : Prop :=
  (0x03 ≤ op ∧ op ≤ 0x0F) ∨ (0x16 ≤ op ∧ op ≤ 0x1F) ∨ (0x23 ≤ op ∧ op ≤ 0x2F) ∨ (0x36 ≤ op ∧ op ≤ 0x3F) ∨
  (0x45 ≤ op ∧ op ≤ 0x4F) ∨ (0x54 ≤ op ∧ op ≤ 0x5F) ∨ (0x63 ≤ op ∧ op ≤ 0xFF) ∨
  (op ∈ [0x00, 0x01, 0x02, 0x11, 0x13, 0x15, 0x20, 0x21, 0x22, 0x40, 0x42, 0x43, 0x44, 0x51, 0x52, 0x60, 0x61, 0x62] ∧ imm ≠ 0)

theorem rsv_eq_none {imm : Byte} {i : Instr} : rsv imm i = none ↔ imm ≠ 0 := by
  unfold rsv
  split <;> simp only [*, ne_eq, not_true, not_false_iff, reduceCtorEq]

/-- The opcode map has no row for exactly these words (R74, R75). -/
theorem decodeOp_eq_none {op : Nat} {imm : Byte} {din : Word} (hop : op ≤ 0xFF) :
    decodeOp op imm din = none ↔ MatchesNoRow op imm := by
  unfold decodeOp
  split
  case h_31 => 
    refine iff_of_true rfl ?_
    simp only [imp_false] at *
    unfold MatchesNoRow
    omega
  all_goals simp [rsv_eq_none, MatchesNoRow]

theorem sendCommand_inj {i : Instr} {imm : Byte} {d d' : Word} : sendCommand i imm d = sendCommand i imm d' ↔ d = d' := by
  simp [sendCommand]

/-- A row of the opcode map holds the command with its opcode and the immediate it was sent with; a data operand that the
command does not use is sent as 0 (R72, R74, R76). -/
theorem encode_decodeOp {op : Nat} {imm : Byte} {din : Word} {i : Instr} (h : decodeOp op imm din = some i) :
    (opcodeOf i).toNat = op ∧ ∃ d, encode i = sendCommand i imm d ∧ (d = din ∨ d = 0) := by
  unfold decodeOp at h
  split at h
  case h_31 => cases h
  all_goals
    simp only [rsv_eq_some, Option.some.injEq, @eq_comm _ _ i] at h
    simp [h, opcodeOf, encode, sendCommand_inj]

/-- A word the decoder reads is the word of the instruction's encoding (R71, R74). -/
theorem encode_decodeCommand {c : Command} {i : Instr} (h : decodeCommand c = some i) :
    ∃ din, encode i = .command ⟨c.cw, din⟩ ∧ (din = c.din ∨ din = 0) := by
  obtain ⟨hop, din, henc, hdin⟩ := encode_decodeOp h
  have hword : commandWord (opcodeOf i) (immField c.cw) = c.cw := by
    rw [BitVec.eq_of_toNat_eq hop, commandWord_fields]
  exact ⟨din, by rw [henc, sendCommand, hword], hdin⟩

theorem decodeCommand_eq_none {c : Command} :
    decodeCommand c = none ↔ MatchesNoRow (opField c.cw).toNat (immField c.cw) :=
  decodeOp_eq_none (Nat.le_of_lt_succ (opField c.cw).isLt)

/-! ## The step (R75, R221) -/

/-- A step on a word that matches no row takes the fault `ILLEGAL_COMMAND` with the word's opcode. -/
theorem step_of_decodeCommand_none {s : State} {c : Command} {rest : List Command} (hs : s.fault = 0)
    (hport : s.port = c :: rest) (hdec : decodeCommand c = none) :
    FaultsAs (step s) .illegalCommand (opField c.cw) { s with port := rest } := by
  have hstep : step s = illegalCommand c.cw { s with port := rest } := by simp only [step, fetchCommand, hport, hdec]
  rw [hstep, illegalCommand, if_neg (not_not.2 hs)]
  exact faultsAs_takeFault _ _ _

/-- No command of a core without a fault leaves `ILLEGAL_COMMAND` in `FAULT`: one that completes leaves `FAULT` as it was, and
one that faults does not answer it. -/
theorem exec_fault_ne_illegal {i : Instr} {s t : State} (hi : placeOf i = .port) (hs : s.fault = 0)
    (h : exec i s = .next t) : t.fault ≠ faultByte .illegalCommand := by
  have hzero : ∀ {u : State}, u.fault = 0 → u.fault ≠ faultByte .illegalCommand := fun h0 => h0 ▸ by decide
  have hresp := exec_ne_illegal hi h
  cases exec_answers h with
  | nop => exact hzero hs
  | coreReset => exact hzero rfl
  | coreStatus => exact hzero hs
  | refused hf => exact absurd hs hf
  | faulted _ c => exact fun hcode => hresp (congrArg (fun b => some (Response.mk b 0 0)) hcode)
  | completed _ hc => exact hzero (hc.fault.trans hs)
  | coded hcode => exact absurd hi hcode

/-- Settles O2: the words without a row are the illegal ones (`decodeCommand_eq_none`), and a word with one is a command of the
port, which does not raise `ILLEGAL_COMMAND`. -/
theorem illegalCommandWordsFault : Obligations.IllegalCommandWordsFault := by
  intro s c rest hs hport op illegal
  have hlegal : ¬ illegal → ∃ i, decodeCommand c = some i := fun h =>
    Option.ne_none_iff_exists'.1 (mt decodeCommand_eq_none.1 h)
  refine ⟨fun h => step_of_decodeCommand_none hs hport (decodeCommand_eq_none.2 h), fun h => ?_, fun h t ht => ?_⟩
  · obtain ⟨i, hdec⟩ := hlegal h
    obtain ⟨din, henc⟩ := encode_decodeCommand hdec
    exact ⟨i, din, hdec, henc⟩
  · obtain ⟨i, hdec⟩ := hlegal h
    rw [stepRunsTheDecodedInstruction s c rest i hport hdec] at ht
    exact exec_fault_ne_illegal (s := { s with port := rest }) (placeOf_decodeCommand hdec) hs ht

end Sys2Proof.Machine
end

section
/-! SUPPORT. What each BitPacker command answers, as one equation for its completion and one lemma for its faults (R101 to
R107). -/

namespace Sys2Proof.Machine

/-! ## A command whose body is one operation of the BitPacker -/

/-- A command whose operation answers goes on with what it answered. -/
theorem runCommand_bind_ok {α : Type} (i : Instr) {s t : State} {x : State → Comp α}
    {f : α → Comp (State × Word × Word)} {a : α} {r0 r1 : Word} (hs : s.fault = 0) (hx : x s = .ok a)
    (hf : f a = .ok (t, r0, r1)) : runCommand i s (fun s => x s >>= f) = .next (respond r0 r1 t) :=
  runCommand_ok i hs (by rw [hx, bind_ok, hf])

/-- A command whose operation raises a fault takes it. -/
theorem runCommand_bind_faultsAs {α : Type} (i : Instr) {s : State} {x : State → Comp α}
    {f : α → Comp (State × Word × Word)} {c : FaultCode} (hs : s.fault = 0) (hx : x s = .error c) :
    FaultsAs (runCommand i s fun s => x s >>= f) c (opcodeOf i) s :=
  runCommand_faultsAs i hs (by rw [hx, bind_error])

theorem bpMode_ne_write {s : State} (hm : s.bpMode = .read) : s.bpMode ≠ .write := hm ▸ nofun

theorem bpMode_ne_read {s : State} (hm : s.bpMode = .write) : s.bpMode ≠ .read := hm ▸ nofun

/-! ## `BP.APPEND` (R101) -/

theorem exec_bpAppend_ok {w : Byte} {v : Word} {s : State} (hs : s.fault = 0) (hm : s.bpMode = .write)
    (hw : 1 ≤ w.toNat ∧ w.toNat ≤ 64) (hv : w.toNat < 64 → v >>> w.toNat = 0)
    (hroom : s.bpNbits + w.toNat ≤ 64 * s.cfg.bpMaxWords) :
    exec (.bpAppend w v) s =
      .next (respond 0 0 { s with bpW := putField s.bpW s.bpNbits v w.toNat, bpNbits := s.bpNbits + w.toNat }) :=
  runCommand_bind_ok _ hs ((bpAppend_eq_ok _ _ _ _).2 ⟨hm, hw, hv, hroom, rfl⟩) rfl

theorem exec_bpAppend_faultsAs {w : Byte} {v : Word} {s : State} {c : FaultCode} (hs : s.fault = 0)
    (hc : bpAppend v w.toNat s = .error c) : FaultsAs (exec (.bpAppend w v) s) c 0x10 s :=
  runCommand_bind_faultsAs (.bpAppend w v) hs hc

/-! ## `BP.CLOSE` and `BP.FREEZE` (R103, R104) -/

/-- The trailer written at stream bit `n`, as the four appends of R103. -/
def putTrailer (m : Store 64) (n : Nat) : Store 64 :=
  putField (putField (putField (putField m n 0b1111 4) (n + 4) 0xFFFFFFFFFFFFFFFF 64) (n + 68) 0xFFFFFFFFFFFFFFFF 64)
    (n + 132) 0 1

theorem exec_bpClose_ok {s : State} (hs : s.fault = 0) (hm : s.bpMode = .write)
    (hroom : s.bpNbits + 133 ≤ 64 * s.cfg.bpMaxWords) :
    exec .bpClose s =
      .next (respond 0 0 (enterRead { s with bpW := putTrailer s.bpW s.bpNbits, bpNbits := s.bpNbits + 133 })) :=
  runCommand_bind_ok _ hs (bpClose_ok hm hroom) rfl

theorem exec_bpClose_faultsAs {s : State} {c : FaultCode} (hs : s.fault = 0) (hc : bpClose s = .error c) :
    FaultsAs (exec .bpClose s) c 0x11 s := runCommand_bind_faultsAs .bpClose hs hc

theorem exec_bpFreeze_ok {s : State} (hs : s.fault = 0) (hm : s.bpMode = .write) :
    exec .bpFreeze s = .next (respond 0 0 (enterRead s)) :=
  runCommand_bind_ok _ hs (if_neg (not_not.2 hm)) rfl

theorem exec_bpFreeze_faultsAs {s : State} (hs : s.fault = 0) (hm : s.bpMode = .read) :
    FaultsAs (exec .bpFreeze s) .bpMode 0x15 s :=
  runCommand_bind_faultsAs .bpFreeze hs (if_pos (bpMode_ne_write hm))

/-! ## `BP.READ` and `BP.READRUN` (R105, R107) -/

theorem exec_bpRead_ok {w : Byte} {s : State} (hs : s.fault = 0) (hm : s.bpMode = .read)
    (hw : 1 ≤ w.toNat ∧ w.toNat ≤ 64) (hleft : w.toNat ≤ remaining s) :
    exec (.bpRead w) s =
      .next (respond (wordOfBits (streamBits s.bpW s.bpRpos w.toNat)) 0 (skipBits w.toNat s)) :=
  runCommand_bind_ok _ hs ((bpRead_eq_ok _ _ _ _).2 ⟨hm, hw, hleft, (getField_zero _ _ _).symm, rfl⟩) rfl

theorem exec_bpRead_faultsAs {w : Byte} {s : State} {c : FaultCode} (hs : s.fault = 0)
    (hc : bpRead w.toNat s = .error c) : FaultsAs (exec (.bpRead w) s) c 0x12 s :=
  runCommand_bind_faultsAs (.bpRead w) hs hc

/-- In read mode and with a legal count, `BPReadRun` is the run loop of bit strings on the bits that are left (R107). -/
theorem bpReadRun_eq_atStream {m : Nat} {s : State} (hm : s.bpMode = .read) (hw : 1 ≤ m ∧ m ≤ 64) :
    bpReadRun m s = atStream s (readRunBits m 0 (restBits s)) := by
  rw [← readRunLoop_eq, bpReadRun, if_neg (not_not.2 hm), if_neg (by rw [(badWidth_eq_false m).2 hw]; nofun)]

theorem exec_bpReadrun_ok {m : Byte} {s : State} {r : Word} {rest : List Bool} (hs : s.fault = 0) (hm : s.bpMode = .read)
    (hw : 1 ≤ m.toNat ∧ m.toNat ≤ 64) (hrun : readRunBits m.toNat 0 (restBits s) = some (r, rest)) :
    exec (.bpReadrun m) s = .next (respond r 0 (skipBits (remaining s - rest.length) s)) :=
  runCommand_bind_ok _ hs ((bpReadRun_eq_atStream hm hw).trans (by rw [hrun, atStream])) rfl

theorem exec_bpReadrun_faultsAs {m : Byte} {s : State} {c : FaultCode} (hs : s.fault = 0)
    (hc : bpReadRun m.toNat s = .error c) : FaultsAs (exec (.bpReadrun m) s) c 0x14 s :=
  runCommand_bind_faultsAs (.bpReadrun m) hs hc

/-- When `BPReadRun` raises which fault (R107). -/
theorem bpReadRun_eq_error (m : Nat) (s : State) (c : FaultCode) :
    bpReadRun m s = .error c ↔
      (s.bpMode ≠ .read ∧ c = .bpMode) ∨ (s.bpMode = .read ∧ badWidth m = true ∧ c = .bpWidth) ∨
      (s.bpMode = .read ∧ badWidth m = false ∧ readRunLoop m 0 s = .error c) := by
  unfold bpReadRun
  rw [check_eq_error, check_eq_error, mode_ne_read, Bool.not_eq_true]
  tauto

end Sys2Proof.Machine
end

section
/-! The BitPacker commands against R101 to R107: the field an append writes and its word-level form, the trailer, the
freeze, a read, a unary run; and the counts the size commands return. -/

namespace Sys2Proof.Machine

/-! ## `BP.APPEND` (R101, R102) -/

/-- Settles O20: the completed append is `putField` (R101), whose bits `streamBit_putField` gives; each failing clause is the
check of `bpAppend_eq_error` it names, the ones before it passing. -/
theorem appendWritesTheField : Obligations.AppendWritesTheField := by
  intro w v s hs hwf legal inRange fits
  refine ⟨fun hm hw hv hroom => ?_, fun hm => ?_, fun hm hw => ?_, fun hm hw hv => ?_, fun hm hw hv hroom => ?_⟩
  · refine ⟨_, exec_bpAppend_ok hs hm hw hv hroom, fun j hj => ?_, fun k hk => ?_, rfl⟩
    · rw [respond_bpW, streamBit_putField hwf, if_pos (by omega), Nat.add_sub_cancel_left]
    · rw [respond_bpW, streamBit_putField hwf, if_neg (by omega)]
  all_goals refine exec_bpAppend_faultsAs hs ((bpAppend_eq_error _ _ _ _).2 ?_)
  · exact .inl ⟨bpMode_ne_write hm, rfl⟩
  · exact .inr (.inl ⟨hm, (badWidth_eq_true _).2 hw, rfl⟩)
  · have hrange : outOfRange v w.toNat = true := Bool.of_not_eq_false (mt (outOfRange_eq_false _ _).1 hv)
    exact .inr (.inr (.inl ⟨hm, (badWidth_eq_false _).2 hw, hrange, rfl⟩))
  · exact .inr (.inr (.inr
      ⟨hm, (badWidth_eq_false _).2 hw, (outOfRange_eq_false _ _).2 hv, Nat.lt_of_not_le hroom, rfl⟩))

/-- Stores in canonical form with the same stream bits are the same data (R51). -/
theorem Store.ext_streamBit {m m' : Store 64} (h : Store.wf m = true) (h' : Store.wf m' = true)
    (hb : ∀ k, streamBit m k = streamBit m' k) : m = m' := by
  refine Store.ext_get h h' fun i => BitVec.eq_of_getLsbD_eq fun j hj => ?_
  exact (getLsbD_readWord m i j hj).trans ((hb _).trans (getLsbD_readWord m' i j hj).symm)

/-- What an append gives bit `k`: the field read as a number whose last bit is the stream bit `n + w - 1` (R52). -/
def appendedBit (n : Nat) (v : Word) (w k : Nat) : Bool := decide (k < n + w) && v.getLsbD (n + w - 1 - k)

theorem appendedBit_of_lt {n : Nat} {v : Word} {w k : Nat} (hv : v.toNat < 2 ^ w) (hk : k < n) :
    appendedBit n v w k = false := by
  rw [appendedBit, getLsbD_of_lt_two_pow v w _ hv (by omega), Bool.and_false]

theorem appendedBit_of_le {n : Nat} {v : Word} {w k : Nat} (hk : n + w ≤ k) : appendedBit n v w k = false := by
  rw [appendedBit, decide_eq_false (Nat.not_lt.2 hk), Bool.false_and]

/-- Into clear bits an append is an OR (R102). -/
theorem streamBit_putField_or {m : Store 64} (hwf : Store.wf m = true) {n : Nat} {v : Word} {w : Nat}
    (hclear : ∀ k, n ≤ k → streamBit m k = false) (hv : v.toNat < 2 ^ w) (k : Nat) :
    streamBit (putField m n v w) k = (streamBit m k || appendedBit n v w k) := by
  rw [streamBit_putField hwf]
  by_cases hk : n ≤ k ∧ k < n + w
  · have hbit : w - 1 - (k - n) = n + w - 1 - k := by omega
    rw [if_pos hk, hclear k hk.1, Bool.false_or, appendedBit, decide_eq_true hk.2, Bool.true_and, hbit]
  · rw [if_neg hk]
    rcases Nat.lt_or_ge k n with h | h
    · rw [appendedBit_of_lt hv h, Bool.or_false]
    · rw [appendedBit_of_le (by omega), Bool.or_false]

/-- A word of the stream that ends at or behind the field's end holds the field's bits shifted up. -/
theorem getLsbD_shiftLeft_field {n : Nat} (v : Word) {w k : Nat} (hend : n + w ≤ 64 * (k / 64 + 1)) :
    (v <<< (64 * (k / 64 + 1) - (n + w))).getLsbD (63 - k % 64) = appendedBit n v w k := by
  rw [BitVec.getLsbD_shiftLeft, decide_eq_true (show 63 - k % 64 < 64 by omega), Bool.true_and, appendedBit]
  by_cases hk : k < n + w
  · have hbit : 63 - k % 64 - (64 * (k / 64 + 1) - (n + w)) = n + w - 1 - k := by omega
    rw [decide_eq_true hk, decide_eq_false (by omega), hbit]
    rfl
  · rw [decide_eq_false hk, decide_eq_true (by omega)]
    rfl

/-- A word of the stream that ends before the field's end holds the field's bits shifted down. -/
theorem getLsbD_ushiftRight_field {n : Nat} (v : Word) {w k : Nat} (hend : 64 * (k / 64 + 1) ≤ n + w) :
    (v >>> (n + w - 64 * (k / 64 + 1))).getLsbD (63 - k % 64) = appendedBit n v w k := by
  rw [BitVec.getLsbD_ushiftRight, appendedBit, decide_eq_true (show k < n + w by omega), Bool.true_and]
  congr 1
  omega

theorem putFieldWords_wf {m : Store 64} (hwf : Store.wf m = true) (n : Nat) (v : Word) (w : Nat) :
    Store.wf (putFieldWords m n v w) = true := by
  unfold putFieldWords
  dsimp only
  split
  · exact Store.wf_set hwf _ _
  · exact Store.wf_set (Store.wf_set hwf _ _) _ _

theorem readWord_set {m : Store 64} (hwf : Store.wf m = true) (i k : Nat) (x : Word) :
    readWord (Store.set m i x) k = if k = i then x else readWord m k := Store.get_set hwf i k x

/-- The words of the word-level form where the field fits in the tail word (R102). -/
theorem readWord_putFieldWords_fits {m : Store 64} (hwf : Store.wf m = true) {n w : Nat} (v : Word) (h : n % 64 + w ≤ 64)
    (k : Nat) :
    readWord (putFieldWords m n v w) k =
      if k = n / 64 then readWord m (n / 64) ||| (v <<< (64 - n % 64 - w)) else readWord m k := by
  unfold putFieldWords
  rw [if_pos h, readWord_set hwf]

/-- The words of the word-level form where the field is split over the tail word and the next one (R102). -/
theorem readWord_putFieldWords_splits {m : Store 64} (hwf : Store.wf m = true) {n w : Nat} (v : Word)
    (h : 64 < n % 64 + w) (k : Nat) :
    readWord (putFieldWords m n v w) k =
      if k = n / 64 + 1 then v <<< (128 - n % 64 - w)
      else if k = n / 64 then readWord m (n / 64) ||| (v >>> (n % 64 + w - 64)) else readWord m k := by
  unfold putFieldWords
  rw [if_neg (Nat.not_le.2 h), readWord_set (Store.wf_set hwf _ _), readWord_set hwf]

/-- The word-level form too ORs the field into the stream: in the tail word, in the next one and elsewhere (R102). -/
theorem streamBit_putFieldWords {m : Store 64} (hwf : Store.wf m = true) {n : Nat} {v : Word} {w : Nat}
    (hclear : ∀ k, n ≤ k → streamBit m k = false) (hw : w ≤ 64) (hv : v.toNat < 2 ^ w) (k : Nat) :
    streamBit (putFieldWords m n v w) k = (streamBit m k || appendedBit n v w k) := by
  have helse (h : k / 64 < n / 64 ∨ n + w ≤ k) : streamBit m k = (streamBit m k || appendedBit n v w k) := by
    rcases h with h | h
    · rw [appendedBit_of_lt hv (by omega), Bool.or_false]
    · rw [appendedBit_of_le h, Bool.or_false]
  rcases Nat.lt_or_ge 64 (n % 64 + w) with h | h
  · rw [streamBit, readWord_putFieldWords_splits hwf v h]
    split_ifs with hnext htail
    · have hshift : 128 - n % 64 - w = 64 * (k / 64 + 1) - (n + w) := by omega
      rw [hclear k (by omega), Bool.false_or, hshift, getLsbD_shiftLeft_field v (by omega)]
    · have hshift : n % 64 + w - 64 = n + w - 64 * (k / 64 + 1) := by omega
      rw [BitVec.getLsbD_or, ← htail, ← streamBit, hshift, getLsbD_ushiftRight_field v (by omega)]
    · exact helse (by omega)
  · rw [streamBit, readWord_putFieldWords_fits hwf v h]
    split_ifs with htail
    · have hshift : 64 - n % 64 - w = 64 * (k / 64 + 1) - (n + w) := by omega
      rw [BitVec.getLsbD_or, ← htail, ← streamBit, hshift, getLsbD_shiftLeft_field v (by omega)]
    · exact helse (by omega)

/-- Where the stream bits from `n` on are 0, the bit loop and the word-level form write the same store (R102). -/
theorem putField_eq_putFieldWords {m : Store 64} (hwf : Store.wf m = true) {n : Nat} {v : Word} {w : Nat}
    (hclear : ∀ k, n ≤ k → streamBit m k = false) (hw : w ≤ 64) (hv : v.toNat < 2 ^ w) :
    putField m n v w = putFieldWords m n v w :=
  Store.ext_streamBit (putField_wf hwf n v w) (putFieldWords_wf hwf n v w) fun k => by
    rw [streamBit_putField_or hwf hclear hv, streamBit_putFieldWords hwf hclear hw hv]

theorem toNat_lt_of_inRange {v : Word} {w : Nat} (hv : w < 64 → v >>> w = 0) (hw : w ≤ 64) : v.toNat < 2 ^ w := by
  rcases (outOfRange_iff_lt v w).1 ((outOfRange_eq_false v w).2 hv) with h | h
  · exact h
  · exact Nat.le_antisymm hw h ▸ v.isLt

/-- Settles O21: the appended store is the word-level one (`putField_eq_putFieldWords`), whose words stand in its definition. -/
theorem appendEqualsItsWordLevelForm : Obligations.AppendEqualsItsWordLevelForm := by
  intro w v s hs hwf hclear hm hpos hw hv hroom
  have hwords := putField_eq_putFieldWords hwf hclear hw (toNat_lt_of_inRange hv hw)
  refine ⟨_, exec_bpAppend_ok hs hm ⟨hpos, hw⟩ hv hroom, fun h => ?_, fun h => ?_, hwords⟩
  · have hread := readWord_putFieldWords_fits hwf v h
    rw [respond_bpW, hwords]
    exact ⟨by rw [hread, if_pos rfl], fun k hk => by rw [hread, if_neg hk]⟩
  · have hread := readWord_putFieldWords_splits hwf v h
    rw [respond_bpW, hwords]
    exact ⟨by rw [hread, if_neg (by omega), if_pos rfl], by rw [hread, if_pos rfl],
      fun k hk hk' => by rw [hread, if_neg hk', if_neg hk]⟩

/-! ## `BP.CLOSE` and `BP.FREEZE` (R103, R104) -/

/-- A field of ones sets its bits. -/
theorem streamBit_putField_ones {m : Store 64} (hwf : Store.wf m = true) {v : Word} {w : Nat}
    (hv : ∀ j, j < w → v.getLsbD j = true) (n k : Nat) :
    streamBit (putField m n v w) k = if n ≤ k ∧ k < n + w then true else streamBit m k := by
  rw [streamBit_putField hwf]
  by_cases hk : n ≤ k ∧ k < n + w
  · rw [if_pos hk, if_pos hk, hv _ (by omega)]
  · rw [if_neg hk, if_neg hk]

/-- The trailer is 132 ones and a zero, and no other bit changes (R103). -/
theorem streamBit_putTrailer {m : Store 64} (hwf : Store.wf m = true) (n k : Nat) :
    streamBit (putTrailer m n) k = if n ≤ k ∧ k < n + 133 then decide (k - n < 132) else streamBit m k := by
  have hwf1 := putField_wf hwf n 0b1111 4
  have hwf2 := putField_wf hwf1 (n + 4) 0xFFFFFFFFFFFFFFFF 64
  have hwf3 := putField_wf hwf2 (n + 68) 0xFFFFFFFFFFFFFFFF 64
  have hones : ∀ j, j < 64 → (0xFFFFFFFFFFFFFFFF : Word).getLsbD j = true := by decide
  rw [putTrailer, streamBit_putField hwf3, streamBit_putField_ones hwf2 hones, streamBit_putField_ones hwf1 hones,
    streamBit_putField_ones hwf (by decide)]
  by_cases hin : n ≤ k ∧ k < n + 133
  · rw [if_pos hin]
    by_cases hlast : k = n + 132
    · rw [if_pos (by omega), decide_eq_false (by omega)]
      exact BitVec.getLsbD_zero
    · rw [if_neg (by omega), decide_eq_true (by omega)]
      split_ifs with h68 h4 h0
      · rfl
      · rfl
      · rfl
      · omega
  · rw [if_neg (by omega), if_neg (by omega), if_neg (by omega), if_neg (by omega), if_neg hin]

/-- Settles O22: the completed close writes the trailer (`streamBit_putTrailer`) and enters read mode. -/
theorem closeAppendsTheTrailerAndFreezes : Obligations.CloseAppendsTheTrailerAndFreezes := by
  intro s hs hwf
  refine ⟨fun hm hroom => ⟨_, exec_bpClose_ok hs hm hroom, fun j hj => ?_, fun k hk => ?_, rfl⟩,
    fun hm => exec_bpClose_faultsAs hs (bpClose_error_mode hm),
    fun hm hfull => exec_bpClose_faultsAs hs (bpClose_error_overflow hm hfull)⟩
  · rw [respond_bpW, enterRead_bpW, streamBit_putTrailer hwf, if_pos (by omega), Nat.add_sub_cancel_left]
  · rw [respond_bpW, enterRead_bpW, streamBit_putTrailer hwf, if_neg (by omega)]

/-- Settles O23, by the mode check of the freeze and the read mode it enters. -/
theorem freezeEntersReadMode : Obligations.FreezeEntersReadMode := fun _ hs =>
  ⟨exec_bpFreeze_ok hs, exec_bpFreeze_faultsAs hs⟩

/-! ## `BP.READ` (R105) -/

theorem getElem_streamBits (m : Store 64) (p n j : Nat) (h : j < (streamBits m p n).length) :
    (streamBits m p n)[j] = streamBit m (p + j) := by
  simp only [streamBits, List.getElem_map, List.getElem_range]

/-- The value of a piece of the stream holds its bits, the first one highest, and zeros above them (R54, R105). -/
theorem getLsbD_wordOfBits_streamBits (m : Store 64) (p w k : Nat) (hk : k < 64) :
    (wordOfBits (streamBits m p w)).getLsbD k = if k < w then streamBit m (p + (w - 1 - k)) else false := by
  rw [getLsbD_wordOfBits _ _ hk]
  by_cases h : k < w
  · rw [dif_pos (by rwa [length_streamBits]), if_pos h, getElem_streamBits, length_streamBits]
  · rw [dif_neg (by rwa [length_streamBits]), if_neg h]

/-- Settles O24: the completed read returns the value of the next bits (`getLsbD_wordOfBits_streamBits`); each failing clause is
the check of `bpRead_eq_error` it names. -/
theorem readReturnsTheNextBits : Obligations.ReadReturnsTheNextBits := by
  intro w s hs legal
  refine ⟨fun hm hw hleft => ⟨_, exec_bpRead_ok hs hm hw hleft, fun j hj => ?_, fun j hj => ?_⟩, fun hm => ?_,
    fun hm hw => ?_, fun hm hw hleft => ?_⟩
  · have hback : w.toNat - 1 - (w.toNat - 1 - j) = j := by omega
    rw [getLsbD_wordOfBits_streamBits _ _ _ _ (by have := hw.2; omega), if_pos (by omega), hback]
  · exact getLsbD_of_lt_two_pow _ w.toNat j (by simpa using wordOfBits_lt (streamBits s.bpW s.bpRpos w.toNat)) hj
  all_goals refine exec_bpRead_faultsAs hs ((bpRead_eq_error _ _ _).2 ?_)
  · exact .inl ⟨bpMode_ne_read hm, rfl⟩
  · exact .inr (.inl ⟨hm, (badWidth_eq_true _).2 hw, rfl⟩)
  · exact .inr (.inr ⟨hm, (badWidth_eq_false _).2 hw, hleft, rfl⟩)

/-! ## `BP.READRUN` (R107) -/

/-- The run loop goes through set bits (R107). -/
theorem readRunBits_ones (k n : Nat) (r : Word) (l : List Bool) :
    readRunBits (k + n) r (List.replicate k true ++ l) = readRunBits n ((List.replicate k true).foldl pushBit r) l := by
  induction k generalizing r with
  | zero => rw [Nat.zero_add]; rfl
  | succ k ih =>
    rw [Nat.add_right_comm]
    exact ih (pushBit r true)

/-- `k` ones are the number `2^k - 1` (R54). -/
theorem wordOfBits_ones (k : Nat) : wordOfBits (List.replicate k true) = BitVec.ofNat 64 (2 ^ k - 1) := by
  apply BitVec.eq_of_getLsbD_eq
  intro j hj
  rw [getLsbD_wordOfBits _ _ hj, BitVec.getLsbD_ofNat, Nat.testBit_two_pow_sub_one, decide_eq_true hj, Bool.true_and]
  by_cases h : j < k
  · rw [dif_pos (by rwa [List.length_replicate]), List.getElem_replicate, decide_eq_true h]
  · rw [dif_neg (by rwa [List.length_replicate]), decide_eq_false h]

/-- A clear bit shifted in doubles the value (R105). -/
theorem pushBit_false_ofNat (n : Nat) : pushBit (BitVec.ofNat 64 n) false = BitVec.ofNat 64 (2 * n) := by
  apply BitVec.eq_of_toNat_eq
  simp [pushBit, Nat.shiftLeft_eq, Nat.mul_comm]

/-- A run of `k` ones that a clear bit ends is the number `2^(k+1) - 2` (R107). -/
theorem pushBit_ones_false (k : Nat) :
    pushBit (wordOfBits (List.replicate k true)) false = BitVec.ofNat 64 (2 ^ (k + 1) - 2) := by
  have hdouble : 2 * (2 ^ k - 1) = 2 ^ (k + 1) - 2 := by rw [Nat.mul_sub, ← pow_succ']
  rw [wordOfBits_ones, pushBit_false_ofNat, hdouble]

/-- Set bits ahead of the cursor are that many ones at the head of the bits that are left. -/
theorem restBits_ones {k : Nat} {s : State} (hk : k ≤ remaining s)
    (hones : ∀ j, j < k → streamBit s.bpW (s.bpRpos + j) = true) :
    restBits s = List.replicate k true ++ restBits (skipBits k s) := by
  have hrun : streamBits s.bpW s.bpRpos k = List.replicate k true := by
    refine List.eq_replicate_iff.2 ⟨length_streamBits _ _ _, fun b hb => ?_⟩
    obtain ⟨j, hj, rfl⟩ := List.mem_map.1 hb
    exact hones j (List.mem_range.1 hj)
  rw [restBits_skipBits hk, hrun]

/-- The next bit is the head of the bits that are left. -/
theorem restBits_cons {s : State} (h : 1 ≤ remaining s) :
    restBits s = streamBit s.bpW s.bpRpos :: restBits (skipBits 1 s) := restBits_skipBits h

/-- A run that a clear bit ends within `m` bits is read with that bit (R107). -/
theorem exec_bpReadrun_run {m : Byte} {s : State} {k : Nat} (hs : s.fault = 0) (hm : s.bpMode = .read)
    (hw : 1 ≤ m.toNat ∧ m.toNat ≤ 64) (hk : k < m.toNat) (hleft : k < remaining s)
    (hones : ∀ j, j < k → streamBit s.bpW (s.bpRpos + j) = true) (hzero : streamBit s.bpW (s.bpRpos + k) = false) :
    exec (.bpReadrun m) s = .next (respond (BitVec.ofNat 64 (2 ^ (k + 1) - 2)) 0 (skipBits (k + 1) s)) := by
  have hone : 1 ≤ remaining (skipBits k s) := by rw [remaining_skipBits]; omega
  have hbits : restBits s = List.replicate k true ++ false :: restBits (skipBits (k + 1) s) := by
    rw [restBits_ones (Nat.le_of_lt hleft) hones, restBits_cons hone, skipBits_skipBits]
    exact congrArg (List.replicate k true ++ · :: _) hzero
  obtain ⟨n, hn⟩ := Nat.exists_eq_add_of_lt hk
  have hrun : readRunBits m.toNat 0 (restBits s) =
      some (BitVec.ofNat 64 (2 ^ (k + 1) - 2), restBits (skipBits (k + 1) s)) := by
    rw [hbits, hn, Nat.add_assoc, readRunBits_ones, ← pushBit_ones_false]
    rfl
  have hconsumed : remaining s - (remaining s - (k + 1)) = k + 1 := by omega
  rw [exec_bpReadrun_ok hs hm hw hrun, length_restBits, remaining_skipBits, hconsumed]

/-- `m` set bits at the head of the bits that are left are read as they are (R107). -/
theorem exec_bpReadrun_ones {m : Byte} {s : State} {rest : List Bool} (hs : s.fault = 0) (hm : s.bpMode = .read)
    (hw : 1 ≤ m.toNat ∧ m.toNat ≤ 64) (h : restBits s = List.replicate m.toNat true ++ rest) :
    exec (.bpReadrun m) s = .next (respond (BitVec.ofNat 64 (2 ^ m.toNat - 1)) 0 (skipBits m.toNat s)) := by
  have hrun : readRunBits m.toNat 0 (restBits s) = some (BitVec.ofNat 64 (2 ^ m.toNat - 1), rest) := by
    rw [h, ← wordOfBits_ones]
    exact readRunBits_ones m.toNat 0 0 rest
  have hconsumed : remaining s - rest.length = m.toNat := by
    rw [← length_restBits, h, List.length_append, List.length_replicate, Nat.add_sub_cancel]
  rw [exec_bpReadrun_ok hs hm hw hrun, hconsumed]

/-- The stream ends inside a run of fewer than `m` set bits (R107). -/
theorem bpReadRun_underflow {m : Nat} {s : State} (hm : s.bpMode = .read) (hw : 1 ≤ m ∧ m ≤ 64)
    (hleft : remaining s < m) (hones : ∀ j, j < remaining s → streamBit s.bpW (s.bpRpos + j) = true) :
    bpReadRun m s = .error .bpUnderflow := by
  have hnil : restBits (skipBits (remaining s) s) = [] :=
    List.length_eq_zero_iff.1 (by rw [length_restBits, remaining_skipBits, Nat.sub_self])
  obtain ⟨n, hn⟩ := Nat.exists_eq_add_of_lt hleft
  have hrun : readRunBits m 0 (restBits s) = none := by
    rw [restBits_ones (Nat.le_refl _) hones, hnil, hn, Nat.add_assoc, readRunBits_ones]
    rfl
  rw [bpReadRun_eq_atStream hm hw, hrun, atStream, raise_eq_error]

/-- Settles O25: the three ends of a run, at a clear bit (`exec_bpReadrun_run`), after `m` bits (`exec_bpReadrun_ones`) and at
the end of the stream (`bpReadRun_underflow`), and the two checks before it. -/
theorem readRunReturnsTheUnaryRun : Obligations.ReadRunReturnsTheUnaryRun := by
  intro m s hs legal left
  refine ⟨fun hm hw k hk hleft hones hzero => exec_bpReadrun_run hs hm hw hk hleft hones hzero,
    fun hm hw hleft hones => exec_bpReadrun_ones hs hm hw (restBits_ones hleft hones), fun hm => ?_, fun hm hw => ?_,
    fun hm hw hleft hones => exec_bpReadrun_faultsAs hs (bpReadRun_underflow hm hw hleft hones)⟩
  all_goals refine exec_bpReadrun_faultsAs hs ((bpReadRun_eq_error _ _ _).2 ?_)
  · exact .inl ⟨bpMode_ne_read hm, rfl⟩
  · exact .inr (.inl ⟨hm, (badWidth_eq_true _).2 hw, rfl⟩)

/-! ## The counts (R29, R106, R123, R165, R204) -/

theorem exec_bpSize_ok {s : State} (hs : s.fault = 0) :
    exec .bpSize s = .next (respond (countWord (bpSizeBits s)) 0 s) := by
  rw [exec_bpSize, execBpSize]
  exact runCommand_ok _ hs rfl

theorem exec_bbLen_ok {s : State} (hs : s.fault = 0) :
    exec .bbLen s = .next (respond (countWord s.bbLen) (countWord s.bbRpos) s) := by
  rw [exec_bbLen, execBbLen]
  exact runCommand_ok _ hs rfl

theorem exec_encBitsize_ok {s : State} (hs : s.fault = 0) :
    exec .encBitsize s = .next (respond (countWord (bpSizeBits s + 8 * s.bbLen)) 0 s) := by
  rw [exec_encBitsize, execEncBitsize]
  exact runCommand_ok _ hs rfl

theorem exec_expNwords_ok {s : State} (hs : s.fault = 0) :
    exec .expNwords s = .next (respond (countWord (wordsInUse s)) (countWord s.bpNbits) s) := by
  rw [exec_expNwords, execExpNwords]
  exact runCommand_ok _ hs rfl

/-- Settles O19: each command answers its count; the words in use are the least number that hold `BP_NBITS` bits. -/
theorem sizeCommandsReturnTheCounts : Obligations.SizeCommandsReturnTheCounts := by
  intro s hs bits
  have hceil : s.bpNbits ≤ 64 * wordsInUse s ∧ 64 * wordsInUse s < s.bpNbits + 64 := by
    unfold wordsInUse
    omega
  exact ⟨exec_bpSize_ok hs, exec_bbLen_ok hs, exec_encBitsize_ok hs, wordsInUse s, exec_expNwords_ok hs, hceil⟩

end Sys2Proof.Machine
end

section
/-! What was appended is read back (R108), and the trailer reads as end of stream (R109): a run of reads moves the cursor past
the earlier bits, and what stands behind them is the field, or the trailer. -/

namespace Sys2Proof.Machine

/-! ## Runs of reads -/

/-- A run goes on with the rest of the program where its first part ends. -/
theorem runInstrs_append {l : List Instr} {s t : State} (l' : List Instr) (h : runInstrs l s = some t) :
    runInstrs (l ++ l') s = runInstrs l' t := by
  induction l generalizing s with
  | nil => cases h; rfl
  | cons i l ih =>
    simp only [List.cons_append, runInstrs] at h ⊢
    split at h
    · split at h
      · rename_i hfault
        exact (if_pos hfault).trans (ih h)
      · cases h
    · cases h

/-- A read of each width of a list moves the cursor past that many bits and changes nothing but the response (R105). -/
theorem runInstrs_bpRead (ws : List Byte) {s : State} (hs : s.fault = 0) (hm : s.bpMode = .read)
    (hws : ∀ x ∈ ws, 1 ≤ x.toNat ∧ x.toNat ≤ 64) (hleft : (ws.map BitVec.toNat).sum ≤ remaining s) :
    ∃ p, runInstrs (ws.map Instr.bpRead) s = some (withResp p (skipBits (ws.map BitVec.toNat).sum s)) := by
  induction ws generalizing s with
  | nil => exact ⟨s.resp, rfl⟩
  | cons w ws ih =>
    rw [List.map_cons, List.sum_cons] at hleft
    have hread := exec_bpRead_ok hs hm (hws w List.mem_cons_self) (by omega)
    rw [List.map_cons, runInstrs_cons _ hread hs, List.map_cons, List.sum_cons, ← skipBits_skipBits]
    have hrest : (ws.map BitVec.toNat).sum ≤ remaining (skipBits w.toNat s) := by rw [remaining_skipBits]; omega
    exact ih hs hm (fun x hx => hws x (List.mem_cons_of_mem w hx)) hrest

/-! ## An appended field (R108) -/

/-- A field's bits stand where it was appended (R52). -/
theorem streamBits_putField {m : Store 64} (hwf : Store.wf m = true) (n : Nat) (v : Word) (w : Nat) :
    streamBits (putField m n v w) n w = fieldBits v w := by
  refine List.ext_getElem (by simp) fun j hj hj' => ?_
  rw [length_streamBits] at hj
  rw [getElem_fieldBits, getElem_streamBits, streamBit_putField hwf, if_pos (by omega), Nat.add_sub_cancel_left]

/-- A piece of the stream depends on its own bits only. -/
theorem streamBits_congr {m m' : Store 64} {p n : Nat} (h : ∀ k, k < p + n → streamBit m' k = streamBit m k) :
    streamBits m' p n = streamBits m p n :=
  List.map_congr_left fun _ hj => h _ (Nat.add_lt_add_left (List.mem_range.1 hj) p)

/-- `t` is `s` frozen: in read mode at the first bit, with every bit written so far in its place. A trailer may stand behind
them. -/
structure Frozen (s t : State) : Prop where
  fault : t.fault = 0
  mode : t.bpMode = .read
  rpos : t.bpRpos = 0
  nbits : s.bpNbits ≤ t.bpNbits
  bits : ∀ k, k < s.bpNbits → streamBit t.bpW k = streamBit s.bpW k

/-- `BP.CLOSE` and `BP.FREEZE` alike freeze the BitPacker (R103, R104). -/
theorem exec_close_or_freeze {i : Instr} {s : State} (hs : s.fault = 0) (hwf : Store.wf s.bpW = true)
    (hm : s.bpMode = .write) (hi : i = .bpClose ∨ i = .bpFreeze)
    (hroom : s.bpNbits + (if i = .bpClose then 133 else 0) ≤ 64 * s.cfg.bpMaxWords) :
    ∃ t, exec i s = .next t ∧ Frozen s t := by
  rcases hi with rfl | rfl
  · refine ⟨_, exec_bpClose_ok hs hm hroom, hs, rfl, rfl, Nat.le_add_right _ _, fun k hk => ?_⟩
    rw [respond_bpW, enterRead_bpW, streamBit_putTrailer hwf, if_neg (by omega)]
  · exact ⟨_, exec_bpFreeze_ok hs hm, hs, rfl, rfl, Nat.le_refl _, fun _ _ => rfl⟩

/-- In a frozen stream a field behind the earlier bits is read back once reads have consumed exactly those (R54, R108). -/
theorem runInstrs_read_back {s t : State} {w : Byte} {v : Word} {ws : List Byte} {n : Nat} (ht : Frozen s t)
    (hw : 1 ≤ w.toNat ∧ w.toNat ≤ 64) (hv : v.toNat < 2 ^ w.toNat) (hn : n + w.toNat = s.bpNbits)
    (hfield : streamBits s.bpW n w.toNat = fieldBits v w.toNat) (hws : ∀ x ∈ ws, 1 ≤ x.toNat ∧ x.toNat ≤ 64)
    (hsum : (ws.map BitVec.toNat).sum = n) :
    ∃ u, runInstrs (ws.map Instr.bpRead ++ [.bpRead w]) t = some u ∧ u.resp = some ⟨0, v, 0⟩ := by
  have hbits : streamBits t.bpW (t.bpRpos + n) w.toNat = fieldBits v w.toNat := by
    rw [ht.rpos, Nat.zero_add, streamBits_congr fun k hk => ht.bits k (hn ▸ hk), hfield]
  have hleft : n + w.toNat ≤ remaining t := by
    rw [remaining, ht.rpos, hn]
    exact ht.nbits
  obtain ⟨p, hreads⟩ := runInstrs_bpRead ws ht.fault ht.mode hws (by omega)
  rw [hsum] at hreads
  have hread : exec (.bpRead w) (withResp p (skipBits n t)) =
      .next (respond v 0 (skipBits w.toNat (withResp p (skipBits n t)))) := by
    have hleft' : w.toNat ≤ remaining (skipBits n t) := by rw [remaining_skipBits]; omega
    rw [← wordOfBits_fieldBits v w.toNat hv, ← hbits]
    exact exec_bpRead_ok ht.fault ht.mode hw hleft'
  exact ⟨_, (runInstrs_append _ hreads).trans (runInstrs_cons [] hread ht.fault), rfl⟩

/-- Settles O26: the append puts the field behind the earlier bits (`streamBits_putField`), and the frozen stream gives it back
(`runInstrs_read_back`). -/
theorem appendedFieldReadsBack : Obligations.AppendedFieldReadsBack := by
  intro w v i ws s hs hwf hm hpos hw hv hi hroom hws hsum
  have happend := exec_bpAppend_ok hs hm ⟨hpos, hw⟩ hv (by omega)
  obtain ⟨t, hfreeze, ht⟩ := exec_close_or_freeze (s := respond 0 0 { s with
    bpW := putField s.bpW s.bpNbits v w.toNat, bpNbits := s.bpNbits + w.toNat }) hs (putField_wf hwf _ _ _) hm hi hroom
  rw [runInstrs_cons _ happend hs, runInstrs_cons _ hfreeze ht.fault]
  exact runInstrs_read_back ht ⟨hpos, hw⟩ (toNat_lt_of_inRange hv hw) rfl (streamBits_putField hwf _ _ _) hws hsum

/-! ## The trailer (R109) -/

/-- The core stands at the first bit of the trailer, with nothing behind it. -/
structure AtTrailer (s : State) : Prop where
  fault : s.fault = 0
  mode : s.bpMode = .read
  bits : restBits s = trailerBits

/-- The trailer stands there in every phase. -/
theorem AtTrailer.setPhase {s : State} (h : AtTrailer s) (p : Phase) : AtTrailer { s with phase := p } :=
  ⟨h.fault, h.mode, h.bits⟩

/-- The trailer's 133 bits stand where a close appended them (R103). -/
theorem streamBits_putTrailer {m : Store 64} (hwf : Store.wf m = true) (n : Nat) :
    streamBits (putTrailer m n) n 133 = trailerBits := by
  have hlength : trailerBits.length = 133 := by rw [trailerBits]; simp
  refine List.ext_getElem (by rw [length_streamBits, hlength]) fun j hj hj' => ?_
  rw [length_streamBits] at hj
  have hbit : trailerBits[j] = decide (j < 132) := by
    simp only [trailerBits, List.getElem_append, List.length_replicate]
    split_ifs with h
    · rw [List.getElem_replicate, decide_eq_true h]
    · rw [decide_eq_false h, List.getElem_singleton]
  rw [hbit, getElem_streamBits, streamBit_putTrailer hwf, if_pos (by omega), Nat.add_sub_cancel_left]

/-- A close and reads that consume exactly the earlier bits lead to the trailer (R103, R105). -/
theorem runInstrs_close_reads {ws : List Byte} {s : State} (hs : s.fault = 0) (hwf : Store.wf s.bpW = true)
    (hm : s.bpMode = .write) (hroom : s.bpNbits + 133 ≤ 64 * s.cfg.bpMaxWords)
    (hws : ∀ x ∈ ws, 1 ≤ x.toNat ∧ x.toNat ≤ 64) (hsum : (ws.map BitVec.toNat).sum = s.bpNbits) :
    ∃ a, runInstrs (.bpClose :: ws.map Instr.bpRead) s = some a ∧ AtTrailer a := by
  obtain ⟨t, hclose, hfault, hmode, hrpos, hnbits, hwords⟩ : ∃ t, exec .bpClose s = .next t ∧ t.fault = 0 ∧
      t.bpMode = .read ∧ t.bpRpos = 0 ∧ t.bpNbits = s.bpNbits + 133 ∧ t.bpW = putTrailer s.bpW s.bpNbits :=
    ⟨_, exec_bpClose_ok hs hm hroom, by simp [hs]⟩
  have hremaining : remaining t = s.bpNbits + 133 := by rw [remaining, hnbits, hrpos, Nat.sub_zero]
  obtain ⟨p, hreads⟩ := runInstrs_bpRead ws hfault hmode hws (by omega)
  refine ⟨_, (runInstrs_cons _ hclose hfault).trans hreads, hfault, hmode, ?_⟩
  have hleft : remaining (skipBits s.bpNbits t) = 133 := by rw [remaining_skipBits]; omega
  rw [hsum]
  calc restBits (withResp p (skipBits s.bpNbits t))
      = streamBits t.bpW (t.bpRpos + s.bpNbits) (remaining (skipBits s.bpNbits t)) := rfl
    _ = trailerBits := by rw [hleft, hrpos, hwords, Nat.zero_add, streamBits_putTrailer hwf]

/-- After the first `j` ones of the trailer any number of the others stands at the head of the bits that are left. -/
theorem AtTrailer.restBits_ones {s : State} (h : AtTrailer s) (j k : Nat) (hjk : j + k ≤ 132) :
    ∃ rest, restBits (skipBits j s) = List.replicate k true ++ rest := by
  have hsplit : trailerBits =
      List.replicate j true ++ (List.replicate k true ++ (List.replicate (132 - (j + k)) true ++ [false])) := by
    rw [← List.append_assoc, ← List.append_assoc, List.replicate_append_replicate, List.replicate_append_replicate,
      Nat.add_sub_cancel' hjk, trailerBits]
  have hrest := restBits_skipBits_length (h.bits.trans hsplit)
  rw [List.length_replicate] at hrest
  exact ⟨_, hrest⟩

theorem AtTrailer.remaining {s : State} (h : AtTrailer s) : remaining s = 133 := by
  rw [← length_restBits, h.bits, trailerBits]
  simp

/-- `BP.READ` of `w` ones at the head of the bits that are left returns `2^w - 1` (R105). -/
theorem exec_bpRead_ones {w : Byte} {s : State} {rest : List Bool} (hs : s.fault = 0) (hm : s.bpMode = .read)
    (hw : 1 ≤ w.toNat ∧ w.toNat ≤ 64) (h : restBits s = List.replicate w.toNat true ++ rest) :
    exec (.bpRead w) s = .next (respond (BitVec.ofNat 64 (2 ^ w.toNat - 1)) 0 (skipBits w.toNat s)) := by
  obtain ⟨hleft, hbits⟩ := restBits_eq_append.1 ⟨rest, h⟩
  rw [List.length_replicate] at hleft hbits
  rw [exec_bpRead_ok hs hm hw hleft, hbits, wordOfBits_ones]

/-- `DEC.NEXT` whose row is the end of the stream answers 0 and ends the session (R181). -/
theorem exec_decNext_end {s t : State} (hs : s.fault = 0) (hp : s.phase = .decFirst ∨ s.phase = .decRun)
    (hrow : decodeRow s = .ok (true, t)) : exec .decNext s = .next (respond 0 0 (takeEnd t)) := by
  have hphase : ¬ (s.phase ≠ .decFirst ∧ s.phase ≠ .decRun) := by tauto
  rw [exec_decNext, execDecNext]
  exact runCommand_ok _ hs (by rw [if_neg hphase, hrow]; rfl)

/-- At the trailer a later row reads the end of the stream: 4 and 32 ones (R81, R185). -/
theorem AtTrailer.decodeRow_later {s : State} (h : AtTrailer s) (hp : s.phase = .decRun) :
    decodeRow s = .ok (true, skipBits 36 s) := by
  obtain ⟨rest, hbits⟩ := h.restBits_ones 0 36 (by decide)
  have hphase : ¬ s.phase = .decFirst := hp ▸ nofun
  rw [decodeRow, if_neg hphase, decodeLaterRow, readTsCode_restBits (c := .eos) h.mode rfl hbits]
  rfl

/-- At the trailer a first row reads the end of the stream: 32 ones (R184). -/
theorem AtTrailer.decodeRow_first {s : State} (h : AtTrailer s) (hp : s.phase = .decFirst) :
    decodeRow s = .ok (true, skipBits 32 s) := by
  obtain ⟨rest, hbits⟩ := h.restBits_ones 0 32 (by decide)
  have hread := bpRead_restBits h.mode (by simp) hbits
  rw [List.length_replicate, wordOfBits_ones] at hread
  rw [decodeRow, if_pos hp, decodeFirstRow, hread]
  rfl

/-- Settles O27: the close and the reads lead to the trailer (`runInstrs_close_reads`), where each reading finds ones. -/
theorem trailerReadsAsEndOfStream : Obligations.TrailerReadsAsEndOfStream := by
  intro ws s hs hwf hm hroom hws hsum
  obtain ⟨a, hrun, ha⟩ := runInstrs_close_reads hs hwf hm hroom hws hsum
  have hleft (k : Nat) : remaining (skipBits k a) = 133 - k := by rw [remaining_skipBits, ha.remaining]
  obtain ⟨_, h4⟩ := ha.restBits_ones 0 4 (by decide)
  obtain ⟨_, h32⟩ := ha.restBits_ones 4 32 (by decide)
  have hrun4 := exec_bpReadrun_ones (m := 4) ha.fault ha.mode (by decide) h4
  have hread32 := exec_bpRead_ones (w := 32) (s := respond (BitVec.ofNat 64 (2 ^ 4 - 1)) 0 (skipBits 4 a))
    ha.fault ha.mode (by decide) h32
  have hlater := (ha.setPhase .decRun).decodeRow_later rfl
  have hfirst := (ha.setPhase .decFirst).decodeRow_first rfl
  exact ⟨a, hrun, ⟨_, _, hrun4, rfl, hread32, rfl, hleft 36⟩,
    ⟨_, exec_decNext_end ha.fault (.inr rfl) hlater, rfl, rfl, hleft 36⟩,
    ⟨_, exec_decNext_end ha.fault (.inl rfl) hfirst, rfl, rfl, hleft 32⟩⟩

end Sys2Proof.Machine
end

section
/-! ByteBuffer (R121, R122): a put writes the byte at `BB_LEN` and no other, a get answers the byte at `BB_RPOS`; each faults at
its bound. The completions are `exec_bbPut_ok` and `exec_bbGet_ok`. -/

namespace Sys2Proof.Machine

/-! ## `BB.PUT` (R121) -/

/-- `BB.PUT` on a full store raises `BB_OVERFLOW` (R121). -/
theorem exec_bbPut_faultsAs {s : State} (din : Word) (hs : s.fault = 0) (hfull : s.cfg.bbMaxBytes ≤ s.bbLen) :
    FaultsAs (exec (.bbPut din) s) .bbOverflow 0x20 s :=
  runCommand_bind_faultsAs (.bbPut din) hs ((bbPut_eq_error _ _ _).2 ⟨hfull, rfl⟩)

theorem readByte_writeByte_same {m : Memory} (hwf : Memory.wf m = true) (j : Nat) (b : Byte) :
    readByte (writeByte m j b) j = b := by
  rw [readByte_writeByte hwf, if_pos rfl]

theorem readByte_writeByte_ne {m : Memory} (hwf : Memory.wf m = true) {j k : Nat} (hne : k ≠ j) (b : Byte) :
    readByte (writeByte m j b) k = readByte m k := by
  rw [readByte_writeByte hwf, if_neg hne]

/-- Settles O28: with room the store is the old one with `DIN[7:0]` written at the old `BB_LEN` (`exec_bbPut_ok`), so a byte
read there is the new one and a byte read elsewhere the old one. -/
theorem putAppendsOneByte : Obligations.PutAppendsOneByte := by
  intro v s hs hwf
  refine ⟨fun hroom => ?_, exec_bbPut_faultsAs v hs⟩
  have hwritten : readByte (writeByte s.bbB s.bbLen (dinByte v)) s.bbLen = v.extractLsb' 0 8 :=
    readByte_writeByte_same hwf _ _
  have hothers (j : Nat) (hj : j ≠ s.bbLen) :
      readByte (writeByte s.bbB s.bbLen (dinByte v)) j = readByte s.bbB j := readByte_writeByte_ne hwf hj _
  exact ⟨_, exec_bbPut_ok v hs hroom, hwritten, hothers, rfl⟩

/-! ## `BB.GET` (R122) -/

/-- `BB.GET` with every byte consumed raises `BB_UNDERFLOW` (R122). -/
theorem exec_bbGet_faultsAs {s : State} (hs : s.fault = 0) (hnone : s.bbLen ≤ s.bbRpos) :
    FaultsAs (exec .bbGet s) .bbUnderflow 0x21 s :=
  runCommand_bind_faultsAs .bbGet hs ((bbGet_eq_error _ _).2 ⟨hnone, rfl⟩)

/-- Settles O29: a get with a byte left completes with that byte (`exec_bbGet_ok`), one with none left faults
(`exec_bbGet_faultsAs`). -/
theorem getConsumesOneByte : Obligations.GetConsumesOneByte :=
  fun _ hs => ⟨exec_bbGet_ok hs, exec_bbGet_faultsAs hs⟩

end Sys2Proof.Machine
end

section
/-! SUPPORT. What each HistoryWindow command answers, as one equation for its completion and one lemma for each of its faults
(R130 to R136). -/

namespace Sys2Proof.Machine

/-! ## The commands that begin with the column check (R130) -/

/-- `i` is a command that checks the column `col` and then runs `f` on it. -/
def ColumnCommand (i : Instr) (col : Byte) (f : State → Nat → Comp (State × Word × Word)) : Prop :=
  ∀ s, exec i s = runCommand i s fun s => columnCheck s col >>= f s

/-- On a column that exists the command answers what the rest of its body does. -/
theorem ColumnCommand.ok {i : Instr} {col : Byte} {f : State → Nat → Comp (State × Word × Word)} (h : ColumnCommand i col f)
    {s t : State} {r0 r1 : Word} (hs : s.fault = 0) (hcol : col.toNat < s.cfg.ncolMax)
    (hf : f s col.toNat = .ok (t, r0, r1)) : exec i s = .next (respond r0 r1 t) :=
  (h s).trans (runCommand_ok i hs (by rw [columnCheck_ok hcol, bind_ok, hf]))

/-- On a column that exists the command faults as the rest of its body does. -/
theorem ColumnCommand.faultsAs {i : Instr} {col : Byte} {f : State → Nat → Comp (State × Word × Word)}
    (h : ColumnCommand i col f) {s : State} {c : FaultCode} (hs : s.fault = 0) (hcol : col.toNat < s.cfg.ncolMax)
    (hf : f s col.toNat = .error c) : FaultsAs (exec i s) c (opcodeOf i) s :=
  h s ▸ runCommand_faultsAs i hs (by rw [columnCheck_ok hcol, bind_ok, hf])

/-- On a column that does not exist the command raises `COLUMN`, whatever it goes on to do (R130). -/
theorem ColumnCommand.noColumn {i : Instr} {col : Byte} {f : State → Nat → Comp (State × Word × Word)}
    (h : ColumnCommand i col f) {s : State} (hs : s.fault = 0) (hcol : s.cfg.ncolMax ≤ col.toNat) :
    FaultsAs (exec i s) .column (opcodeOf i) s :=
  h s ▸ runCommand_faultsAs i hs (by rw [columnCheck_error hcol, bind_error])

theorem columnCommand_hwInit (col : Byte) : ColumnCommand (.hwInit col) col fun s c => .ok (hwInit c s, 0, 0) :=
  fun _ => rfl

theorem columnCommand_hwAdd (col : Byte) (v : Word) :
    ColumnCommand (.hwAdd col v) col fun s c => .ok (hwAdd c v s, 0, 0) := fun _ => rfl

theorem columnCommand_hwContains (col : Byte) (v : Word) :
    ColumnCommand (.hwContains col v) col fun s c => .ok (s, foundResult ((window s c).find v)) := fun _ => rfl

theorem columnCommand_hwBest (col : Byte) (v : Word) :
    ColumnCommand (.hwBest col v) col fun s c => (window s c).best v >>= fun (k, e) => .ok (s, e, countWord k) :=
  fun _ => rfl

theorem columnCommand_hwAt (col : Byte) (k : Word) :
    ColumnCommand (.hwAt col k) col fun s c => (window s c).entryAt k.toNat >>= fun e => .ok (s, e, 0) := fun _ => rfl

theorem columnCommand_hwCount (col : Byte) :
    ColumnCommand (.hwCount col) col fun s c => .ok (s, countWord (window s c).n, 0) := fun _ => rfl

/-! ## The commands that write a window (R131, R132) -/

theorem exec_hwInit_ok {col : Byte} {s : State} (hs : s.fault = 0) (hcol : col.toNat < s.cfg.ncolMax) :
    exec (.hwInit col) s = .next (respond 0 0 (hwInit col.toNat s)) :=
  (columnCommand_hwInit col).ok hs hcol rfl

theorem exec_hwAdd_ok {col : Byte} {s : State} (v : Word) (hs : s.fault = 0) (hcol : col.toNat < s.cfg.ncolMax) :
    exec (.hwAdd col v) s = .next (respond 0 0 (hwAdd col.toNat v s)) :=
  (columnCommand_hwAdd col v).ok hs hcol rfl

/-! ## The commands that read a window (R133 to R136) -/

/-- `HW.CONTAINS` of a value in the window answers its lowest offset (R133). -/
theorem exec_hwContains_found {col : Byte} {v : Word} {s : State} {k : Nat} (hs : s.fault = 0)
    (hcol : col.toNat < s.cfg.ncolMax) (hk : LowestMatch (window s col.toNat) v k) :
    exec (.hwContains col v) s = .next { s with resp := some ⟨0, 1, BitVec.ofNat 64 k⟩ } := by
  have hfind : (window s col.toNat).find v = some k := (find_eq_some _ _ _).2 hk
  exact (columnCommand_hwContains col v).ok hs hcol (by rw [hfind]; rfl)

/-- `HW.CONTAINS` of a value not in the window answers zeros (R133). -/
theorem exec_hwContains_absent {col : Byte} {v : Word} {s : State} (hs : s.fault = 0)
    (hcol : col.toNat < s.cfg.ncolMax) (hno : NoMatch (window s col.toNat) v) :
    exec (.hwContains col v) s = .next { s with resp := some ⟨0, 0, 0⟩ } := by
  have hfind : (window s col.toNat).find v = none := (find_eq_none _ _).2 hno
  exact (columnCommand_hwContains col v).ok hs hcol (by rw [hfind]; rfl)

theorem exec_hwBest_ok {col : Byte} {v : Word} {s : State} {k : Nat} {e : Word} (hs : s.fault = 0)
    (hcol : col.toNat < s.cfg.ncolMax) (hbest : (window s col.toNat).best v = .ok (k, e)) :
    exec (.hwBest col v) s = .next (respond e (countWord k) s) :=
  (columnCommand_hwBest col v).ok hs hcol (by rw [hbest, bind_ok])

/-- `HW.BEST` on an empty window raises `HW_EMPTY` (R134). -/
theorem exec_hwBest_faultsAs {col : Byte} {s : State} (v : Word) (hs : s.fault = 0) (hcol : col.toNat < s.cfg.ncolMax)
    (hempty : (window s col.toNat).n = 0) : FaultsAs (exec (.hwBest col v) s) .hwEmpty 0x33 s :=
  (columnCommand_hwBest col v).faultsAs hs hcol (by rw [best_empty v _ hempty, bind_error])

theorem exec_hwAt_ok {col : Byte} {k : Word} {s : State} (hs : s.fault = 0) (hcol : col.toNat < s.cfg.ncolMax)
    (hk : k.toNat < (window s col.toNat).n) :
    exec (.hwAt col k) s = .next (respond ((window s col.toNat).entry k.toNat) 0 s) :=
  (columnCommand_hwAt col k).ok hs hcol (by rw [entryAt_ok hk, bind_ok])

/-- `HW.AT` of an offset that is not populated raises `HW_INDEX` (R135). -/
theorem exec_hwAt_faultsAs {col : Byte} {k : Word} {s : State} (hs : s.fault = 0) (hcol : col.toNat < s.cfg.ncolMax)
    (hk : (window s col.toNat).n ≤ k.toNat) : FaultsAs (exec (.hwAt col k) s) .hwIndex 0x34 s :=
  (columnCommand_hwAt col k).faultsAs hs hcol (by rw [entryAt_error hk, bind_error])

theorem exec_hwCount_ok {col : Byte} {s : State} (hs : s.fault = 0) (hcol : col.toNat < s.cfg.ncolMax) :
    exec (.hwCount col) s = .next (respond (countWord (window s col.toNat).n) 0 s) :=
  (columnCommand_hwCount col).ok hs hcol rfl

end Sys2Proof.Machine
end

section
/-! The HistoryWindow commands against R130 to R137: what each writes or returns, its faults, and the eviction of the oldest
value. -/

namespace Sys2Proof.Machine

/-! ## `HW.INIT` and `HW.ADD` (R131, R132) -/

theorem window_setWindow_same {s : State} {c : Nat} (x : Window) (hc : c < s.hw.length) :
    window (setWindow s c x) c = x := by
  rw [window_setWindow s c c x hc, if_pos rfl]

theorem window_setWindow_ne {s : State} {c d : Nat} (x : Window) (hc : c < s.hw.length) (hd : d ≠ c) :
    window (setWindow s c x) d = window s d := by
  rw [window_setWindow s c d x hc, if_neg hd]

/-- Settles O31: the window becomes `Window.empty`, whose entries are all 0 (`empty_entry`), and the others stay. -/
theorem windowInitEmptiesTheWindow : Obligations.WindowInitEmptiesTheWindow := by
  intro col s hs hlen
  refine ⟨fun hcol => ⟨_, exec_hwInit_ok hs hcol, ?_⟩, (columnCommand_hwInit col).noColumn hs⟩
  have hc : col.toNat < s.hw.length := hlen ▸ hcol
  have hnew : window (respond 0 0 (hwInit col.toNat s)) col.toNat = Window.empty s.cfg.zeroFill :=
    window_setWindow_same _ hc
  rw [hnew]
  exact ⟨rfl, (windowOk_empty _).2, empty_entry _, fun _ hd => window_setWindow_ne _ hc hd, rfl⟩

/-- Settles O32: the window becomes its `push`, read entry by entry with `entry_push`, and the others stay. -/
theorem windowAddInsertsAtTheFront : Obligations.WindowAddInsertsAtTheFront := by
  intro col v s hs
  refine ⟨fun hcol hlen hsize => ⟨_, exec_hwAdd_ok v hs hcol, ?_⟩, (columnCommand_hwAdd col v).noColumn hs⟩
  have hc : col.toNat < s.hw.length := hlen ▸ hcol
  have hnew : window (respond 0 0 (hwAdd col.toNat v s)) col.toNat = (window s col.toNat).push v :=
    window_setWindow_same _ hc
  obtain ⟨hcount, hlength⟩ := push_size v _ hsize
  rw [hnew]
  refine ⟨?front, fun k h1 hk => ?moved, fun k hk => ?kept, hlength, hcount,
    fun _ hd => window_setWindow_ne _ hc hd, rfl⟩
  case front => rw [entry_push v _ _ hsize, if_pos rfl]
  case moved => rw [entry_push v _ _ hsize, if_neg (by omega), if_pos hk]
  case kept => rw [entry_push v _ _ hsize, if_neg (by omega), if_neg (by omega)]

/-! ## `HW.CONTAINS`, `HW.BEST`, `HW.AT` and `HW.COUNT` (R133 to R136) -/

/-- Settles O33, by the two answers of the search. -/
theorem windowContainsFindsTheLowestMatch : Obligations.WindowContainsFindsTheLowestMatch := fun col v _ hs =>
  ⟨fun hcol => ⟨fun _ => exec_hwContains_found hs hcol, exec_hwContains_absent hs hcol⟩,
    (columnCommand_hwContains col v).noColumn hs⟩

/-- Settles O34: a populated window has a candidate (`best_total`), and the candidate is the best one (`best_eq_ok`). -/
theorem windowBestFindsTheBestCandidate : Obligations.WindowBestFindsTheBestCandidate := by
  intro col v s hs
  refine ⟨fun hcol hpop => ?_, (columnCommand_hwBest col v).noColumn hs, exec_hwBest_faultsAs v hs⟩
  obtain ⟨k, hbest⟩ := best_total v _ hpop
  obtain ⟨hk, _, hgreatest, hlowest⟩ := best_eq_ok v _ k _ hbest
  exact ⟨k, ⟨hk, hgreatest, hlowest⟩, exec_hwBest_ok hs hcol hbest⟩

/-- Settles O35, each clause by the answer of its command. -/
theorem windowAtAndCountReadTheWindow : Obligations.WindowAtAndCountReadTheWindow := fun col k _ hs =>
  ⟨exec_hwAt_ok hs, exec_hwAt_faultsAs hs, (columnCommand_hwAt col k).noColumn hs, exec_hwCount_ok hs,
    (columnCommand_hwCount col).noColumn hs⟩

/-! ## A run of `HW.ADD` (R132) -/

/-- A window after `add` of each value of a list in turn, so that the last is at offset 0. -/
def Window.pushAll (l : List Word) (x : Window) : Window := l.foldl (fun x v => x.push v) x

theorem Window.pushAll_cons (v : Word) (l : List Word) (x : Window) :
    x.pushAll (v :: l) = (x.push v).pushAll l := rfl

theorem Window.pushAll_concat (l : List Word) (v : Word) (x : Window) :
    x.pushAll (l ++ [v]) = (x.pushAll l).push v := by
  simp only [Window.pushAll, List.foldl_append, List.foldl_cons, List.foldl_nil]

theorem WindowOk.pushAll {x : Window} (h : WindowOk x) (l : List Word) : WindowOk (x.pushAll l) := by
  induction l generalizing x with
  | nil => exact h
  | cons v l ih => exact ih (h.push v)

/-- A run of `add` counts its values, up to 127 (R132). -/
theorem pushAll_n {x : Window} (h : WindowOk x) (l : List Word) : (x.pushAll l).n = min (x.n + l.length) 127 := by
  induction l generalizing x with
  | nil => exact (Nat.min_eq_left h.1).symm
  | cons v l ih =>
    rw [Window.pushAll_cons, ih (h.push v), (push_size v x h.2).1, List.length_cons]
    omega

/-- After a run of `add` the populated offsets hold its values, the latest first (R132). The window may have been full or
empty before. -/
theorem entry_pushAll {x : Window} (h : WindowOk x) (l : List Word) {k : Nat} (hk : k < l.length) (hcap : k < 127) :
    (x.pushAll l).entry k = l.reverse.getD k 0 := by
  induction l using List.reverseRecOn generalizing k with
  | nil => exact absurd hk (Nat.not_lt_zero k)
  | append_singleton l v ih =>
    have hok := h.pushAll l
    have hn := pushAll_n h l
    rw [List.length_append, List.length_singleton] at hk
    rw [Window.pushAll_concat, entry_push v _ _ hok.2, List.reverse_concat]
    cases k with
    | zero => rfl
    | succ k =>
      rw [if_neg (by omega), if_pos (by omega), Nat.add_sub_cancel, List.getD_cons_succ]
      exact ih (by omega) (by omega)

/-- The first value of a run is at the offset of the number of values after it. -/
theorem entry_pushAll_first {x : Window} (h : WindowOk x) (v : Word) (l : List Word) (hl : l.length < 127) :
    (x.pushAll (v :: l)).entry l.length = v := by
  rw [entry_pushAll h _ (by rw [List.length_cons]; omega) hl, List.reverse_cons,
    List.getD_append_right _ _ _ _ (by rw [List.length_reverse]), List.length_reverse, Nat.sub_self]
  rfl

/-- In a run of distinct values the first is at no offset of a later one. -/
theorem entry_pushAll_ne_first {x : Window} (h : WindowOk x) {v : Word} {l : List Word} (hv : v ∉ l) {k : Nat}
    (hk : k < l.length) (hcap : k < 127) : (x.pushAll (v :: l)).entry k ≠ v := by
  have hrev : k < l.reverse.length := by rwa [List.length_reverse]
  have hentry : (x.pushAll (v :: l)).entry k = l.reverse[k] := by
    rw [entry_pushAll h _ (by rw [List.length_cons]; omega) hcap, List.reverse_cons, List.getD_append _ _ _ _ hrev,
      List.getD_eq_getElem _ _ hrev]
  intro heq
  have hmem : l.reverse[k] ∈ l := List.mem_reverse.1 (List.getElem_mem hrev)
  exact hv (by rwa [← hentry, heq] at hmem)

/-- An `HW.ADD` of each value of a list pushes them all on the column's window and changes nothing else but the response. -/
theorem runInstrs_hwAdd (l : List Word) {col : Byte} {s : State} (hs : s.fault = 0) (hcol : col.toNat < s.cfg.ncolMax)
    (hc : col.toNat < s.hw.length) :
    ∃ t, runInstrs (l.map (Instr.hwAdd col)) s = some t ∧ t.fault = 0 ∧ t.cfg = s.cfg ∧
      window t col.toNat = (window s col.toNat).pushAll l := by
  induction l generalizing s with
  | nil => exact ⟨s, rfl, hs, rfl, rfl⟩
  | cons v l ih =>
    rw [List.map_cons, runInstrs_cons _ (exec_hwAdd_ok v hs hcol) hs]
    have hlen : (hwAdd col.toNat v s).hw.length = s.hw.length := List.length_set
    obtain ⟨t, hrun, hfault, hcfg, hwin⟩ := ih (s := respond 0 0 (hwAdd col.toNat v s)) hs hcol (hlen ▸ hc)
    have hnew : window (respond 0 0 (hwAdd col.toNat v s)) col.toNat = (window s col.toNat).push v :=
      window_setWindow_same _ hc
    exact ⟨t, hrun, hfault, hcfg, by rw [hwin, hnew, Window.pushAll_cons]⟩

/-! ## The oldest value is evicted (R137) -/

/-- After 128 distinct values no populated offset holds the first. -/
theorem noMatch_pushAll_first {x : Window} (h : WindowOk x) {v : Word} {l : List Word} (hv : v ∉ l)
    (hl : l.length = 127) : NoMatch (x.pushAll (v :: l)) v := fun j hj => by
  have hn := pushAll_n h (v :: l)
  exact entry_pushAll_ne_first h hv (by omega) (by omega)

/-- With 127 distinct values the first is at offset 126 and at no lower one. -/
theorem lowestMatch_pushAll_first {x : Window} (h : WindowOk x) {v : Word} {l : List Word} (hv : v ∉ l)
    (hl : l.length = 126) : LowestMatch (x.pushAll (v :: l)) v 126 := by
  have hn := pushAll_n h (v :: l)
  rw [List.length_cons] at hn
  have hat := entry_pushAll_first h v l (by omega)
  rw [hl] at hat
  exact ⟨by omega, hat, fun j hj => entry_pushAll_ne_first h hv (by omega) (by omega)⟩

/-- Settles O36: the run pushes the 128 values on the emptied window, whatever its count. The first has 127 values after it,
so it is gone; the second, with 126 after it, stands at the last offset. -/
theorem oldestValueIsEvicted : Obligations.OldestValueIsEvicted := by
  intro col v0 v1 vs s hs hlen hcol hlength hdistinct
  have hc : col.toNat < (hwInit col.toNat s).hw.length := by
    rw [hwInit, setWindow_hw, List.length_set, hlen]; exact hcol
  have hinit : window (respond 0 0 (hwInit col.toNat s)) col.toNat = Window.empty s.cfg.zeroFill :=
    window_setWindow_same _ (hlen ▸ hcol)
  obtain ⟨t, hrun, hfault, hcfg, hwin⟩ :=
    runInstrs_hwAdd (v0 :: v1 :: vs) (s := respond 0 0 (hwInit col.toNat s)) hs hcol hc
  rw [hinit] at hwin
  have hcol' : col.toNat < t.cfg.ncolMax := hcfg ▸ hcol
  have hempty : WindowOk (Window.empty s.cfg.zeroFill) := windowOk_empty _
  simp only [List.length_cons, Nat.reduceEqDiff] at hlength
  obtain ⟨hv0, hv1, _⟩ : v0 ∉ v1 :: vs ∧ v1 ∉ vs ∧ vs.Nodup := by simpa only [List.nodup_cons] using hdistinct
  have hgone : NoMatch (window t col.toNat) v0 :=
    hwin ▸ noMatch_pushAll_first hempty hv0 (by rw [List.length_cons, hlength])
  have hlast : LowestMatch (window t col.toNat) v1 126 := by
    rw [hwin, Window.pushAll_cons]
    exact lowestMatch_pushAll_first (hempty.push v0) hv1 hlength
  exact ⟨t, (runInstrs_cons _ (exec_hwInit_ok hs hcol) hs).trans hrun, exec_hwContains_absent hfault hcol' hgone,
    exec_hwContains_found hfault hcol' hlast⟩

end Sys2Proof.Machine
end

section
/-! SUPPORT. Operations that append a string of bits to the BitPacker (R50, R101): a single field, one string behind another,
and the code of a delta of deltas (R80, R153 to R155). -/

namespace Sys2Proof.Machine

/-! ## Bit strings as fields (R52, R54) -/

theorem fieldBits_congr {v v' : Word} {w : Nat} (h : ∀ j, j < w → v.getLsbD j = v'.getLsbD j) :
    fieldBits v w = fieldBits v' w := by
  refine List.ext_getElem (by simp) fun j hj _ => ?_
  rw [length_fieldBits] at hj
  rw [getElem_fieldBits, getElem_fieldBits, h _ (by omega)]

/-- A payload cut to its width has the same field. -/
theorem fieldBits_setWidth (u : Word) {w : Nat} (hw : w ≤ 64) :
    fieldBits ((u.setWidth w).setWidth 64) w = fieldBits u w :=
  fieldBits_congr fun j hj => by
    rw [BitVec.getLsbD_setWidth, BitVec.getLsbD_setWidth, decide_eq_true hj, decide_eq_true (by omega), Bool.true_and,
      Bool.true_and]

/-- A payload that fits below the bits put above it has their field and then its own (R154). -/
theorem fieldBits_shiftLeft_or (p u : Word) {a w : Nat} (hu : u.toNat < 2 ^ w) (hw : a + w ≤ 64) :
    fieldBits ((p <<< w) ||| u) (a + w) = fieldBits p a ++ fieldBits u w := by
  induction a with
  | zero =>
    rw [Nat.zero_add]
    refine fieldBits_congr fun j hj => ?_
    rw [BitVec.getLsbD_or, BitVec.getLsbD_shiftLeft, decide_eq_true hj]
    simp
  | succ a ih =>
    have hbit : ((p <<< w) ||| u).getLsbD (a + w) = p.getLsbD a := by
      rw [BitVec.getLsbD_or, BitVec.getLsbD_shiftLeft, getLsbD_of_lt_two_pow u w _ hu (by omega),
        decide_eq_true (by omega), decide_eq_false (by omega), Nat.add_sub_cancel]
      simp
    rw [Nat.add_right_comm, fieldBits, fieldBits, List.cons_append, hbit, ih (by omega)]

/-! ## Bit strings in the stream (R50) -/

theorem putBits_append (m : Store 64) (n : Nat) (l l' : List Bool) :
    putBits m n (l ++ l') = putBits (putBits m n l) (n + l.length) l' := by
  induction l generalizing m n with
  | nil => rfl
  | cons b l ih =>
    rw [List.cons_append, putBits, putBits, ih, List.length_cons, ← Nat.add_assoc, Nat.add_right_comm]

/-- A field is the string of its bits (R52). -/
theorem putField_eq_putBits (m : Store 64) (n : Nat) (v : Word) (w : Nat) :
    putField m n v w = putBits m n (fieldBits v w) := by
  induction w generalizing m n with
  | zero => rfl
  | succ w ih => exact ih _ _

/-- The bits of a string stand where it was written, and no other bit changes. -/
theorem streamBit_putBits {m : Store 64} (hwf : Store.wf m = true) (n : Nat) (l : List Bool) (k : Nat) :
    streamBit (putBits m n l) k = if h : n ≤ k ∧ k - n < l.length then l[k - n] else streamBit m k := by
  induction l generalizing m n with
  | nil => rw [dif_neg (by simp)]; rfl
  | cons b l ih =>
    rw [putBits, ih (setStreamBit_wf hwf n b), streamBit_setStreamBit hwf]
    simp only [List.length_cons]
    by_cases hk : k = n
    · subst hk
      simp
    · rw [if_neg hk]
      by_cases htail : n + 1 ≤ k ∧ k - (n + 1) < l.length
      · have hindex : k - n = k - (n + 1) + 1 := by omega
        rw [dif_pos htail, dif_pos (by omega)]
        simp only [hindex, List.getElem_cons_succ]
      · rw [dif_neg htail, dif_neg (by omega)]

theorem streamBits_putBits {m : Store 64} (hwf : Store.wf m = true) (n : Nat) (l : List Bool) :
    streamBits (putBits m n l) n l.length = l := by
  refine List.ext_getElem (by simp) fun j hj hj' => ?_
  rw [getElem_streamBits, streamBit_putBits hwf, dif_pos (by omega)]
  simp only [Nat.add_sub_cancel_left]

theorem streamBit_putBits_outside {m : Store 64} (hwf : Store.wf m = true) {n : Nat} {l : List Bool} {k : Nat}
    (hk : k < n ∨ n + l.length ≤ k) : streamBit (putBits m n l) k = streamBit m k := by
  rw [streamBit_putBits hwf, dif_neg (by omega)]

/-! ## Appending a string (R101) -/

/-- The state with a bit string written at the end of the stream. -/
def appendBits (l : List Bool) (s : State) : State :=
  { s with bpW := putBits s.bpW s.bpNbits l, bpNbits := s.bpNbits + l.length }

theorem appendBits_append (l l' : List Bool) (s : State) :
    appendBits (l ++ l') s = appendBits l' (appendBits l s) := by
  simp only [appendBits, putBits_append, List.length_append, Nat.add_assoc]

/-- The operation appends the string in write mode and with room for it; it raises `BP_MODE` on a frozen BitPacker and
`BP_OVERFLOW` without room. -/
structure AppendsBits (f : State → Comp State) (l : List Bool) : Prop where
  fits : ∀ {s}, s.bpMode = .write → s.bpNbits + l.length ≤ 64 * s.cfg.bpMaxWords → f s = .ok (appendBits l s)
  full : ∀ {s}, s.bpMode = .write → 64 * s.cfg.bpMaxWords < s.bpNbits + l.length → f s = .error .bpOverflow
  frozen : ∀ {s}, s.bpMode = .read → f s = .error .bpMode

/-- A field in range is appended as its bits (R101). -/
theorem appendsBits_bpAppend {v : Word} {w : Nat} (hw : 1 ≤ w ∧ w ≤ 64) (hv : v.toNat < 2 ^ w) :
    AppendsBits (bpAppend v w) (fieldBits v w) where
  fits hm hroom := by
    rw [length_fieldBits] at hroom
    refine (bpAppend_eq_ok _ _ _ _).2
      ⟨hm, hw, (outOfRange_eq_false v w).1 ((outOfRange_iff_lt v w).2 (.inl hv)), hroom, ?_⟩
    rw [appendBits, putField_eq_putBits, length_fieldBits]
  full hm hfull := by
    rw [length_fieldBits] at hfull
    exact (bpAppend_eq_error _ _ _ _).2 (.inr (.inr (.inr
      ⟨hm, (badWidth_eq_false w).2 hw, (outOfRange_iff_lt v w).2 (.inl hv), hfull, rfl⟩)))
  frozen hm := (bpAppend_eq_error _ _ _ _).2 (.inl ⟨bpMode_ne_write hm, rfl⟩)

/-- Two appends in order append both strings, and overflow as soon as the two together do not fit. -/
theorem AppendsBits.bind {f g : State → Comp State} {l l' : List Bool} (hf : AppendsBits f l) (hg : AppendsBits g l') :
    AppendsBits (fun s => f s >>= g) (l ++ l') where
  fits {s} hm hroom := by
    rw [List.length_append] at hroom
    have hrest : (appendBits l s).bpNbits + l'.length ≤ 64 * s.cfg.bpMaxWords := (Nat.add_assoc _ _ _).trans_le hroom
    rw [hf.fits hm (by omega), bind_ok, hg.fits (s := appendBits l s) hm hrest, appendBits_append]
  full {s} hm hfull := by
    rw [List.length_append] at hfull
    rcases Nat.lt_or_ge (64 * s.cfg.bpMaxWords) (s.bpNbits + l.length) with h | h
    · rw [hf.full hm h, bind_error]
    · have hrest : 64 * s.cfg.bpMaxWords < (appendBits l s).bpNbits + l'.length :=
        hfull.trans_eq (Nat.add_assoc _ _ _).symm
      rw [hf.fits hm h, bind_ok, hg.full (s := appendBits l s) hm hrest]
  frozen hm := by rw [hf.frozen hm, bind_error]

/-! ## The code of a delta of deltas (R80, R153 to R155) -/

theorem toNat_lt_of_bitlen {u : Word} {w : Nat} (h : bitlen u ≤ w) : u.toNat < 2 ^ w :=
  lt_of_lt_of_le (lt_two_pow_bitlen u) (Nat.pow_le_pow_right (by decide) h)

theorem toNat_shiftLeft_or_lt {p u : Word} {a w : Nat} (hp : p.toNat < 2 ^ a) (hu : u.toNat < 2 ^ w) :
    ((p <<< w) ||| u).toNat < 2 ^ (a + w) := by
  have hshift : (p <<< w).toNat < 2 ^ (a + w) := by
    rw [BitVec.toNat_shiftLeft, Nat.shiftLeft_eq, pow_add]
    exact lt_of_le_of_lt (Nat.mod_le _ _) (Nat.mul_lt_mul_of_pos_right hp (Nat.two_pow_pos w))
  rw [BitVec.toNat_or]
  exact Nat.or_lt_two_pow hshift (lt_of_lt_of_le hu (Nat.pow_le_pow_right (by decide) (by omega)))

/-- A bucket is appended as the bits that name it and those of its payload (R154). -/
theorem appendsBits_bucket {p u : Word} {a w : Nat} (hw : 1 ≤ a + w ∧ a + w ≤ 64) (hp : p.toNat < 2 ^ a)
    (hu : bitlen u ≤ w) :
    AppendsBits (bpAppend ((p <<< w) ||| u) (a + w)) (fieldBits p a ++ fieldBits ((u.setWidth w).setWidth 64) w) := by
  have hlt := toNat_lt_of_bitlen hu
  rw [fieldBits_setWidth u (by omega), ← fieldBits_shiftLeft_or p u hlt hw.2]
  exact appendsBits_bpAppend hw (toNat_shiftLeft_or_lt hp hlt)

/-- The bits of the escape bucket: `1111` and the low 32 bits, whether they stand for a delta or for the end of the stream
(R81, R155). -/
theorem encodeTs_escape (u : Word) :
    encodeTs (if u.setWidth 32 = BitVec.allOnes 32 then .eos else .dod32 (u.setWidth 32)) =
      fieldBits 0b1111 4 ++ fieldBits ((u.setWidth 32).setWidth 64) 32 := by
  split
  · next hall => rw [hall]; rfl
  · rfl

theorem toNat_and_low32_lt (u : Word) : (u &&& 0xFFFFFFFF).toNat < 2 ^ 32 := by
  rw [BitVec.toNat_and]
  exact Nat.and_lt_two_pow _ (by decide)

/-- The escape bucket is appended in two fields (R155). -/
theorem appendsBits_escape (u : Word) :
    AppendsBits (fun s => bpAppend 0b1111 4 s >>= bpAppend (u &&& 0xFFFFFFFF) 32)
      (fieldBits 0b1111 4 ++ fieldBits ((u.setWidth 32).setWidth 64) 32) := by
  have hlow : fieldBits (u &&& 0xFFFFFFFF) 32 = fieldBits ((u.setWidth 32).setWidth 64) 32 := by
    rw [fieldBits_setWidth u (by decide)]
    have hmask : ∀ j, j < 32 → (0xFFFFFFFF : Word).getLsbD j = true := by decide
    exact fieldBits_congr fun j hj => by rw [BitVec.getLsbD_and, hmask j hj, Bool.and_true]
  rw [← hlow]
  exact (appendsBits_bpAppend (by decide) (by decide)).bind
    (appendsBits_bpAppend (by decide) (toNat_and_low32_lt u))

/-- A delta of deltas that is not 0 is appended in the smallest bucket covering its zigzag form (R154). -/
theorem appendsBits_appendBucket {d : Word} (hd : d ≠ 0) :
    AppendsBits (appendBucket (zigzag d)) (encodeTs (tsCodeOf d)) := by
  rw [tsCodeOf, if_neg hd]
  by_cases h7 : bitlen (zigzag d) ≤ 7
  · have hop : appendBucket (zigzag d) = bpAppend ((0b10 <<< 7) ||| zigzag d) (2 + 7) := funext fun s => if_pos h7
    rw [hop, if_pos h7]
    exact appendsBits_bucket (p := 0b10) (a := 2) (by decide) (by decide) h7
  rw [if_neg h7]
  by_cases h9 : bitlen (zigzag d) ≤ 9
  · have hop : appendBucket (zigzag d) = bpAppend ((0b110 <<< 9) ||| zigzag d) (3 + 9) :=
      funext fun s => (if_neg h7).trans (if_pos h9)
    rw [hop, if_pos h9]
    exact appendsBits_bucket (p := 0b110) (a := 3) (by decide) (by decide) h9
  rw [if_neg h9]
  by_cases h12 : bitlen (zigzag d) ≤ 12
  · have hop : appendBucket (zigzag d) = bpAppend ((0b1110 <<< 12) ||| zigzag d) (4 + 12) :=
      funext fun s => (if_neg h7).trans ((if_neg h9).trans (if_pos h12))
    rw [hop, if_pos h12]
    exact appendsBits_bucket (p := 0b1110) (a := 4) (by decide) (by decide) h12
  · have hop : appendBucket (zigzag d) = fun s => bpAppend 0b1111 4 s >>= bpAppend (zigzag d &&& 0xFFFFFFFF) 32 :=
      funext fun s => (if_neg h7).trans ((if_neg h9).trans (if_neg h12))
    rw [hop, if_neg h12, encodeTs_escape]
    exact appendsBits_escape (zigzag d)

/-- The bits appended for a delta of deltas are its code in R80's table (R153 to R155). -/
theorem appendsBits_appendDod (d : Word) : AppendsBits (appendDod d) (encodeTs (tsCodeOf d)) := by
  by_cases hd : d = 0
  · have hop : appendDod d = bpAppend 0 1 := funext fun s => if_pos hd
    rw [hop, tsCodeOf, if_pos hd]
    exact appendsBits_bpAppend (by decide) (by decide)
  · have hop : appendDod d = appendBucket (zigzag d) := funext fun s => if_neg hd
    exact hop ▸ appendsBits_appendBucket hd

end Sys2Proof.Machine
end

section
/-! SUPPORT. What `ENC.BEGIN`, `ENC.ROW` and `ENC.FINISH` answer, as one equation for the completion of each and lemmas for its
faults (R150 to R156, R164). -/

namespace Sys2Proof.Machine

/-! ## The commands that begin with a phase check (R243) -/

/-- `i` is a command that raises `SEQUENCE` in the phases `wrong` and runs `f` in the others. -/
def PhaseCommand (i : Instr) (wrong : Phase → Prop) [DecidablePred wrong] (f : State → Comp (State × Word × Word)) : Prop :=
  ∀ s, exec i s = runCommand i s fun s => if wrong s.phase then raise .sequence else f s

section

variable {i : Instr} {wrong : Phase → Prop} [DecidablePred wrong] {f : State → Comp (State × Word × Word)} {s : State}

/-- In a legal phase the command answers what the rest of its body does. -/
theorem PhaseCommand.ok (h : PhaseCommand i wrong f) {t : State} {r0 r1 : Word} (hs : s.fault = 0)
    (hp : ¬ wrong s.phase) (hf : f s = .ok (t, r0, r1)) : exec i s = .next (respond r0 r1 t) :=
  (h s).trans (runCommand_ok i hs ((if_neg hp).trans hf))

/-- In a legal phase the command faults as the rest of its body does. -/
theorem PhaseCommand.faultsAs (h : PhaseCommand i wrong f) {c : FaultCode} (hs : s.fault = 0) (hp : ¬ wrong s.phase)
    (hf : f s = .error c) : FaultsAs (exec i s) c (opcodeOf i) s :=
  h s ▸ runCommand_faultsAs i hs ((if_neg hp).trans hf)

/-- In another phase the command raises `SEQUENCE`, whatever it goes on to do. -/
theorem PhaseCommand.sequence (h : PhaseCommand i wrong f) (hs : s.fault = 0) (hp : wrong s.phase) :
    FaultsAs (exec i s) .sequence (opcodeOf i) s :=
  h s ▸ runCommand_faultsAs i hs (if_pos hp)

end

theorem phaseCommand_encBegin (a : Word) :
    PhaseCommand (.encBegin a) (fun p => p ≠ .idle) fun s =>
      bpAppend a 64 (startEncoder a (clearStores s)) >>= fun t => .ok ({ t with phase := .encFirst }, 0, 0) :=
  fun _ => rfl

theorem phaseCommand_encRow (n : Byte) (x : Word) :
    PhaseCommand (.encRow n x) (fun p => p ≠ .encFirst ∧ p ≠ .encRun) fun s =>
      countCheck s n >>= fun _ => rowTimestamp n x s >>= fun t => .ok (enterRow t, 0, 0) := fun _ => rfl

theorem phaseCommand_encVal (v : Word) :
    PhaseCommand (.encVal v) (fun p => p ≠ .encRow) fun s =>
      appendValue s.vidx.toNat (canonical v s) s >>= fun t =>
        .ok (nextColumn (hwAdd s.vidx.toNat (canonical v s) t), 0, 0) := fun _ => rfl

theorem phaseCommand_encFinish :
    PhaseCommand .encFinish (fun p => p ≠ .encFirst ∧ p ≠ .encRun) fun s =>
      bpClose s >>= fun t => .ok ({ t with phase := .encDone }, 0, 0) := fun _ => rfl

/-- The phases between rows, in which `ENC.ROW` and `ENC.FINISH` are legal (R151, R164). -/
theorem betweenRows_iff {p : Phase} : ¬ (p ≠ .encFirst ∧ p ≠ .encRun) ↔ p = .encFirst ∨ p = .encRun := by tauto

/-! ## `ENC.BEGIN` (R150) -/

theorem appendsBits_anchor (a : Word) : AppendsBits (bpAppend a 64) (fieldBits a 64) :=
  appendsBits_bpAppend (by decide) a.isLt

/-- The core as `ENC.BEGIN` leaves it: cleared, with the anchor as the stream's first word. -/
def begunState (a : Word) (s : State) : State :=
  { startEncoder a (clearStores s) with bpW := putBits [] 0 (fieldBits a 64), bpNbits := 64, phase := .encFirst }

@[simp] theorem begunState_bpW (a : Word) (s : State) : (begunState a s).bpW = putBits [] 0 (fieldBits a 64) := by
  simp only [begunState]

theorem appendBits_anchor (a : Word) (s : State) :
    { appendBits (fieldBits a 64) (startEncoder a (clearStores s)) with phase := .encFirst } = begunState a s := by
  simp only [appendBits, length_fieldBits]
  rfl

theorem exec_encBegin_ok {a : Word} {s : State} (hs : s.fault = 0) (hp : s.phase = .idle)
    (hroom : 1 ≤ s.cfg.bpMaxWords) : exec (.encBegin a) s = .next (respond 0 0 (begunState a s)) := by
  have happ := (appendsBits_anchor a).fits (s := startEncoder a (clearStores s)) rfl (by simp; omega)
  exact (phaseCommand_encBegin a).ok hs (not_not.2 hp) (by rw [happ, bind_ok, appendBits_anchor])

/-- Without a word of storage the anchor does not fit (R101, R150). -/
theorem exec_encBegin_overflow {a : Word} {s : State} (hs : s.fault = 0) (hp : s.phase = .idle)
    (hfull : s.cfg.bpMaxWords = 0) : FaultsAs (exec (.encBegin a) s) .bpOverflow 0x40 s := by
  have happ := (appendsBits_anchor a).full (s := startEncoder a (clearStores s)) rfl (by simp [hfull])
  exact (phaseCommand_encBegin a).faultsAs hs (not_not.2 hp) (by rw [happ, bind_error])

/-! ## `ENC.ROW` (R151) -/

/-- Between rows and with a legal count, `ENC.ROW` completes as its timestamp does. -/
theorem exec_encRow_ok {n : Byte} {x : Word} {s t : State} (hs : s.fault = 0)
    (hp : s.phase = .encFirst ∨ s.phase = .encRun) (hn : n.toNat ≤ s.cfg.ncolMax) (h : rowTimestamp n x s = .ok t) :
    exec (.encRow n x) s = .next (respond 0 0 (enterRow t)) :=
  (phaseCommand_encRow n x).ok hs (betweenRows_iff.2 hp) (by rw [countCheck_ok hn, bind_ok, h, bind_ok])

/-- Between rows and with a legal count, `ENC.ROW` faults as its timestamp does. -/
theorem exec_encRow_faultsAs {n : Byte} {x : Word} {s : State} {c : FaultCode} (hs : s.fault = 0)
    (hp : s.phase = .encFirst ∨ s.phase = .encRun) (hn : n.toNat ≤ s.cfg.ncolMax) (h : rowTimestamp n x s = .error c) :
    FaultsAs (exec (.encRow n x) s) c 0x41 s :=
  (phaseCommand_encRow n x).faultsAs hs (betweenRows_iff.2 hp) (by rw [countCheck_ok hn, bind_ok, h, bind_error])

theorem exec_encRow_column {n : Byte} {x : Word} {s : State} (hs : s.fault = 0)
    (hp : s.phase = .encFirst ∨ s.phase = .encRun) (hn : s.cfg.ncolMax < n.toNat) :
    FaultsAs (exec (.encRow n x) s) .column 0x41 s :=
  (phaseCommand_encRow n x).faultsAs hs (betweenRows_iff.2 hp) (by rw [countCheck_error hn, bind_error])

/-- Entering a row sets `VIDX`, `FIRST` and `PHASE` and nothing else (R151). -/
theorem enterRow_eq (s : State) :
    enterRow s =
      { s with
        vidx := 0, first := if s.ncols = 0 then false else s.first
        phase := if s.ncols = 0 then .encRun else .encRow } := by
  unfold enterRow
  split <;> rfl

/-! ## The first row's timestamp (R152) -/

/-- A first delta below 2^32 is appended as its 32 bits. -/
theorem appendsBits_firstDelta {d : Word} (hd : d.toNat < 2 ^ 32) : AppendsBits (bpAppend d 32) (fieldBits d 32) :=
  appendsBits_bpAppend (by decide) hd

/-- The first row's timestamp is its delta's append, in the row's start state, and then the codec registers. -/
theorem rowTimestamp_first (n : Byte) (x : Word) {s : State} (hp : s.phase = .encFirst) :
    rowTimestamp n x s =
      bpAppend (x - s.anchor) 32 (rowStart n s) >>= fun t =>
        .ok { t with ts := x, delta := x - s.anchor, first := true } := by
  rw [rowTimestamp, if_pos hp, rowStart, if_pos hp]
  rfl

/-- The start of a row leaves the BitPacker and the parameters alone. -/
theorem rowStart_bitPacker (n : Byte) (s : State) :
    (rowStart n s).bpMode = s.bpMode ∧ (rowStart n s).bpNbits = s.bpNbits ∧ (rowStart n s).cfg = s.cfg := by
  rw [rowStart_eq]
  exact ⟨rfl, rfl, rfl⟩

/-- The first row's start with a field appended to the stream (R152). -/
theorem appendBits_rowStart {n : Byte} {s : State} (hp : s.phase = .encFirst) (v : Word) (w : Nat) :
    appendBits (fieldBits v w) (rowStart n s) =
      { s with
        bpW := putBits s.bpW s.bpNbits (fieldBits v w), bpNbits := s.bpNbits + w, ncols := n
        hw := (rowStart n s).hw } := by
  rw [appendBits, length_fieldBits, rowStart_eq, rowStart_ncols (absurd hp)]

theorem rowTimestamp_first_ok {n : Byte} {x : Word} {s : State} (hp : s.phase = .encFirst) (hm : s.bpMode = .write)
    (hd : (x - s.anchor).toNat < 2 ^ 32) (hroom : s.bpNbits + 32 ≤ 64 * s.cfg.bpMaxWords) :
    rowTimestamp n x s =
      .ok { s with
        bpW := putBits s.bpW s.bpNbits (fieldBits (x - s.anchor) 32), bpNbits := s.bpNbits + 32, ncols := n
        hw := (rowStart n s).hw, ts := x, delta := x - s.anchor, first := true } := by
  obtain ⟨hmode, hnbits, hcfg⟩ := rowStart_bitPacker n s
  have happ := (appendsBits_firstDelta hd).fits (s := rowStart n s) (hmode.trans hm)
    (by rwa [length_fieldBits, hnbits, hcfg])
  rw [rowTimestamp_first n x hp, happ, bind_ok, appendBits_rowStart hp]

/-- The first row's start empties the windows of its columns and keeps the others (R152). -/
theorem window_rowStart {n : Byte} {s : State} (hp : s.phase = .encFirst) (hn : n.toNat ≤ s.hw.length) (c : Nat) :
    window (rowStart n s) c = if c < n.toNat then Window.empty s.cfg.zeroFill else window s c := by
  rw [rowStart, if_pos hp]
  exact window_hwInitBelow n.toNat c { s with ncols := n } hn

/-- The first row's timestamp faults as the append of its delta does. -/
theorem rowTimestamp_first_error {n : Byte} {x : Word} {s : State} {c : FaultCode} (hp : s.phase = .encFirst)
    (h : bpAppend (x - s.anchor) 32 (rowStart n s) = .error c) : rowTimestamp n x s = .error c := by
  rw [rowTimestamp_first n x hp, h, bind_error]

/-- A BitPacker in read mode takes no first delta, whatever its value (R101). -/
theorem rowTimestamp_first_frozen {n : Byte} {x : Word} {s : State} (hp : s.phase = .encFirst) (hm : s.bpMode = .read) :
    rowTimestamp n x s = .error .bpMode :=
  rowTimestamp_first_error hp ((bpAppend_eq_error _ _ _ _).2
    (.inl ⟨bpMode_ne_write ((rowStart_bitPacker n s).1.trans hm), rfl⟩))

/-- A first delta of 2^32 or more is out of the field's range (R101, R152). -/
theorem rowTimestamp_first_range {n : Byte} {x : Word} {s : State} (hp : s.phase = .encFirst) (hm : s.bpMode = .write)
    (hd : 2 ^ 32 ≤ (x - s.anchor).toNat) : rowTimestamp n x s = .error .bpRange := by
  have hrange : outOfRange (x - s.anchor) 32 = true :=
    Bool.of_not_eq_false fun h => by
      have hlt := (outOfRange_iff_lt _ _).1 h
      omega
  exact rowTimestamp_first_error hp ((bpAppend_eq_error _ _ _ _).2
    (.inr (.inr (.inl ⟨(rowStart_bitPacker n s).1.trans hm, by decide, hrange, rfl⟩))))

theorem rowTimestamp_first_overflow {n : Byte} {x : Word} {s : State} (hp : s.phase = .encFirst)
    (hm : s.bpMode = .write) (hd : (x - s.anchor).toNat < 2 ^ 32) (hfull : 64 * s.cfg.bpMaxWords < s.bpNbits + 32) :
    rowTimestamp n x s = .error .bpOverflow := by
  obtain ⟨hmode, hnbits, hcfg⟩ := rowStart_bitPacker n s
  exact rowTimestamp_first_error hp ((appendsBits_firstDelta hd).full (s := rowStart n s) (hmode.trans hm)
    (by rwa [length_fieldBits, hnbits, hcfg]))

/-! ## A later row's timestamp (R153) -/

/-- With the stream's column count a later row's timestamp is its code's append and then the codec registers. -/
theorem rowTimestamp_later {n : Byte} (x : Word) {s : State} (hp : s.phase = .encRun) (hn : n = s.ncols) :
    rowTimestamp n x s =
      appendDod (dodOf x s) s >>= fun t => .ok { t with delta := x - s.ts, ts := x } := by
  rw [rowTimestamp, if_neg (by rw [hp]; nofun), if_neg (not_not.2 hn)]
  rfl

/-- The code the table gives for a later row's timestamp (R80, R153). -/
abbrev rowCode (x : Word) (s : State) : List Bool := encodeTs (tsCodeOf ((x - s.ts) - s.delta))

theorem rowTimestamp_later_ok {n : Byte} {x : Word} {s : State} (hp : s.phase = .encRun) (hn : n = s.ncols)
    (hm : s.bpMode = .write) (hroom : s.bpNbits + (rowCode x s).length ≤ 64 * s.cfg.bpMaxWords) :
    rowTimestamp n x s = .ok { appendBits (rowCode x s) s with delta := x - s.ts, ts := x } := by
  rw [rowTimestamp_later x hp hn, (appendsBits_appendDod (dodOf x s)).fits hm hroom, bind_ok]
  rfl

theorem rowTimestamp_later_overflow {n : Byte} {x : Word} {s : State} (hp : s.phase = .encRun) (hn : n = s.ncols)
    (hm : s.bpMode = .write) (hfull : 64 * s.cfg.bpMaxWords < s.bpNbits + (rowCode x s).length) :
    rowTimestamp n x s = .error .bpOverflow := by
  rw [rowTimestamp_later x hp hn, (appendsBits_appendDod (dodOf x s)).full hm hfull, bind_error]

theorem rowTimestamp_later_frozen {n : Byte} {x : Word} {s : State} (hp : s.phase = .encRun) (hn : n = s.ncols)
    (hm : s.bpMode = .read) : rowTimestamp n x s = .error .bpMode := by
  rw [rowTimestamp_later x hp hn, (appendsBits_appendDod (dodOf x s)).frozen hm, bind_error]

theorem rowTimestamp_colcount {n : Byte} {x : Word} {s : State} (hp : s.phase = .encRun) (hn : n ≠ s.ncols) :
    rowTimestamp n x s = .error .colcount := by
  rw [rowTimestamp, if_neg (by rw [hp]; nofun), if_pos hn, raise_eq_error]

/-! ## `ENC.FINISH` (R164) -/

theorem exec_encFinish_ok {s : State} (hs : s.fault = 0) (hp : s.phase = .encFirst ∨ s.phase = .encRun)
    (hm : s.bpMode = .write) (hroom : s.bpNbits + 133 ≤ 64 * s.cfg.bpMaxWords) :
    exec .encFinish s =
      .next (respond 0 0 { enterRead { s with bpW := putTrailer s.bpW s.bpNbits, bpNbits := s.bpNbits + 133 } with
        phase := .encDone }) :=
  phaseCommand_encFinish.ok hs (betweenRows_iff.2 hp) (by rw [bpClose_ok hm hroom]; rfl)

/-- Between rows `ENC.FINISH` faults as the close does. -/
theorem exec_encFinish_faultsAs {s : State} {c : FaultCode} (hs : s.fault = 0)
    (hp : s.phase = .encFirst ∨ s.phase = .encRun) (hc : bpClose s = .error c) :
    FaultsAs (exec .encFinish s) c 0x43 s :=
  phaseCommand_encFinish.faultsAs hs (betweenRows_iff.2 hp) (by rw [hc, bind_error])

end Sys2Proof.Machine
end

section
/-! `ENC.BEGIN`, `ENC.ROW` and `ENC.FINISH` against R150 to R156 and R164: the bits each appends, the windows and registers it
sets, and its faults. -/

namespace Sys2Proof.Machine

/-- The stream of a new session is the anchor's bits, most significant first (R50, R150). -/
theorem streamBit_anchor (a : Word) (k : Nat) :
    streamBit (putBits [] 0 (fieldBits a 64)) k = (decide (k < 64) && a.getLsbD (63 - k)) := by
  rw [← putField_eq_putBits, streamBit_putField rfl, Nat.zero_add, streamBit_nil, Nat.sub_zero]
  by_cases hk : k < 64
  · rw [if_pos ⟨Nat.zero_le k, hk⟩, decide_eq_true hk, Bool.true_and]
  · rw [if_neg (fun h => hk h.2), decide_eq_false hk, Bool.false_and]

/-- Settles O37: the completed command leaves the anchor's bits in an otherwise empty core (`streamBit_anchor`). -/
theorem beginStartsTheSession : Obligations.BeginStartsTheSession := by
  intro a s hs
  refine ⟨fun hp hroom => ⟨_, exec_encBegin_ok hs hp hroom, fun k => ?_, readByte_nil, rfl⟩,
    (phaseCommand_encBegin a).sequence hs, exec_encBegin_overflow hs⟩
  rw [respond_bpW, begunState_bpW, streamBit_anchor]

/-- Settles O38: the delta's field stands at the old end of the stream (`streamBit_putField`), and the row's start empties its
windows (`window_rowStart`). -/
theorem firstRowTimestampIsAppended : Obligations.FirstRowTimestampIsAppended := by
  intro n x s hs hwf hlen hp hn hm hd hroom
  have hexec := exec_encRow_ok hs (.inl hp) hn (rowTimestamp_first_ok (n := n) hp hm hd hroom)
  rw [enterRow_eq, ← putField_eq_putBits] at hexec
  have hwindow := window_rowStart hp (hlen ▸ hn)
  refine ⟨_, hexec, fun j hj => ?_, fun k hk => ?_, fun c hc => ?_, fun c hc => ?_, ?_⟩
  · rw [respond_bpW, streamBit_putField hwf, if_pos (by omega), Nat.add_sub_cancel_left]
  · rw [respond_bpW, streamBit_putField hwf, if_neg (by omega)]
  · exact (hwindow c).trans (if_pos hc)
  · exact (hwindow c).trans (if_neg (Nat.not_lt.2 hc))
  · by_cases h0 : n = 0
    · subst h0
      rfl
    · simp only [h0, if_false, ne_eq, not_false_eq_true, decide_true]
      rfl

/-- Settles O39: the later row appends the table's code (`appendsBits_appendDod`) and enters the row. -/
theorem laterRowTimestampIsAppended : Obligations.LaterRowTimestampIsAppended := by
  intro n x s hs hwf hp hn hcol hm code hroom
  have hexec := exec_encRow_ok hs (.inr hp) hcol (rowTimestamp_later_ok hp hn hm hroom)
  rw [enterRow_eq] at hexec
  refine ⟨_, hexec, streamBits_putBits hwf _ _, fun k hk => streamBit_putBits_outside hwf hk, ?_⟩
  subst hn
  rfl

/-- Settles O40: each clause is the check it names, with the ones before it passing. -/
theorem rowFaults : Obligations.RowFaults := by
  intro n x s hs code o
  refine ⟨fun hfirst hrun => (phaseCommand_encRow n x).sequence hs ⟨hfirst, hrun⟩, exec_encRow_column hs,
    fun hp hn hne => ?_, fun hp hn hm => ?_, fun hp hn hm hd => ?_, fun hp hn hm hd hfull => ?_, fun hp hn hcol hm hfull => ?_⟩
  · exact exec_encRow_faultsAs hs (.inr hp) hn (rowTimestamp_colcount hp hne)
  · rcases hp with hp | ⟨hp, hcount⟩
    · exact exec_encRow_faultsAs hs (.inl hp) hn (rowTimestamp_first_frozen hp hm)
    · exact exec_encRow_faultsAs hs (.inr hp) hn (rowTimestamp_later_frozen hp hcount hm)
  · exact exec_encRow_faultsAs hs (.inl hp) hn (rowTimestamp_first_range hp hm hd)
  · exact exec_encRow_faultsAs hs (.inl hp) hn (rowTimestamp_first_overflow hp hm hd hfull)
  · exact exec_encRow_faultsAs hs (.inr hp) hcol (rowTimestamp_later_overflow hp hn hm hfull)

/-- Settles O46: the completed command writes the trailer (`streamBit_putTrailer`), enters read mode and ends the session. -/
theorem finishClosesTheSession : Obligations.FinishClosesTheSession := by
  intro s hs hwf between
  refine ⟨fun hp hm hroom => ⟨_, exec_encFinish_ok hs hp hm hroom, fun j hj => ?_, fun k hk => ?_, rfl⟩,
    fun hp => phaseCommand_encFinish.sequence hs (not_or.1 hp),
    fun hp hm => exec_encFinish_faultsAs hs hp (bpClose_error_mode hm),
    fun hp hm hfull => exec_encFinish_faultsAs hs hp (bpClose_error_overflow hm hfull)⟩
  · rw [respond_bpW, enterRead_bpW, streamBit_putTrailer hwf, if_pos (by omega), Nat.add_sub_cancel_left]
  · rw [respond_bpW, enterRead_bpW, streamBit_putTrailer hwf, if_neg (by omega)]

end Sys2Proof.Machine
end

section
/-! The value code the Encoder chooses (R160 to R162): which one, its bytes, and the value it stands for. -/

namespace Sys2Proof.Machine

/-! ## The choice (R160 to R162) -/

/-- Only one offset is the lowest with the greatest score (R134). -/
theorem BestOffset.unique {x : Window} {v : Word} {k k' : Nat} (h : BestOffset x v k) (h' : BestOffset x v k') :
    k = k' := by
  obtain ⟨hk, hmax, hlow⟩ := h
  obtain ⟨hk', hmax', hlow'⟩ := h'
  rcases Nat.lt_trichotomy k k' with hlt | heq | hgt
  · exact absurd (hmax k' hk') (Nat.not_le.2 (hlow' k hlt))
  · exact heq
  · exact absurd (hmax' k hk) (Nat.not_le.2 (hlow k' hgt))

/-- `HWBest` answers the best offset and its entry (R134). -/
theorem best_of_bestOffset {x : Window} {v : Word} {k : Nat} (h : BestOffset x v k) : x.best v = .ok (k, x.entry k) := by
  obtain ⟨k', hbest⟩ := best_total v x (Nat.zero_lt_of_lt h.1)
  obtain ⟨hk', _, hmax, hlow⟩ := best_eq_ok v x k' _ hbest
  have hbest' : BestOffset x v k' := ⟨hk', hmax, hlow⟩
  rw [h.unique hbest', hbest]

/-- A value in the window is coded by its lowest offset (R160). -/
theorem chooseCode_exact {x : Window} {raw : Word} {k : Nat} (h : LowestMatch x raw k) :
    chooseCode x raw = .ok (.exact (BitVec.ofNat 7 k)) := by
  have hfind : x.find raw = some k := (find_eq_some _ _ _).2 h
  rw [chooseCode, hfind]

/-- A value not in the window is coded against its best candidate (R161, R162). -/
theorem chooseCode_best {x : Window} {raw : Word} {k : Nat} (hno : NoMatch x raw) (h : BestOffset x raw k) :
    chooseCode x raw = .ok (xorOrEscape k (x.entry k) raw) := by
  have hfind : x.find raw = none := (find_eq_none _ _).2 hno
  rw [chooseCode, hfind]
  dsimp only
  rw [best_of_bestOffset h]
  rfl

/-- On a window with no entry there is no code (R134; log entry 13). -/
theorem chooseCode_empty {x : Window} {raw : Word} (h : x.n = 0) : chooseCode x raw = .error .hwEmpty := by
  have hfind : x.find raw = none := (find_eq_none _ _).2 fun j hj => absurd hj (by omega)
  rw [chooseCode, hfind]
  dsimp only
  rw [best_empty raw x h, bind_error]

/-- A window with an entry gives a code: the lowest offset that holds the value, or one against the best candidate. -/
theorem chooseCode_cases {x : Window} (raw : Word) (h : 0 < x.n) :
    (∃ k, LowestMatch x raw k ∧ chooseCode x raw = .ok (.exact (BitVec.ofNat 7 k))) ∨
    ∃ k, NoMatch x raw ∧ BestOffset x raw k ∧ chooseCode x raw = .ok (xorOrEscape k (x.entry k) raw) := by
  cases hfind : x.find raw with
  | some k =>
    have hk : LowestMatch x raw k := (find_eq_some _ _ _).1 hfind
    exact .inl ⟨k, hk, chooseCode_exact hk⟩
  | none =>
    have hno : NoMatch x raw := (find_eq_none _ _).1 hfind
    obtain ⟨k, hbest⟩ := best_total raw x h
    obtain ⟨hk, _, hmax, hlow⟩ := best_eq_ok raw x k _ hbest
    exact .inr ⟨k, hno, ⟨hk, hmax, hlow⟩, chooseCode_best hno ⟨hk, hmax, hlow⟩⟩

theorem chooseCode_total {x : Window} (raw : Word) (h : 0 < x.n) : ∃ c, chooseCode x raw = .ok c := by
  rcases chooseCode_cases raw h with ⟨k, _, hc⟩ | ⟨k, _, _, hc⟩
  · exact ⟨_, hc⟩
  · exact ⟨_, hc⟩

/-! ## The XOR with the best candidate (R161) -/

/-- An entry that is not the value differs from it. -/
theorem NoMatch.xor_ne_zero {x : Window} {v : Word} {k : Nat} (h : NoMatch x v) (hk : k < x.n) : x.entry k ^^^ v ≠ 0 :=
  fun h0 => h k hk (BitVec.xor_eq_zero_iff.1 h0)

/-- The fields `T` and `L` of the info byte hold their values (R85). -/
theorem info_toNat {d : Word} (hd : d ≠ 0) :
    (BitVec.ofNat 4 (tzb d)).toNat = tzb d ∧ (BitVec.ofNat 4 (8 - lzb d - tzb d)).toNat = 8 - lzb d - tzb d := by
  have hsum := lzb_add_tzb_le d hd
  rw [BitVec.toNat_ofNat, BitVec.toNat_ofNat]
  omega

/-- Without its trailing zero bytes the XOR fits in its significant bytes (R84). -/
theorem toNat_significant_lt (d : Word) : (d >>> (8 * tzb d)).toNat < 2 ^ (8 * (8 - lzb d - tzb d)) := by
  apply Nat.lt_pow_two_of_testBit
  intro k hk
  have hclz : 8 * lzb d ≤ clz64 d := Nat.mul_div_le _ _
  rw [BitVec.testBit_toNat, BitVec.getLsbD_ushiftRight]
  by_cases h : 8 * tzb d + k < 64
  · exact (clz64_spec d).2.1 _ (by omega) h
  · exact BitVec.getLsbD_of_ge _ _ (by omega)

/-- Shifted back up, the significant bytes are the XOR again: what was cut off was zero (R187). -/
theorem shiftLeft_significant (d : Word) : (d >>> (8 * tzb d)) <<< (8 * tzb d) = d := by
  have hctz : 8 * tzb d ≤ ctz64 d := Nat.mul_div_le _ _
  apply BitVec.eq_of_getLsbD_eq
  intro k hk
  rw [BitVec.getLsbD_shiftLeft, BitVec.getLsbD_ushiftRight, decide_eq_true hk, Bool.true_and]
  by_cases hlow : k < 8 * tzb d
  · rw [decide_eq_true hlow, (ctz64_spec d).2.1 k (by omega)]
    rfl
  · rw [decide_eq_false hlow, Nat.add_sub_cancel' (Nat.not_lt.1 hlow)]
    rfl

theorem xorOrEscape_similar {k : Nat} {cand raw d : Word} (hd : cand ^^^ raw = d) (hsim : 1 < lzb d + tzb d) :
    xorOrEscape k cand raw =
      .xor (BitVec.ofNat 7 k) (BitVec.ofNat 4 (tzb d)) (BitVec.ofNat 4 (8 - lzb d - tzb d)) (d >>> (8 * tzb d)) := by
  subst hd
  exact if_pos hsim

theorem xorOrEscape_dissimilar {k : Nat} {cand raw d : Word} (hd : cand ^^^ raw = d) (hdis : lzb d + tzb d ≤ 1) :
    xorOrEscape k cand raw = .escape raw := by
  subst hd
  exact if_neg (Nat.not_lt.2 hdis)

/-! ## Its bytes (R83 to R86) -/

/-- An offset below 128 is its own `EXACT` code (R83). -/
theorem encodeVal_exact_ofNat {k : Nat} (hk : k < 128) : encodeVal (.exact (BitVec.ofNat 7 k)) = [BitVec.ofNat 8 k] := by
  have hbyte : (BitVec.ofNat 7 k).setWidth 8 = BitVec.ofNat 8 k := by
    apply BitVec.eq_of_toNat_eq
    simp only [BitVec.toNat_setWidth, BitVec.toNat_ofNat]
    omega
  exact congrArg (· :: []) hbyte

theorem header_ofNat {k : Nat} (hk : k < 128) : 0x80#8 ||| (BitVec.ofNat 7 k).setWidth 8 = BitVec.ofNat 8 (0x80 + k) := by
  apply BitVec.eq_of_toNat_eq
  rw [toNat_header, BitVec.toNat_ofNat, BitVec.toNat_ofNat]
  omega

theorem info_ofNat {t l : Nat} (ht : t < 16) (hl : l < 16) :
    (BitVec.ofNat 4 t ++ BitVec.ofNat 4 l : BitVec 8) = BitVec.ofNat 8 (16 * t + l) := by
  apply BitVec.eq_of_toNat_eq
  rw [BitVec.toNat_append, BitVec.toNat_ofNat, BitVec.toNat_ofNat, BitVec.toNat_ofNat, Nat.mod_eq_of_lt ht,
    Nat.mod_eq_of_lt hl, ← Nat.shiftLeft_add_eq_or_of_lt hl, Nat.shiftLeft_eq]
  omega

/-- The bytes of a similar value: a header, the info byte and the XOR's significant bytes (R84, R85). -/
theorem encodeVal_similar {k : Nat} {cand raw d : Word} (hd : cand ^^^ raw = d) (hne : d ≠ 0)
    (hsim : 1 < lzb d + tzb d) :
    encodeVal (xorOrEscape k cand raw) =
      (0x80#8 ||| (BitVec.ofNat 7 k).setWidth 8) :: BitVec.ofNat 8 (16 * tzb d + (8 - lzb d - tzb d)) ::
        lowBytes (d >>> (8 * tzb d)) (8 - lzb d - tzb d) := by
  obtain ⟨ht, hl⟩ := info_toNat hne
  have hsum := lzb_add_tzb_le d hne
  rw [xorOrEscape_similar hd hsim, encodeVal, ht, hl, if_neg (by omega), info_ofNat (by omega) (by omega)]

/-- The number of bytes of a value coded against its best candidate (R84, R86). -/
theorem length_encodeVal_xorOrEscape {k : Nat} {cand raw d : Word} (hd : cand ^^^ raw = d) (hne : d ≠ 0) :
    (encodeVal (xorOrEscape k cand raw)).length = if 1 < lzb d + tzb d then 2 + (8 - lzb d - tzb d) else 9 := by
  split
  · next hsim =>
    rw [encodeVal_similar hd hne hsim, List.length_cons, List.length_cons, length_lowBytes]
    omega
  · next hdis => rw [xorOrEscape_dissimilar hd (Nat.not_lt.1 hdis)]; rfl

theorem encodeVal_ne_nil (c : ValCode) : encodeVal c ≠ [] := by cases c <;> exact List.cons_ne_nil _ _

/-! ## Its value (R186, R187) -/

/-- The offset field of a code holds its value (R83, R84). -/
theorem toNat_offset {k : Nat} (hk : k < 128) : (BitVec.ofNat 7 k).toNat = k := Nat.mod_eq_of_lt hk

/-- The code for the lowest offset that holds the value stands for the value. -/
theorem codeValue_exact {x : Window} {raw : Word} {k : Nat} (hn : x.n ≤ 127) (h : LowestMatch x raw k) :
    codeValue (.exact (BitVec.ofNat 7 k)) x = .ok raw := by
  obtain ⟨hk, hentry, _⟩ := h
  rw [codeValue, toNat_offset (by omega), entryAt_ok hk, hentry]

/-- The code for the best candidate is well-formed and stands for the value. -/
theorem codeValue_xorOrEscape {x : Window} {raw : Word} {k : Nat} (hn : x.n ≤ 127) (hk : k < x.n)
    (hne : x.entry k ^^^ raw ≠ 0) :
    codeValue (xorOrEscape k (x.entry k) raw) x = .ok raw ∧
      (xorOrEscape k (x.entry k) raw).toInstr.wf = true := by
  obtain ⟨d, hd⟩ : ∃ d, x.entry k ^^^ raw = d := ⟨_, rfl⟩
  rw [hd] at hne
  rcases Nat.lt_or_ge 1 (lzb d + tzb d) with hsim | hdis
  · have hsum := lzb_add_tzb_le d hne
    have hoffset : (BitVec.ofNat 7 k).toNat = k := toNat_offset (by omega)
    have hnotEscape : BitVec.ofNat 7 k ≠ 0x7F#7 := fun h => by
      have : k = 127 := hoffset ▸ congrArg BitVec.toNat h
      omega
    obtain ⟨ht, hl⟩ := info_toNat hne
    rw [xorOrEscape_similar hd hsim]
    constructor
    · have hvalue : d ^^^ x.entry k = raw := by rw [← hd, BitVec.xor_comm, ← BitVec.xor_assoc]; simp
      rw [codeValue, xorValue, ht, hl, if_neg (by omega), hoffset, entryAt_ok hk, bind_ok, shiftLeft_significant, hvalue]
      rfl
    · rw [ValCode.toInstr, Instr.wf, ht, hl, if_pos (by omega), decide_eq_true (toNat_significant_lt d), Bool.and_true]
      exact bne_iff_ne.2 hnotEscape
  · rw [xorOrEscape_dissimilar hd hdis]
    exact ⟨rfl, rfl⟩

/-- Settles O57: each of the two choices stands for the value (`codeValue_exact`, `codeValue_xorOrEscape`). -/
theorem chosenValueCodeDecodesToTheValue : Obligations.ChosenValueCodeDecodesToTheValue := by
  intro x raw hn
  refine ⟨chooseCode_total raw, fun c hc => ?_⟩
  have hpop : 0 < x.n := Nat.pos_of_ne_zero fun h0 => by
    rw [chooseCode_empty h0] at hc
    cases hc
  rcases chooseCode_cases raw hpop with ⟨k, hk, h⟩ | ⟨k, hno, hbest, h⟩
  · rw [h] at hc
    cases hc
    exact ⟨codeValue_exact hn hk, rfl⟩
  · rw [h] at hc
    cases hc
    exact codeValue_xorOrEscape hn hbest.1 (hno.xor_ne_zero hbest.1)

end Sys2Proof.Machine
end

section
/-! `ENC.VAL` against R157 to R163 and R166: the bytes it appends in a first and in a later row, and its faults. -/

namespace Sys2Proof.Machine

/-! ## `ENC.VAL` of known bytes (R157, R163) -/

/-- The bytes written at the end of the ByteBuffer (R57, R124). -/
def appendBytes (l : List Byte) (s : State) : State :=
  { s with bbB := putBytes s.bbB s.bbLen l, bbLen := s.bbLen + l.length }

theorem bbPutAll_ok {l : List Byte} {s : State} (hroom : s.bbLen + l.length ≤ s.cfg.bbMaxBytes) :
    bbPutAll l s = .ok (appendBytes l s) :=
  (bbPutAll_eq_ok _ _ _).2 ⟨.inr hroom, rfl⟩

theorem bbPutAll_overflow {l : List Byte} {s : State} (hl : l ≠ []) (hfull : s.cfg.bbMaxBytes < s.bbLen + l.length) :
    bbPutAll l s = .error .bbOverflow :=
  (bbPutAll_eq_error _ _ _).2 ⟨hl, hfull, rfl⟩

theorem storeBytes_putBytes {m : Memory} (hwf : Memory.wf m = true) (n : Nat) (l : List Byte) :
    storeBytes (putBytes m n l) n l.length = l := by
  refine List.ext_getElem (by simp) fun j hj hj' => ?_
  simp only [storeBytes, List.getElem_map, List.getElem_range]
  rw [readByte_putBytes hwf, dif_pos (by omega)]
  simp only [Nat.add_sub_cancel_left]

/-- The value is coded by `code`: the command's bytes are these, in order. -/
def CodedAs (s : State) (v : Word) (code : List Byte) : Prop :=
  appendValue s.vidx.toNat (rawOf s v) s = bbPutAll code s

/-- In a first row a value is its 8 raw bytes (R158). -/
theorem codedAs_first {s : State} (v : Word) (hf : s.first = true) : CodedAs s v (bytes64 (rawOf s v)) := if_pos hf

/-- In a later row a value is the bytes of the code chosen (R160 to R162). -/
theorem codedAs_later {s : State} {v : Word} {c : ValCode} (hf : s.first = false)
    (hc : chooseCode (window s s.vidx.toNat) (rawOf s v) = .ok c) : CodedAs s v (encodeVal c) := by
  rw [CodedAs, appendValue, if_neg (by rw [hf]; nofun), encodeValue, hc, bind_ok]

/-- The step to the next column sets `VIDX`, `FIRST` and `PHASE` and nothing else (R157). -/
theorem nextColumn_eq {s : State} (hp : s.phase = .encRow) :
    nextColumn s =
      { s with
        vidx := if s.vidx + 1 = s.ncols then 0 else s.vidx + 1
        first := if s.vidx + 1 = s.ncols then false else s.first
        phase := if s.vidx + 1 = s.ncols then .encRun else .encRow } := by
  unfold nextColumn
  split
  · rfl
  · rw [← hp]

/-- With room for the code, `ENC.VAL` appends it, adds the value to its window and moves on (R157, R163). -/
theorem exec_encVal_encodes {v : Word} {s : State} {code : List Byte} (hs : s.fault = 0)
    (hwf : Memory.wf s.bbB = true) (hp : s.phase = .encRow) (hc : s.vidx.toNat < s.hw.length) (hcode : CodedAs s v code)
    (hroom : s.bbLen + code.length ≤ s.cfg.bbMaxBytes) :
    ∃ t, exec (.encVal v) s = .next t ∧ ValueEncoded s t (rawOf s v) code := by
  have happ : appendValue s.vidx.toNat (canonical v s) s = .ok (appendBytes code s) := hcode.trans (bbPutAll_ok hroom)
  have hexec := (phaseCommand_encVal v).ok hs (not_not.2 hp) (by rw [happ, bind_ok])
  rw [nextColumn_eq (s := hwAdd s.vidx.toNat (canonical v s) (appendBytes code s)) hp] at hexec
  refine ⟨_, hexec, storeBytes_putBytes hwf _ _, fun j hj => ?_, window_setWindow_same _ hc,
    fun c hne => window_setWindow_ne _ hc hne, rfl⟩
  exact (readByte_putBytes hwf _ _ _).trans (dif_neg (by omega))

/-- In a row `ENC.VAL` faults as the append of its value does. -/
theorem exec_encVal_faultsAs {v : Word} {s : State} {c : FaultCode} (hs : s.fault = 0) (hp : s.phase = .encRow)
    (h : appendValue s.vidx.toNat (rawOf s v) s = .error c) : FaultsAs (exec (.encVal v) s) c 0x42 s := by
  have happ : appendValue s.vidx.toNat (canonical v s) s = .error c := h
  exact (phaseCommand_encVal v).faultsAs hs (not_not.2 hp) (by rw [happ, bind_error])

/-- Without room for the code `ENC.VAL` raises `BB_OVERFLOW` (R124). -/
theorem exec_encVal_overflow {v : Word} {s : State} {code : List Byte} (hs : s.fault = 0) (hp : s.phase = .encRow)
    (hcode : CodedAs s v code) (hne : code ≠ []) (hfull : s.cfg.bbMaxBytes < s.bbLen + code.length) :
    FaultsAs (exec (.encVal v) s) .bbOverflow 0x42 s :=
  exec_encVal_faultsAs hs hp (hcode.trans (bbPutAll_overflow hne hfull))

/-! ## The obligations -/

/-- Settles O41, by the raw bytes of a first-row value (`codedAs_first`). -/
theorem firstRowValueIsAppended : Obligations.FirstRowValueIsAppended := fun v s hs hwf hp hf hc hroom =>
  exec_encVal_encodes hs hwf hp hc (codedAs_first v hf) (by rwa [length_bytes64])

/-- Settles O42: the lowest offset is below 128 and is its own code (`encodeVal_exact_ofNat`). -/
theorem exactMatchIsOneByte : Obligations.ExactMatchIsOneByte := by
  intro v k s hs hwf hp hf hc hn hk hroom
  have hlt : k < 128 := lt_of_lt_of_le hk.1 (hn.trans (by decide))
  have hcode := codedAs_later hf (chooseCode_exact hk)
  rw [encodeVal_exact_ofNat hlt] at hcode
  exact ⟨hlt, exec_encVal_encodes hs hwf hp hc hcode hroom⟩

/-- Settles O43: the XOR with the best candidate is not 0, which bounds `T` and `L` (`lzb_add_tzb_le`), and its code has these
bytes (`encodeVal_similar`). -/
theorem similarValueIsXorCoded : Obligations.SimilarValueIsXorCoded := by
  intro v k s hs hwf hp hf hc hn x l hno hbest hsim hroom
  have hne : x ≠ 0 := hno.xor_ne_zero hbest.1
  have hsum := lzb_add_tzb_le x hne
  have hk : k < 128 := lt_of_lt_of_le hbest.1 (hn.trans (by decide))
  have hcode := codedAs_later hf (chooseCode_best hno hbest)
  rw [encodeVal_similar rfl hne hsim, header_ofNat hk] at hcode
  refine ⟨by omega, by omega, by omega, exec_encVal_encodes hs hwf hp hc hcode ?_⟩
  rw [List.length_cons, List.length_cons, length_lowBytes]
  omega

/-- Settles O44: without useful similarity the code chosen is the escape (`xorOrEscape_dissimilar`). -/
theorem dissimilarValueIsEscaped : Obligations.DissimilarValueIsEscaped := by
  intro v k s hs hwf hp hf hc x hno hbest hdis hroom
  have hcode := codedAs_later hf (chooseCode_best hno hbest)
  rw [xorOrEscape_dissimilar rfl hdis] at hcode
  exact exec_encVal_encodes hs hwf hp hc hcode hroom

/-- Settles O45: the phase check, the append of the raw bytes or of the code chosen, and the window without a candidate. -/
theorem valueFaults : Obligations.ValueFaults := by
  intro v s hs x o
  refine ⟨(phaseCommand_encVal v).sequence hs, fun hp hf hfull => ?_, fun hp hf hempty => ?_,
    fun hp hf hpop hfull => ?_, ?_⟩
  · exact exec_encVal_overflow hs hp (codedAs_first v hf) (List.cons_ne_nil _ _) (by rwa [length_bytes64])
  · have hvalue : appendValue s.vidx.toNat (rawOf s v) s = .error .hwEmpty := by
      rw [appendValue, if_neg (by rw [hf]; nofun), encodeValue, chooseCode_empty hempty, bind_error]
    exact exec_encVal_faultsAs hs hp hvalue
  · obtain ⟨c, hc⟩ := chooseCode_total (rawOf s v) hpop
    have hlength := List.length_pos_iff.2 (encodeVal_ne_nil c)
    exact exec_encVal_overflow hs hp (codedAs_later hf hc) (encodeVal_ne_nil c) (by omega)
  · intro k hp hf hno hbest d hfull
    have hlength := length_encodeVal_xorOrEscape (k := k) (d := d) rfl (hno.xor_ne_zero hbest.1)
    exact exec_encVal_overflow hs hp (codedAs_later hf (chooseCode_best hno hbest)) (encodeVal_ne_nil _)
      (by rwa [hlength])

end Sys2Proof.Machine
end

section
/-! The timestamp code the Encoder chooses, read back by the Decoder (R153 to R155, R185). -/

namespace Sys2Proof.Machine

/-- `zigzag` doubles a delta, and complements the double of a negative one (R17). -/
theorem zigzag_eq (d : Word) : zigzag d = if d.msb then ~~~(d <<< 1) else d <<< 1 := by
  apply BitVec.eq_of_getLsbD_eq
  intro k hk
  rw [getLsbD_zigzag d k hk, ← BitVec.msb_eq_getLsbD_last]
  have hdouble : (d <<< 1).getLsbD k = if k = 0 then false else d.getLsbD (k - 1) := by
    rw [BitVec.getLsbD_shiftLeft, decide_eq_true hk, Bool.true_and]
    by_cases h0 : k = 0
    · rw [if_pos h0, decide_eq_true (by omega)]; rfl
    · rw [if_neg h0, decide_eq_false (by omega)]; rfl
  cases hmsb : d.msb
  · simp only [Bool.false_eq_true, if_false, hdouble, Bool.xor_false]
  · simp only [if_true, BitVec.getLsbD_not, hdouble, decide_eq_true hk, Bool.true_and, Bool.xor_true]
    split
    · rfl
    · rfl

/-- In the supported range the zigzag form is below the all-ones payload of end of stream (R155). -/
theorem toNat_zigzag_lt {d : Word} (hd : d.toInt.natAbs ≤ 2 ^ 31 - 1) : (zigzag d).toNat < 2 ^ 32 - 1 := by
  have hlt := d.isLt
  rw [BitVec.toInt_eq_msb_cond] at hd
  rw [zigzag_eq]
  cases hmsb : d.msb
  · rw [hmsb, if_neg nofun] at hd
    rw [if_neg nofun, BitVec.toNat_shiftLeft, Nat.shiftLeft_eq]
    omega
  · rw [hmsb, if_pos rfl] at hd
    rw [if_pos rfl, BitVec.toNat_not, BitVec.toNat_shiftLeft, Nat.shiftLeft_eq]
    omega

/-- A payload that fits in its bucket is widened back to itself (R54). -/
theorem setWidth_payload {u : Word} {w : Nat} (hu : u.toNat < 2 ^ w) : (u.setWidth w).setWidth 64 = u := by
  apply BitVec.eq_of_toNat_eq
  rw [BitVec.toNat_setWidth, BitVec.toNat_setWidth, Nat.mod_eq_of_lt hu, Nat.mod_eq_of_lt u.isLt]

/-- A payload below the all-ones one is not end of stream (R81). -/
theorem setWidth_ne_allOnes {u : Word} (hu : u.toNat < 2 ^ 32 - 1) : u.setWidth 32 ≠ BitVec.allOnes 32 := by
  intro h
  have hnat := congrArg BitVec.toNat h
  rw [BitVec.toNat_setWidth, BitVec.toNat_allOnes] at hnat
  omega

/-- In the supported range the code of a delta of deltas has its zigzag form as payload, and is well-formed (R153, R154). -/
theorem tsPayload_tsCodeOf {d : Word} (hd : d.toInt.natAbs ≤ 2 ^ 31 - 1) :
    tsCodeOf d ≠ .eos ∧ (tsCodeOf d).toInstr.wf = true ∧ tsPayload (tsCodeOf d) = zigzag d := by
  have hlt := toNat_zigzag_lt hd
  have hones := setWidth_ne_allOnes hlt
  unfold tsCodeOf
  split_ifs with hzero h7 h9 h12
  · subst hzero
    exact ⟨nofun, rfl, rfl⟩
  · exact ⟨nofun, rfl, setWidth_payload (toNat_lt_of_bitlen h7)⟩
  · exact ⟨nofun, rfl, setWidth_payload (toNat_lt_of_bitlen h9)⟩
  · exact ⟨nofun, rfl, setWidth_payload (toNat_lt_of_bitlen h12)⟩
  · exact ⟨nofun, bne_iff_ne.2 hones, setWidth_payload (by omega)⟩

/-- Settles O58: the payload is the zigzag form (`tsPayload_tsCodeOf`), which `unzigzag` inverts; the two boundary values are
evaluated. -/
theorem chosenTimestampCodeDecodesToTheDelta : Obligations.ChosenTimestampCodeDecodesToTheDelta := by
  refine ⟨fun d hd => ?_, by decide, by decide⟩
  obtain ⟨hne, hwf, hpayload⟩ := tsPayload_tsCodeOf hd
  exact ⟨hne, hwf, by rw [hpayload, unzigzag_zigzag]⟩

end Sys2Proof.Machine
end

section
/-! The stream codes against R180 to R188: what each does once read, and when a value code faults; and the commands that read
the current row (R190, R191). -/

namespace Sys2Proof.Machine

/-! ## A code in the phases it is read in -/

/-- `i` is a stream code that is read in the phases `ps` and then does `f`. -/
def StreamCode (i : Instr) (ps : List Phase) (f : State → Comp State) : Prop := ∀ s, exec i s = runCode i ps s f

section

variable {i : Instr} {ps : List Phase} {f : State → Comp State} {s : State}

theorem StreamCode.ok (h : StreamCode i ps f) {t : State} (hs : s.fault = 0) (hp : s.phase ∈ ps) (hf : f s = .ok t) :
    exec i s = .next t := (h s).trans (runCode_ok i hs hp hf)

theorem StreamCode.faultsAs (h : StreamCode i ps f) {c : FaultCode} (hs : s.fault = 0) (hp : s.phase ∈ ps)
    (hf : f s = .error c) : FaultsAs (exec i s) c (opcodeOf i) s := h s ▸ runCode_faultsAs i hs hp hf

/-- A code that leaves no fault has done its effect. -/
theorem StreamCode.completed (h : StreamCode i ps f) {t : State} (hs : s.fault = 0) (he : exec i s = .next t)
    (ht : t.fault = 0) : f s = .ok t := by
  rw [h s] at he
  rcases runCode_cases i ps s f with ⟨hf, _⟩ | ⟨_, _, e⟩ | ⟨_, _, u, hu, e⟩ | ⟨_, _, c, _, e⟩
  · exact absurd hs hf
  · rw [e] at he
    cases he
    exact absurd ht (faultByte_ne_zero .sequence)
  · rw [e] at he
    cases he
    exact hu
  · rw [e] at he
    cases he
    exact absurd ht (faultByte_ne_zero c)

end

/-! ## The fixed fields and the ends of the stream (R180 to R185, R109) -/

theorem streamCode_tsAnchor (a : Word) : StreamCode (.tsAnchor a) [.idle, .encDone] fun s => .ok (takeAnchor a s) :=
  fun _ => rfl

theorem streamCode_tsFirstdelta (d : BitVec 32) :
    StreamCode (.tsFirstdelta d) [.decFirst] fun s =>
      .ok (if d = BitVec.allOnes 32 then takeEnd s else takeFirstDelta d s) := fun _ => rfl

theorem streamCode_tsEos : StreamCode .tsEos [.decRun] fun s => .ok (takeEnd s) := fun _ => rfl

theorem streamCode_bpTrailer : StreamCode .bpTrailer [.decFirst, .decRun] fun s => .ok (takeEnd s) := fun _ => rfl

theorem streamCode_valFirst (v : Word) :
    StreamCode (.valFirst v) [.decFirst] fun s => inRow s fun s => .ok (storeValue v s) := fun _ => rfl

/-- A first delta that is not all ones sets the first row's timestamp (R183). -/
theorem exec_tsFirstdelta_ok {s : State} {d : BitVec 32} (hs : s.fault = 0) (hp : s.phase = .decFirst)
    (hd : d ≠ BitVec.allOnes 32) : exec (.tsFirstdelta d) s = .next (takeFirstDelta d s) :=
  (streamCode_tsFirstdelta d).ok hs (by simp [hp]) (by rw [if_neg hd])

/-- A first delta of all ones ends the stream (R184). -/
theorem exec_tsFirstdelta_end {s : State} (hs : s.fault = 0) (hp : s.phase = .decFirst) :
    exec (.tsFirstdelta (BitVec.allOnes 32)) s = .next (takeEnd s) :=
  (streamCode_tsFirstdelta _).ok hs (by simp [hp]) (by rw [if_pos rfl])

/-- A value code below the last column runs its effect. -/
theorem inRow_of_lt {s : State} (body : State → Comp State) (hc : s.dcol < s.ncols.toNat) : inRow s body = body s :=
  if_neg (Nat.not_le.2 hc)

/-- Settles O55, clause by clause by the equation of the code. -/
theorem fixedFieldsAndEndOfStream : Obligations.FixedFieldsAndEndOfStream := fun a v _ _ hs =>
  ⟨fun hp => (streamCode_tsAnchor a).ok hs (by simpa using hp) rfl, exec_tsFirstdelta_ok hs, exec_tsFirstdelta_end hs,
    fun hp hc => (streamCode_valFirst v).ok hs (by simp [hp]) (inRow_of_lt _ hc),
    fun hp => streamCode_tsEos.ok hs (by simp [hp]) rfl, fun hp => streamCode_bpTrailer.ok hs (by simpa using hp) rfl⟩

/-! ## The timestamp codes (R185) -/

/-- A well-formed timestamp code other than end of stream moves the timestamp by its payload (R185). -/
theorem streamCode_tsCode {c : TsCode} (hne : c ≠ .eos) (hwf : c.toInstr.wf = true) :
    StreamCode c.toInstr [.decRun] fun s => .ok (takeDod (tsPayload c) s) := by
  cases c with
  | dod0 | dod7 | dod9 | dod12 => exact fun _ => rfl
  | dod32 u =>
    have hcode : StreamCode (.tsDod32 u) [.decRun] fun s =>
        .ok (if u = BitVec.allOnes 32 then takeEnd s else takeDod (tsPayload (.dod32 u)) s) := fun _ => rfl
    simp only [if_neg (bne_iff_ne.1 hwf)] at hcode
    exact hcode
  | eos => exact absurd rfl hne

theorem exec_tsCode_ok {c : TsCode} {s : State} (hne : c ≠ .eos) (hwf : c.toInstr.wf = true) (hs : s.fault = 0)
    (hp : s.phase = .decRun) : exec c.toInstr s = .next (takeDod (tsPayload c) s) :=
  (streamCode_tsCode hne hwf).ok hs (by simp [hp]) rfl

/-- Settles O53: each code by `exec_tsCode_ok`, the one-bit code with the payload 0. -/
theorem timestampCodesMoveTheTimestamp : Obligations.TimestampCodesMoveTheTimestamp := by
  intro s hs hp after
  have hzero : unzigzag 0 = 0 := by decide
  have hcode0 := exec_tsCode_ok (c := .dod0) nofun rfl hs hp
  rw [takeDod, tsPayload, hzero] at hcode0
  refine ⟨hcode0, fun u => exec_tsCode_ok (c := .dod7 u) nofun rfl hs hp, fun u => exec_tsCode_ok (c := .dod9 u) nofun rfl hs hp,
    fun u => exec_tsCode_ok (c := .dod12 u) nofun rfl hs hp,
    fun u hu => exec_tsCode_ok (c := .dod32 u) nofun (bne_iff_ne.2 hu) hs hp, unzigzag_zigzag⟩

/-! ## The value codes (R186 to R188) -/

/-- Every value code runs its effect in a later row's columns. -/
theorem streamCode_valCode (c : ValCode) :
    StreamCode c.toInstr [.decRun] fun s => inRow s (takeValCode c) := by cases c <;> exact fun _ => rfl

/-- Every value code is read by `DEC.NEXT` (R225). -/
theorem opcodeOf_valCode (c : ValCode) : opcodeOf c.toInstr = 0x51 := by cases c <;> rfl

theorem takeValCode_ok {c : ValCode} {s : State} {v : Word} (hv : codeValue c (window s s.dcol) = .ok v) :
    takeValCode c s = .ok (storeValue v s) := by rw [takeValCode, hv]; rfl

theorem takeValCode_error {c : ValCode} {s : State} {e : FaultCode} (he : codeValue c (window s s.dcol) = .error e) :
    takeValCode c s = .error e := by rw [takeValCode, he]; rfl

/-- A value code in a column of the row stores the value it stands for against the column's window. -/
theorem exec_valCode_ok {c : ValCode} {s : State} {v : Word} (hs : s.fault = 0) (hp : s.phase = .decRun)
    (hc : s.dcol < s.ncols.toNat) (hv : codeValue c (window s s.dcol) = .ok v) :
    exec c.toInstr s = .next (storeValue v s) := by
  exact (streamCode_valCode c).ok hs (by simp [hp]) ((inRow_of_lt _ hc).trans (takeValCode_ok hv))

/-- A value code that stands for no value faults as its evaluation does. -/
theorem exec_valCode_faultsAs {c : ValCode} {s : State} {e : FaultCode} (hs : s.fault = 0) (hp : s.phase = .decRun)
    (hc : s.dcol < s.ncols.toNat) (he : codeValue c (window s s.dcol) = .error e) :
    FaultsAs (exec c.toInstr s) e 0x51 s := by
  rw [← opcodeOf_valCode c]
  exact (streamCode_valCode c).faultsAs hs (by simp [hp]) ((inRow_of_lt _ hc).trans (takeValCode_error he))

/-- The data of an XOR code changes the window's entry (R187). -/
theorem xorValue_ok {k : BitVec 7} {t l : BitVec 4} {x : Window} (y : Word) (htl : t.toNat + l.toNat ≤ 8)
    (hk : k.toNat < x.n) : xorValue k t l y x = .ok ((y <<< (8 * t.toNat)) ^^^ x.entry k.toNat) := by
  rw [xorValue, if_neg (Nat.not_lt.2 htl), entryAt_ok hk]
  rfl

theorem xorValue_malformed {k : BitVec 7} {t l : BitVec 4} {x : Window} (y : Word) (htl : 8 < t.toNat + l.toNat) :
    xorValue k t l y x = .error .malformed := if_pos htl

theorem xorValue_index {k : BitVec 7} {t l : BitVec 4} {x : Window} (y : Word) (htl : t.toNat + l.toNat ≤ 8)
    (hk : x.n ≤ k.toNat) : xorValue k t l y x = .error .hwIndex := by
  rw [xorValue, if_neg (Nat.not_lt.2 htl), entryAt_error hk]
  rfl

/-- Settles O54: each clause evaluates the code against the window (`xorValue_ok` and its faults). -/
theorem valueCodesStoreTheValue : Obligations.ValueCodesStoreTheValue := by
  intro k h t l y v s hs hp hc x stored
  exact ⟨exec_valCode_ok (c := .escape v) hs hp hc rfl,
    fun hh => exec_valCode_ok (c := .exact h) hs hp hc (entryAt_ok hh),
    fun hh => exec_valCode_faultsAs (c := .exact h) hs hp hc (entryAt_error hh),
    fun htl hk => exec_valCode_ok (c := .xor k t l y) hs hp hc (xorValue_ok y htl hk),
    fun htl => exec_valCode_faultsAs (c := .xor k t l y) hs hp hc (xorValue_malformed y htl),
    fun htl hk => exec_valCode_faultsAs (c := .xor k t l y) hs hp hc (xorValue_index y htl hk)⟩

/-! ## The current row (R190, R191) -/

theorem phaseCommand_decTs : PhaseCommand .decTs (fun p => p ≠ .decRun) fun s => .ok (s, s.ts, 0) := fun _ => rfl

theorem phaseCommand_decVal (col : Byte) :
    PhaseCommand (.decVal col) (fun p => p ≠ .decRun) fun s =>
      if s.ncols.toNat ≤ col.toNat then raise .column else .ok (s, s.storedV.getD col.toNat 0, 0) := fun _ => rfl

theorem exec_decTs_ok {s : State} (hs : s.fault = 0) (hp : s.phase = .decRun) :
    exec .decTs s = .next { s with resp := some ⟨0, s.ts, 0⟩ } := phaseCommand_decTs.ok hs (not_not.2 hp) rfl

theorem exec_decVal_ok {s : State} {col : Byte} (hs : s.fault = 0) (hp : s.phase = .decRun)
    (hc : col.toNat < s.ncols.toNat) :
    exec (.decVal col) s = .next { s with resp := some ⟨0, s.storedV.getD col.toNat 0, 0⟩ } :=
  (phaseCommand_decVal col).ok hs (not_not.2 hp) (if_neg (Nat.not_le.2 hc))

/-- Settles O52, each clause by the check of the command that it passes or fails. -/
theorem currentRowIsRead : Obligations.CurrentRowIsRead := fun col _ hs =>
  ⟨exec_decTs_ok hs, phaseCommand_decTs.sequence hs, exec_decVal_ok hs, (phaseCommand_decVal col).sequence hs,
    fun hp hc => (phaseCommand_decVal col).faultsAs hs (not_not.2 hp) (if_pos hc)⟩

end Sys2Proof.Machine
end

section
/-! SUPPORT. The Decoder's reading of the ByteBuffer is the decoder of byte strings on the bytes that are left (R87, R122,
R124, R186, R187); and a timestamp code the BitPacker ends in (R82, R185). -/

namespace Sys2Proof.Machine

/-! ## The bytes that are left -/

/-- The bytes not yet read, in order (R30). -/
def restBytes (s : State) : List Byte := storeBytes s.bbB s.bbRpos (s.bbLen - s.bbRpos)

@[simp] theorem length_restBytes (s : State) : (restBytes s).length = s.bbLen - s.bbRpos := length_storeBytes _ _ _

/-- The state with the ByteBuffer's cursor moved past `n` bytes. -/
def skipBytes (n : Nat) (s : State) : State := { s with bbRpos := s.bbRpos + n }

theorem skipBytes_skipBytes (m n : Nat) (s : State) : skipBytes m (skipBytes n s) = skipBytes (n + m) s := by
  simp only [skipBytes, Nat.add_assoc]

theorem restBytes_skipBytes {n : Nat} {s : State} (h : n ≤ s.bbLen - s.bbRpos) :
    restBytes s = storeBytes s.bbB s.bbRpos n ++ restBytes (skipBytes n s) := by
  have hsplit := storeBytes_add s.bbB s.bbRpos n (s.bbLen - s.bbRpos - n)
  rw [Nat.add_sub_cancel' h, Nat.sub_sub] at hsplit
  exact hsplit

/-- A string stands at the head of the bytes that are left as soon as the store holds it there. -/
theorem restBytes_eq_append {q : List Byte} {s : State} (hlen : s.bbRpos + q.length ≤ s.bbLen)
    (hq : storeBytes s.bbB s.bbRpos q.length = q) : restBytes s = q ++ restBytes (skipBytes q.length s) := by
  have hsplit := restBytes_skipBytes (n := q.length) (s := s) (by omega)
  rwa [hq] at hsplit

/-- Behind a string at the head of the bytes that are left stands the rest of them. -/
theorem restBytes_skipBytes_length {q rest : List Byte} {s : State} (h : restBytes s = q ++ rest) :
    restBytes (skipBytes q.length s) = rest := by
  have hle : q.length ≤ s.bbLen - s.bbRpos := by
    rw [← length_restBytes, h, List.length_append]
    exact Nat.le_add_right _ _
  rw [restBytes_skipBytes hle] at h
  exact (List.append_inj h (by simp)).2

/-! ## Reading them (R122, R124) -/

/-- The result of a decoder of byte strings as a reading of the core: the cursor moves past the bytes it consumed, and a string
that ends too early is `BB_UNDERFLOW`. -/
def atBytes {α : Type} (s : State) : Option (α × List Byte) → Comp (α × State)
  | some (a, rest) => .ok (a, skipBytes ((restBytes s).length - rest.length) s)
  | none => .error .bbUnderflow

theorem bbGet_nil {s : State} (h : restBytes s = []) : bbGet s = .error .bbUnderflow := by
  have hlen := length_restBytes s
  rw [h, List.length_nil] at hlen
  exact (bbGet_eq_error _ _).2 ⟨by omega, rfl⟩

theorem bbGet_cons {s : State} {b : Byte} {l : List Byte} (h : restBytes s = b :: l) : bbGet s = .ok (b, skipBytes 1 s) := by
  have hlen := length_restBytes s
  rw [h, List.length_cons] at hlen
  have hhead := restBytes_skipBytes (n := 1) (s := s) (by omega)
  rw [h, storeBytes_succ] at hhead
  exact (bbGet_eq_ok _ _ _).2 ⟨by omega, (List.cons.inj hhead).1, rfl⟩

/-- `BBGetN` of the bytes at the head of those that are left (R124). -/
theorem bbGetN_append {q rest : List Byte} {s : State} (h : restBytes s = q ++ rest) :
    bbGetN q.length s = .ok (wordOfBytes q, skipBytes q.length s) := by
  have hle : q.length ≤ s.bbLen - s.bbRpos := by
    rw [← length_restBytes, h, List.length_append]
    exact Nat.le_add_right _ _
  rw [restBytes_skipBytes hle] at h
  have hq : storeBytes s.bbB s.bbRpos q.length = q := (List.append_inj h (by simp)).1
  by_cases hend : s.bbRpos + q.length ≤ s.bbLen
  · rw [bbGetN_ok hend, hq]
    rfl
  · have hnil : q = [] := List.length_eq_zero_iff.1 (by omega)
    subst hnil
    rfl

/-- `BBGetN` past the last of them raises `BB_UNDERFLOW` (R122, R124). -/
theorem bbGetN_underflow {n : Nat} {s : State} (hn : s.bbRpos ≤ s.bbLen) (h : (restBytes s).length < n) :
    bbGetN n s = .error .bbUnderflow := by
  rw [length_restBytes] at h
  exact bbGetLoop_error 0 hn (by omega)

/-- The last `n` bytes of a code, read behind its first `k`, as a part of the reading of the whole code. -/
theorem bbGetN_tail {α : Type} (f : Word → α) {k n : Nat} {s : State} {q l : List Byte} (hs : restBytes s = q ++ l)
    (hk : q.length = k) (hpos : 0 < k) :
    (bbGetN n (skipBytes k s) >>= fun p => .ok (f p.1, p.2)) =
      atBytes s ((takeBytes n l).map fun p => (f p.1, p.2)) := by
  subst hk
  have hl := restBytes_skipBytes_length hs
  have hlen := congrArg List.length hs
  rw [List.length_append, length_restBytes] at hlen
  by_cases hn : n ≤ l.length
  · have htake : (l.take n).length = n := List.length_take_of_le hn
    have hread := bbGetN_append (q := l.take n) (rest := l.drop n) (hl.trans (List.take_append_drop n l).symm)
    rw [htake] at hread
    rw [hread, takeBytes_of_le hn, bind_ok, Option.map_some, atBytes, List.length_drop, skipBytes_skipBytes,
      length_restBytes]
    have hcount : q.length + n = s.bbLen - s.bbRpos - (l.length - n) := by omega
    rw [hcount]
  · have hread : bbGetN n (skipBytes q.length s) = .error .bbUnderflow :=
      bbGetN_underflow (s := skipBytes q.length s) (by dsimp only [skipBytes]; omega) (by rw [hl]; omega)
    rw [hread, takeBytes, if_pos (Nat.not_le.1 hn)]
    rfl

/-- The byte `0xFF` is an `ESCAPE` code of the 8 bytes behind it, if there are as many (R86, R87). -/
theorem decodeVal_escape_eq (l : List Byte) :
    decodeVal (0xFF :: l) = (takeBytes 8 l).map fun p => (.escape p.1, p.2) := by
  cases htake : takeBytes 8 l <;> simp [decodeVal, htake]

/-- A byte from `0x80` to `0xFE` and an info byte that is not malformed are an `XOR` code of the data bytes behind them, if
there are as many (R84, R85, R87). -/
theorem decodeVal_xor_eq {h info : Byte} (l : List Byte) (hh : ¬ h.toNat < 0x80) (hne : h ≠ 0xFF)
    (hinfo : ¬ 8 < (infoT info).toNat + (infoL info).toNat) :
    decodeVal (h :: info :: l) =
      (takeBytes (infoL info).toNat l).map fun p => (.xor (h.setWidth 7) (infoT info) (infoL info) p.1, p.2) := by
  refine (if_neg hh).trans ((if_neg hne).trans ((if_neg hinfo).trans ?_))
  cases takeBytes (infoL info).toNat l <;> rfl

/-- A byte from `0x80` to `0xFE` alone is no code (R87). -/
theorem decodeVal_header {h : Byte} (hh : ¬ h.toNat < 0x80) (hne : h ≠ 0xFF) : decodeVal [h] = none :=
  (if_neg hh).trans (if_neg hne)

/-- The Decoder's reading of a value code is the decoder's on the bytes that are left (R87, R186, R187). -/
theorem readValCode_eq (s : State) : readValCode s = atBytes s (decodeVal (restBytes s)) := by
  cases hrest : restBytes s with
  | nil => rw [readValCode, bbGet_nil hrest]; rfl
  | cons h l =>
    have hread : ∀ {k : Nat} {q l : List Byte}, restBytes s = q ++ l → q.length = k →
        (restBytes s).length - l.length = k := by
      rintro k q l hq rfl
      rw [hq, List.length_append, Nat.add_sub_cancel]
    have htail : restBytes (skipBytes 1 s) = l := restBytes_skipBytes_length (q := [h]) hrest
    rw [readValCode, bbGet_cons hrest, bind_ok]
    dsimp only
    by_cases hlow : h.toNat < 0x80
    · rw [if_pos hlow, decodeVal_exact l hlow, atBytes, hread (q := [h]) hrest rfl]
      rfl
    rw [if_neg hlow]
    by_cases hff : h = 0xFF
    · subst hff
      rw [if_pos rfl, decodeVal_escape_eq]
      exact bbGetN_tail ValCode.escape (q := [0xFF]) hrest rfl (by decide)
    rw [if_neg hff]
    cases l with
    | nil => rw [bbGet_nil htail, decodeVal_header hlow hff]; rfl
    | cons info l =>
      rw [bbGet_cons htail, bind_ok, skipBytes_skipBytes]
      dsimp only
      by_cases hinfo : 8 < (infoT info).toNat + (infoL info).toNat
      · rw [if_pos hinfo, decodeVal_malformed l (Nat.not_lt.1 hlow) hff hinfo, atBytes,
          hread (q := [h, info]) hrest rfl]
        rfl
      · rw [if_neg hinfo, decodeVal_xor_eq l hlow hff hinfo]
        exact bbGetN_tail (ValCode.xor (h.setWidth 7) (infoT info) (infoL info)) (q := [h, info]) hrest rfl (by decide)

/-- The Decoder reads the value code at the head of the bytes that are left and consumes exactly it (R87). -/
theorem readValCode_append {c : ValCode} {rest : List Byte} {s : State} (hc : c.toInstr.wf = true)
    (h : restBytes s = encodeVal c ++ rest) : readValCode s = .ok (c, skipBytes (encodeVal c).length s) := by
  rw [readValCode_eq, h, decodeVal_encodeVal hc, atBytes, h, List.length_append, Nat.add_sub_cancel]

/-! ## A timestamp code the stream ends in (R82, R185) -/

theorem badWidth_tsPayloadWidth {p : Word} (hp : p ≠ 0) : badWidth (tsPayloadWidth p) = false := by
  unfold tsPayloadWidth
  rw [if_neg hp]
  split_ifs <;> rfl

/-- Where the bits that are left are no timestamp code, its reading raises `BP_UNDERFLOW`. -/
theorem readTsCode_underflow {s : State} (hm : s.bpMode = .read) (h : decodeTs (restBits s) = none) :
    readTsCode s = .error .bpUnderflow := by
  rw [readTsCode, bpReadRun_eq_atStream hm (by decide)]
  unfold decodeTs at h
  split at h
  · next hrun => rw [hrun]; rfl
  · next p l hrun =>
    have hshort : l.length < tsPayloadWidth p := by
      by_contra hle
      rw [takeField_of_le (Nat.not_lt.1 hle)] at h
      cases h
    have hp : p ≠ 0 := by
      rintro rfl
      exact absurd hshort (Nat.not_lt_zero _)
    have hle := readRunBits_length_le hrun
    rw [length_restBits] at hle
    have hpayload : bpRead (tsPayloadWidth p) (skipBits (remaining s - l.length) s) = .error .bpUnderflow := by
      have hleft : remaining (skipBits (remaining s - l.length) s) < tsPayloadWidth p := by
        rw [remaining_skipBits]
        omega
      exact (bpRead_eq_error _ _ _).2 (.inr (.inr ⟨hm, badWidth_tsPayloadWidth hp, hleft, rfl⟩))
    rw [hrun, atStream, bind_ok]
    dsimp only
    rw [if_neg hp, hpayload, bind_error]

end Sys2Proof.Machine
end

section
/-! SUPPORT. The values of a row in order (R182, R186 to R188): what storing them does to the windows and to the row, the codes
that stand for them, and the Decoder's reading of both. -/

namespace Sys2Proof.Machine

/-! ## Runs of instructions -/

/-- A run's first instruction completes without a fault, and the others run behind it. -/
theorem runInstrs_cons_iff {i : Instr} {l : List Instr} {s t : State} :
    runInstrs (i :: l) s = some t ↔ ∃ u, exec i s = .next u ∧ u.fault = 0 ∧ runInstrs l u = some t := by
  constructor
  · intro h
    unfold runInstrs at h
    split at h
    · next u hu =>
      split at h
      · next hfault => exact ⟨u, hu, hfault, h⟩
      · cases h
    · cases h
  · rintro ⟨u, hu, hfault, h⟩
    rw [runInstrs_cons l hu hfault, h]

/-- A run of two programs in order goes through a state between them. -/
theorem runInstrs_append_iff {l l' : List Instr} {s t : State} :
    runInstrs (l ++ l') s = some t ↔ ∃ u, runInstrs l s = some u ∧ runInstrs l' u = some t := by
  constructor
  · intro h
    induction l generalizing s with
    | nil => exact ⟨s, rfl, h⟩
    | cons i l ih =>
      obtain ⟨v, hv, hfault, h⟩ := runInstrs_cons_iff.1 h
      obtain ⟨u, hu, h⟩ := ih h
      exact ⟨u, runInstrs_cons_iff.2 ⟨v, hv, hfault, hu⟩, h⟩
  · rintro ⟨u, hu, h⟩
    rw [runInstrs_append l' hu, h]

/-! ## Storing the values of a row (R182, R188) -/

theorem getD_set_self {α : Type} {l : List α} {j : Nat} (v d : α) (hj : j < l.length) : (l.set j v).getD j d = v := by
  simp [List.getD_eq_getElem?_getD, hj]

theorem getD_set_ne {α : Type} {l : List α} {j c : Nat} (v d : α) (hc : c ≠ j) : (l.set j v).getD c d = l.getD c d := by
  simp [List.getD_eq_getElem?_getD, Ne.symm hc]

/-- The windows after a row's values from column `j` on, each added to its own (R132). -/
def addRow : Nat → List Word → List Window → List Window
  | _, [], hw => hw
  | j, v :: vs, hw => addRow (j + 1) vs (hw.set j ((hw.getD j ⟨[], 0⟩).push v))

/-- A stored row with values from column `j` on (R38). -/
def setRow : Nat → List Word → List Word → List Word
  | _, [], row => row
  | j, v :: vs, row => setRow (j + 1) vs (row.set j v)

/-- The state after the values of a row from the current column on (R182, R188). -/
def storeRow (vs : List Word) (s : State) : State :=
  { s with hw := addRow s.dcol vs s.hw, storedV := setRow s.dcol vs s.storedV, dcol := s.dcol + vs.length }

theorem storeRow_cons (v : Word) (vs : List Word) (s : State) : storeRow (v :: vs) s = storeRow vs (storeValue v s) := by
  have hcol : s.dcol + (v :: vs).length = s.dcol + 1 + vs.length := by rw [List.length_cons]; omega
  rw [storeRow, hcol]
  rfl

/-- A row's values leave the windows of the other columns alone. -/
theorem getD_addRow_outside {j c : Nat} {vs : List Word} (hw : List Window) (hc : c < j ∨ j + vs.length ≤ c) :
    (addRow j vs hw).getD c ⟨[], 0⟩ = hw.getD c ⟨[], 0⟩ := by
  induction vs generalizing j hw with
  | nil => rfl
  | cons v vs ih =>
    rw [List.length_cons] at hc
    rw [addRow, ih _ (by omega), getD_set_ne _ _ (by omega)]

/-- A row's values are each added to the window of its own column. -/
theorem getD_addRow {j k : Nat} {vs : List Word} {hw : List Window} (hk : k < vs.length)
    (hlen : j + vs.length ≤ hw.length) : (addRow j vs hw).getD (j + k) ⟨[], 0⟩ = (hw.getD (j + k) ⟨[], 0⟩).push vs[k] := by
  induction vs generalizing j k hw with
  | nil => exact absurd hk (Nat.not_lt_zero k)
  | cons v vs ih =>
    rw [List.length_cons] at hlen hk
    cases k with
    | zero => rw [addRow, getD_addRow_outside _ (.inl (by omega)), Nat.add_zero, getD_set_self _ _ (by omega)]; rfl
    | succ k =>
      have hcol : j + (k + 1) = j + 1 + k := by omega
      rw [addRow, hcol, ih (Nat.lt_of_succ_lt_succ hk) (by rw [List.length_set]; omega), getD_set_ne _ _ (by omega)]
      rfl

theorem getD_setRow_outside {j c : Nat} {vs : List Word} (row : List Word) (hc : c < j ∨ j + vs.length ≤ c) :
    (setRow j vs row).getD c 0 = row.getD c 0 := by
  induction vs generalizing j row with
  | nil => rfl
  | cons v vs ih =>
    rw [List.length_cons] at hc
    rw [setRow, ih _ (by omega), getD_set_ne _ _ (by omega)]

theorem getD_setRow {j k : Nat} {vs row : List Word} (hk : k < vs.length) (hlen : j + vs.length ≤ row.length) :
    (setRow j vs row).getD (j + k) 0 = vs[k] := by
  induction vs generalizing j k row with
  | nil => exact absurd hk (Nat.not_lt_zero k)
  | cons v vs ih =>
    rw [List.length_cons] at hlen hk
    cases k with
    | zero => rw [setRow, getD_setRow_outside _ (.inl (by omega)), Nat.add_zero, getD_set_self _ _ (by omega)]; rfl
    | succ k =>
      have hcol : j + (k + 1) = j + 1 + k := by omega
      rw [setRow, hcol, ih (Nat.lt_of_succ_lt_succ hk) (by rw [List.length_set]; omega)]
      rfl

/-- A value stored in the current column leaves the windows of the columns behind it alone. -/
theorem window_storeValue_of_lt {s : State} {c : Nat} (v : Word) (hc : s.dcol < c) :
    window (storeValue v s) c = window s c := getD_set_ne _ _ (by omega)

/-! ## A first row's values (R182) -/

/-- The values whose bytes stand at the head of those that are left are read and stored, and no more than these are consumed
(R182). -/
theorem readFirstValues_append {vs : List Word} {rest : List Byte} {s : State}
    (h : restBytes s = vs.flatMap bytes64 ++ rest) :
    readFirstValues vs.length s = .ok (skipBytes (8 * vs.length) (storeRow vs s)) := by
  induction vs generalizing s with
  | nil => rfl
  | cons v vs ih =>
    rw [List.flatMap_cons, List.append_assoc] at h
    have hread : bbGet64 s = .ok (v, skipBytes 8 s) := by
      have hget := bbGetN_append h
      rwa [wordOfBytes_bytes64, length_bytes64] at hget
    have hrest : restBytes (storeValue v (skipBytes 8 s)) = vs.flatMap bytes64 ++ rest := restBytes_skipBytes_length h
    rw [List.length_cons, readFirstValues, hread, bind_ok]
    dsimp only
    rw [ih hrest, storeRow_cons]
    have hcount : s.bbRpos + 8 + 8 * vs.length = s.bbRpos + 8 * (vs.length + 1) := by omega
    simp only [skipBytes, storeRow, storeValue_bbRpos, hcount]
    rfl

/-- A row of more values than there are bytes left for raises `BB_UNDERFLOW` (R122, R182). -/
theorem readFirstValues_underflow {n : Nat} {s : State} (hr : s.bbRpos ≤ s.bbLen) (h : s.bbLen < s.bbRpos + 8 * n) :
    readFirstValues n s = .error .bbUnderflow := by
  induction n generalizing s with
  | zero => omega
  | succ n ih =>
    rw [readFirstValues]
    by_cases hone : s.bbRpos + 8 ≤ s.bbLen
    · rw [bbGet64, bbGetN_ok hone, bind_ok]
      exact ih (by rw [storeValue_bbRpos, storeValue_bbLen]; exact hone)
        (by rw [storeValue_bbRpos, storeValue_bbLen]; dsimp only; omega)
    · have hshort : (restBytes s).length < 8 := by rw [length_restBytes]; omega
      rw [bbGet64, bbGetN_underflow hr hshort, bind_error]

/-! ## A later row's values (R186 to R188) -/

/-- The well-formed codes `cs` stand for the values `vs`, each against the window of its column, from column `j` on. -/
inductive CodesStandFor (x : Nat → Window) : Nat → List ValCode → List Word → Prop
  | nil (j : Nat) : CodesStandFor x j [] []
  | cons {j : Nat} {c : ValCode} {v : Word} {cs : List ValCode} {vs : List Word} (hwf : c.toInstr.wf = true)
      (hv : codeValue c (x j) = .ok v) (h : CodesStandFor x (j + 1) cs vs) : CodesStandFor x j (c :: cs) (v :: vs)

theorem CodesStandFor.length_eq {x : Nat → Window} {j : Nat} {cs : List ValCode} {vs : List Word}
    (h : CodesStandFor x j cs vs) : cs.length = vs.length := by
  induction h with
  | nil => rfl
  | cons _ _ _ ih => exact congrArg (· + 1) ih

/-- What a row's codes stand for depends on the windows of their own columns only. -/
theorem CodesStandFor.congr {x y : Nat → Window} {j : Nat} {cs : List ValCode} {vs : List Word}
    (h : CodesStandFor x j cs vs) (hxy : ∀ c, j ≤ c → c < j + vs.length → x c = y c) : CodesStandFor y j cs vs := by
  induction h with
  | nil j => exact .nil j
  | @cons j c v cs vs hwf hv h ih =>
    rw [List.length_cons] at hxy
    rw [hxy j (Nat.le_refl j) (by omega)] at hv
    exact .cons hwf hv (ih fun c h1 h2 => hxy c (by omega) (by omega))

/-- Storing the first value leaves what the other codes stand for. -/
theorem CodesStandFor.storeValue {s : State} {cs : List ValCode} {vs : List Word} (v : Word)
    (h : CodesStandFor (window s) (s.dcol + 1) cs vs) :
    CodesStandFor (window (storeValue v s)) (s.dcol + 1) cs vs :=
  h.congr fun _ hc _ => (window_storeValue_of_lt v hc).symm

/-- The codes at the head of the bytes that are left are read, and their values stored, and no more than these are consumed;
the columns behind them are read next (R186 to R188). -/
theorem readRowValues_append {cs : List ValCode} {vs : List Word} {s : State} {rest : List Byte} (n : Nat)
    (h : CodesStandFor (window s) s.dcol cs vs) (hrest : restBytes s = cs.flatMap encodeVal ++ rest) :
    readRowValues (cs.length + n) s = readRowValues n (skipBytes (cs.flatMap encodeVal).length (storeRow vs s)) := by
  induction cs generalizing vs s with
  | nil => cases h; rw [List.length_nil, Nat.zero_add]; rfl
  | cons c cs ih =>
    cases h with
    | @cons _ _ v _ vs hwf hv h =>
      rw [List.flatMap_cons, List.append_assoc] at hrest
      rw [List.length_cons, Nat.add_right_comm, readRowValues, readValCode_append hwf hrest, bind_ok]
      dsimp only
      rw [takeValCode_ok (s := skipBytes _ s) hv, bind_ok,
        ih (s := storeValue v (skipBytes (encodeVal c).length s)) (h.storeValue v) (restBytes_skipBytes_length hrest),
        storeRow_cons, List.flatMap_cons, List.length_append, ← skipBytes_skipBytes]
      rfl

/-- Where the bytes that are left are no value code, the next column raises `BB_UNDERFLOW` (R122). -/
theorem readRowValues_underflow {s : State} (n : Nat) (h : decodeVal (restBytes s) = none) :
    readRowValues (n + 1) s = .error .bbUnderflow := by
  rw [readRowValues, readValCode_eq, h, atBytes, bind_error]

/-- Where the code at their head stands for no value, the next column faults with it (R186, R187). -/
theorem readRowValues_error {s : State} {d : ValCode} {rest : List Byte} {e : FaultCode} (n : Nat)
    (h : decodeVal (restBytes s) = some (d, rest)) (he : codeValue d (window s s.dcol) = .error e) :
    readRowValues (n + 1) s = .error e := by
  rw [readRowValues, readValCode_eq, h, atBytes, bind_ok]
  dsimp only
  rw [takeValCode_error (s := skipBytes _ s) he, bind_error]

/-- A row's codes run as instructions store the values they stand for (log entry 7). -/
theorem runInstrs_valCodes {cs : List ValCode} {s t : State} (hs : s.fault = 0) (hp : s.phase = .decRun)
    (hwf : ∀ c ∈ cs, c.toInstr.wf = true) (h : runInstrs (cs.map ValCode.toInstr) s = some t) :
    ∃ vs, CodesStandFor (window s) s.dcol cs vs ∧ t = storeRow vs s := by
  induction cs generalizing s with
  | nil => cases h; exact ⟨[], .nil _, rfl⟩
  | cons c cs ih =>
    obtain ⟨u, hu, hfault, h⟩ := runInstrs_cons_iff.1 h
    have hbody := (streamCode_valCode c).completed hs hu hfault
    obtain ⟨v, hv, e⟩ := (bind_eq_ok _ _ _).1 (inRow_eq_ok hbody)
    cases e
    obtain ⟨vs, hvs, rfl⟩ := ih (s := storeValue v s) hfault hp (fun x hx => hwf x (List.mem_cons_of_mem c hx)) h
    refine ⟨v :: vs, .cons (hwf c List.mem_cons_self) hv ?_, (storeRow_cons v vs s).symm⟩
    exact hvs.congr fun _ hc _ => window_storeValue_of_lt v hc

end Sys2Proof.Machine
end

section
/-! SUPPORT. What `DEC.INIT` and `DEC.NEXT` answer, as one equation for each way they complete and lemmas for their faults (R180
to R188). -/

namespace Sys2Proof.Machine

/-! ## Faulting answers (R225) -/

theorem faultByte_leftInverse : Function.LeftInverse (fun b : Byte => FaultCode.ofNat (b.toNat - 1)) faultByte := by
  intro c
  cases c <;> rfl

/-- An answer is the fault of one code only. -/
theorem FaultsAs.unique {o : Out} {c c' : FaultCode} {op op' : Byte} {s s' : State} (h : FaultsAs o c op s)
    (h' : FaultsAs o c' op' s') : c = c' := by
  obtain ⟨t, rfl, hc, _⟩ := h
  obtain ⟨t', ht, hc', _⟩ := h'
  cases ht
  exact faultByte_leftInverse.injective (hc.symm.trans hc')

/-- A state without a fault is no faulting answer. -/
theorem not_faultsAs_next {t s : State} {c : FaultCode} {op : Byte} (ht : t.fault = 0) : ¬ FaultsAs (.next t) c op s := by
  rintro ⟨t', e, hc, _⟩
  cases e
  exact faultByte_ne_zero c (hc.symm.trans ht)

/-- A value code of the row that faults stands for no value, with the same fault. -/
theorem codeValue_of_faultsAs {d : ValCode} {s : State} {e : FaultCode} {op : Byte} (hs : s.fault = 0)
    (hp : s.phase = .decRun) (hc : s.dcol < s.ncols.toNat) (h : FaultsAs (exec d.toInstr s) e op s) :
    codeValue d (window s s.dcol) = .error e := by
  cases hv : codeValue d (window s s.dcol) with
  | ok v => rw [exec_valCode_ok hs hp hc hv] at h; exact absurd h (not_faultsAs_next hs)
  | error e' => rw [h.unique (exec_valCode_faultsAs hs hp hc hv)]

/-! ## `DEC.INIT` (R180) -/

theorem phaseCommand_decInit (n : Byte) :
    PhaseCommand (.decInit n) (fun p => p ≠ .idle ∧ p ≠ .encDone) fun s =>
      countCheck s n >>= fun _ => bpRead 64 s >>= fun p => .ok (startDecoder n (takeAnchor p.1 p.2), 0, 0) := fun _ => rfl

/-- The phases in which `DEC.INIT` is legal (R180). -/
theorem betweenSessions_iff {p : Phase} : ¬ (p ≠ .idle ∧ p ≠ .encDone) ↔ p = .idle ∨ p = .encDone := by tauto

/-- The start of a Decoder session sets the codec registers and the windows and nothing else. -/
theorem startDecoder_eq (n : Byte) (s : State) :
    startDecoder n s =
      { s with
        hw := (hwInitBelow n.toNat { s with ncols := n }).hw, ncols := n, ts := 0, delta := 0, vidx := 0, first := false
        phase := .decFirst } := by
  rw [startDecoder, hwInitBelow_eq]

/-- It empties the windows of its columns and keeps the others (R180). -/
theorem window_startDecoder {n : Byte} {s : State} (hn : n.toNat ≤ s.hw.length) (c : Nat) :
    window (startDecoder n s) c = if c < n.toNat then Window.empty s.cfg.zeroFill else window s c :=
  window_hwInitBelow n.toNat c { s with ncols := n } hn

theorem exec_decInit_ok {n : Byte} {s : State} (hs : s.fault = 0) (hp : s.phase = .idle ∨ s.phase = .encDone)
    (hn : n.toNat ≤ s.cfg.ncolMax) (hm : s.bpMode = .read) (hleft : 64 ≤ remaining s) :
    exec (.decInit n) s =
      .next (respond 0 0
        (startDecoder n (takeAnchor (wordOfBits (streamBits s.bpW s.bpRpos 64)) (skipBits 64 s)))) := by
  have hread : bpRead 64 s = .ok (wordOfBits (streamBits s.bpW s.bpRpos 64), skipBits 64 s) :=
    (bpRead_eq_ok _ _ _ _).2 ⟨hm, by decide, hleft, (getField_zero _ _ _).symm, rfl⟩
  exact (phaseCommand_decInit n).ok hs (betweenSessions_iff.2 hp) (by rw [countCheck_ok hn, bind_ok, hread, bind_ok])

/-- With a legal count `DEC.INIT` faults as the read of the anchor does. -/
theorem exec_decInit_faultsAs {n : Byte} {s : State} {c : FaultCode} (hs : s.fault = 0)
    (hp : s.phase = .idle ∨ s.phase = .encDone) (hn : n.toNat ≤ s.cfg.ncolMax) (h : bpRead 64 s = .error c) :
    FaultsAs (exec (.decInit n) s) c 0x50 s :=
  (phaseCommand_decInit n).faultsAs hs (betweenSessions_iff.2 hp) (by rw [countCheck_ok hn, bind_ok, h, bind_error])

theorem exec_decInit_column {n : Byte} {s : State} (hs : s.fault = 0) (hp : s.phase = .idle ∨ s.phase = .encDone)
    (hn : s.cfg.ncolMax < n.toNat) : FaultsAs (exec (.decInit n) s) .column 0x50 s :=
  (phaseCommand_decInit n).faultsAs hs (betweenSessions_iff.2 hp) (by rw [countCheck_error hn, bind_error])

/-! ## `DEC.NEXT` (R181) -/

theorem phaseCommand_decNext :
    PhaseCommand .decNext (fun p => p ≠ .decFirst ∧ p ≠ .decRun) fun s =>
      decodeRow s >>= fun p => .ok (finishNext p.1 p.2) := fun _ => rfl

/-- The phases in which `DEC.NEXT` is legal (R181). -/
theorem decoding_iff {p : Phase} : ¬ (p ≠ .decFirst ∧ p ≠ .decRun) ↔ p = .decFirst ∨ p = .decRun := by tauto

/-- `DEC.NEXT` that decodes a row answers 1 and has a current row (R181). -/
theorem exec_decNext_row {s t : State} (hs : s.fault = 0) (hp : s.phase = .decFirst ∨ s.phase = .decRun)
    (hrow : decodeRow s = .ok (false, t)) : exec .decNext s = .next (respond 1 0 { t with phase := .decRun }) :=
  phaseCommand_decNext.ok hs (decoding_iff.2 hp) (by rw [hrow]; rfl)

/-- `DEC.NEXT` faults as its row does. -/
theorem exec_decNext_faultsAs {s : State} {c : FaultCode} (hs : s.fault = 0)
    (hp : s.phase = .decFirst ∨ s.phase = .decRun) (hrow : decodeRow s = .error c) :
    FaultsAs (exec .decNext s) c 0x51 s :=
  phaseCommand_decNext.faultsAs hs (decoding_iff.2 hp) (by rw [hrow, bind_error])

theorem decodeRow_of_decFirst {s : State} (hp : s.phase = .decFirst) : decodeRow s = decodeFirstRow s := if_pos hp

theorem decodeRow_of_decRun {s : State} (hp : s.phase = .decRun) : decodeRow s = decodeLaterRow s :=
  if_neg (by rw [hp]; nofun)

/-- The state after a row of `nbits` bits and `nbytes` bytes with the time `x`, the delta `d` and the values `vs`. -/
def rowDecoded (nbits nbytes : Nat) (x d : Word) (vs : List Word) (s : State) : State :=
  { s with
    bpRpos := s.bpRpos + nbits, bbRpos := s.bbRpos + nbytes, ts := x, delta := d, hw := addRow 0 vs s.hw
    storedV := setRow 0 vs s.storedV, dcol := 0, phase := .decRun, resp := some ⟨0, 1, 0⟩ }

/-! ## A first row (R182 to R184) -/

theorem wordOfBits_eq_allOnes {b : List Bool} (hb : b.length = 32) :
    wordOfBits b = 0xFFFFFFFF ↔ b = List.replicate 32 true := by
  constructor
  · intro h
    have hbits := fieldBits_wordOfBits b (by omega)
    rw [h, hb] at hbits
    exact hbits.symm
  · rintro rfl
    exact wordOfBits_ones 32

/-- 32 ones before the first row are the end of the stream (R184). -/
theorem decodeFirstRow_end {s : State} {rest : List Bool} (hm : s.bpMode = .read)
    (h : restBits s = List.replicate 32 true ++ rest) : decodeFirstRow s = .ok (true, skipBits 32 s) := by
  have hread := bpRead_restBits hm (by simp) h
  rw [List.length_replicate, wordOfBits_ones] at hread
  rw [decodeFirstRow, hread]
  rfl

/-- Behind 32 bits that are not all ones stand the row's values (R182, R183). -/
theorem decodeFirstRow_values {s : State} {b rest : List Bool} (hm : s.bpMode = .read) (hb : b.length = 32)
    (h : restBits s = b ++ rest) (hne : b ≠ List.replicate 32 true) :
    decodeFirstRow s =
      readFirstValues s.ncols.toNat { skipBits 32 s with dcol := 0 } >>= fun t =>
        .ok (false, takeFirstDelta ((wordOfBits b).setWidth 32) { t with dcol := 0 }) := by
  have hread := bpRead_restBits hm (by omega) h
  rw [hb] at hread
  rw [decodeFirstRow, hread, bind_ok]
  exact if_neg (mt (wordOfBits_eq_allOnes hb).1 hne)

theorem fieldBits_ne_allOnes {d : BitVec 32} (hd : d ≠ BitVec.allOnes 32) :
    fieldBits (d.setWidth 64) 32 ≠ List.replicate 32 true := by
  intro h
  have hword := congrArg (fun l => (wordOfBits l).setWidth 32) h
  rw [payload_fieldBits d (by decide)] at hword
  exact hd (hword.trans (by decide))

/-- `DEC.NEXT` on a first row (R181 to R184). -/
theorem exec_decNext_first {d : BitVec 32} {vs : List Word} {s : State} {rest : List Bool} {rest' : List Byte}
    (hs : s.fault = 0) (hp : s.phase = .decFirst) (hm : s.bpMode = .read) (hd : d ≠ BitVec.allOnes 32)
    (hbits : restBits s = fieldBits (d.setWidth 64) 32 ++ rest) (hvs : vs.length = s.ncols.toNat)
    (hbytes : restBytes s = vs.flatMap bytes64 ++ rest') :
    exec .decNext s =
      .next (rowDecoded 32 (8 * vs.length) (s.anchor + d.setWidth 64) (d.setWidth 64) vs s) := by
  have hvalues := readFirstValues_append (s := { skipBits 32 s with dcol := 0 }) hbytes
  have hrow := decodeFirstRow_values hm (length_fieldBits _ _) hbits (fieldBits_ne_allOnes hd)
  rw [← hvs, hvalues, bind_ok, payload_fieldBits d (by decide)] at hrow
  exact exec_decNext_row hs (.inl hp) ((decodeRow_of_decFirst hp).trans hrow)

/-! ## A later row (R185 to R188) -/

/-- 36 ones before a later row are the end of the stream (R81, R185). -/
theorem decodeLaterRow_end {s : State} {rest : List Bool} (hm : s.bpMode = .read)
    (h : restBits s = List.replicate 36 true ++ rest) : decodeLaterRow s = .ok (true, skipBits 36 s) := by
  rw [decodeLaterRow, readTsCode_restBits (c := .eos) hm rfl h]
  rfl

/-- Behind the timestamp code of a row stand the row's values (R185, R186). -/
theorem decodeLaterRow_values {c : TsCode} {s : State} {rest : List Bool} (hm : s.bpMode = .read) (hd : s.dcol = 0)
    (hne : c ≠ .eos) (hwf : c.toInstr.wf = true) (h : restBits s = encodeTs c ++ rest) :
    decodeLaterRow s =
      readRowValues s.ncols.toNat (skipBits (encodeTs c).length (takeDod (tsPayload c) s)) >>= fun t =>
        .ok (false, { t with dcol := 0 }) := by
  rw [decodeLaterRow, readTsCode_restBits hm hwf h, bind_ok]
  refine (if_neg hne).trans ?_
  rw [← hd]
  rfl

/-- `DEC.NEXT` on a later row whose codes stand for `vs` (R181, R185 to R188). -/
theorem exec_decNext_later {c : TsCode} {cs : List ValCode} {vs : List Word} {s : State} {rest : List Bool}
    {rest' : List Byte} (hs : s.fault = 0) (hp : s.phase = .decRun) (hm : s.bpMode = .read) (hd : s.dcol = 0)
    (hne : c ≠ .eos) (hwf : c.toInstr.wf = true) (hbits : restBits s = encodeTs c ++ rest)
    (hvs : CodesStandFor (window s) 0 cs vs) (hlen : cs.length = s.ncols.toNat)
    (hbytes : restBytes s = cs.flatMap encodeVal ++ rest') :
    exec .decNext s =
      .next (rowDecoded (encodeTs c).length (cs.flatMap encodeVal).length
        (s.ts + (s.delta + unzigzag (tsPayload c))) (s.delta + unzigzag (tsPayload c)) vs s) := by
  rw [← hd] at hvs
  have hvalues := readRowValues_append (s := skipBits (encodeTs c).length (takeDod (tsPayload c) s)) 0 hvs hbytes
  have hrow := decodeLaterRow_values hm hd hne hwf hbits
  rw [← hlen, ← Nat.add_zero cs.length, hvalues, readRowValues, bind_ok] at hrow
  rw [exec_decNext_row hs (.inr hp) ((decodeRow_of_decRun hp).trans hrow), rowDecoded, ← hd]
  rfl

end Sys2Proof.Machine
end

section
/-! `DEC.INIT` and `DEC.NEXT` against R180 to R188: what each reads and sets, the end of the stream, and their faults. -/

namespace Sys2Proof.Machine

/-- Settles O47: the anchor is the value of the next 64 bits, and the start of the session does the rest (`startDecoder_eq`);
each fault is the check it names. -/
theorem decoderInitReadsTheAnchor : Obligations.DecoderInitReadsTheAnchor := by
  intro n s hs hlen between
  refine ⟨fun hp hn hm hleft => ⟨_, exec_decInit_ok hs hp hn hm hleft, fun j hj => ?anchor, fun c hc => ?below,
    fun c hc => ?above, ?frame⟩, fun hp => (phaseCommand_decInit n).sequence hs (not_or.1 hp), exec_decInit_column hs,
    fun hp hn hm => ?_, fun hp hn hm hleft => ?_⟩
  case anchor =>
    have hback : s.bpRpos + (64 - 1 - (63 - j)) = s.bpRpos + j := by omega
    rw [respond_anchor, startDecoder_eq, takeAnchor, getLsbD_wordOfBits_streamBits _ _ _ _ (by omega), if_pos (by omega),
      hback]
  case below => exact (window_startDecoder (hlen ▸ hn) c).trans (if_pos hc)
  case above => exact (window_startDecoder (hlen ▸ hn) c).trans (if_neg (Nat.not_lt.2 hc))
  case frame => rw [startDecoder_eq]; rfl
  · exact exec_decInit_faultsAs hs hp hn ((bpRead_eq_error _ _ _).2 (.inl ⟨bpMode_ne_read hm, rfl⟩))
  · exact exec_decInit_faultsAs hs hp hn ((bpRead_eq_error _ _ _).2 (.inr (.inr ⟨hm, by decide, hleft, rfl⟩)))

/-- Set bits at the cursor are ones at the head of the bits that are left. -/
theorem restBits_eq_ones {s : State} {k : Nat} (hk : k ≤ remaining s)
    (h : ∀ j, j < k → streamBit s.bpW (s.bpRpos + j) = true) : ∃ rest, restBits s = List.replicate k true ++ rest := by
  refine restBits_eq_append.2 ⟨by rwa [List.length_replicate], List.ext_getElem (by simp) fun j hj hj' => ?_⟩
  rw [List.length_replicate] at hj'
  rw [getElem_streamBits, List.getElem_replicate, h j hj']

/-- Settles O48: each number of ones is read as the end of its kind of row. -/
theorem allOnesEndTheStream : Obligations.AllOnesEndTheStream := by
  intro s hs hm
  refine ⟨fun hp hleft hones => ?_, fun hp hleft hones => ?_⟩
  · obtain ⟨rest, h⟩ := restBits_eq_ones hleft hones
    exact exec_decNext_end hs (.inl hp) ((decodeRow_of_decFirst hp).trans (decodeFirstRow_end hm h))
  · obtain ⟨rest, h⟩ := restBits_eq_ones hleft hones
    exact exec_decNext_end hs (.inr hp) ((decodeRow_of_decRun hp).trans (decodeLaterRow_end hm h))

/-- Settles O49: the row's state is `rowDecoded`, whose windows and values are read column by column. -/
theorem firstRowDecodes : Obligations.FirstRowDecodes := by
  intro d vs s hs hp hm hcol hwindows hstored hncols hleft hbits hd hvs hroom hbytes
  obtain ⟨rest, hrest⟩ : ∃ rest, restBits s = fieldBits (d.setWidth 64) 32 ++ rest :=
    restBits_eq_append.2 ⟨by rwa [length_fieldBits], by rwa [length_fieldBits]⟩
  have hlength : (vs.flatMap bytes64).length = 8 * vs.length := by rw [← hbytes, length_storeBytes]
  have hbytes' := restBytes_eq_append (q := vs.flatMap bytes64) (s := s) (by rwa [hlength]) (by rwa [hlength])
  refine ⟨_, exec_decNext_first hs hp hm hd hrest hvs hbytes', fun c hc => ⟨?_, ?_⟩, fun c hc => ⟨?_, ?_⟩, ?_⟩
  · have hset := getD_setRow (j := 0) (row := s.storedV) hc (by omega)
    rwa [Nat.zero_add] at hset
  · have hadd := getD_addRow (j := 0) (hw := s.hw) hc (by omega)
    rwa [Nat.zero_add] at hadd
  · exact getD_setRow_outside _ (.inr (by omega))
  · exact getD_addRow_outside _ (.inr (by omega))
  · simp only [rowDecoded, hcol]

/-- A row's codes run as instructions: the timestamp code moves the timestamp, and the value codes store the values they stand
for (log entry 7). -/
theorem runInstrs_rowCodes {c : TsCode} {cs : List ValCode} {s t : State} (hs : s.fault = 0) (hp : s.phase = .decRun)
    (hd : s.dcol = 0) (hne : c ≠ .eos) (hc : c.toInstr.wf = true) (hcs : ∀ x ∈ cs, x.toInstr.wf = true)
    (h : runInstrs (c.toInstr :: cs.map ValCode.toInstr) s = some t) :
    ∃ vs, CodesStandFor (window s) 0 cs vs ∧ t = storeRow vs (takeDod (tsPayload c) s) := by
  rw [runInstrs_cons _ (exec_tsCode_ok hne hc hs hp) hs] at h
  rw [← hd]
  exact runInstrs_valCodes (s := takeDod (tsPayload c) s) hs hp hcs h

/-- Settles O50: the codes run as instructions stand for the values of the row (`runInstrs_rowCodes`), which `DEC.NEXT` reads
and stores in the same order. -/
theorem laterRowRunsItsStreamCodes : Obligations.LaterRowRunsItsStreamCodes := by
  intro c cs s t hs hp hm hd hne hc hcs hlen hleft hbits hroom hbytes hrun
  obtain ⟨vs, hvs, rfl⟩ := runInstrs_rowCodes hs hp hd hne hc hcs hrun
  obtain ⟨rest, hrest⟩ := restBits_eq_append.2 ⟨hleft, hbits⟩
  rw [exec_decNext_later hs hp hm hd hne hc hrest hvs hlen (restBytes_eq_append hroom hbytes)]
  simp only [rowDecoded, storeRow, takeDod, hd, hp]

/-- The column behind the codes of a row faults as the reading of its code, or as the code read does (R186, R187). -/
theorem decodeLaterRow_error {c : TsCode} {cs : List ValCode} {vs : List Word} {s : State} {e : FaultCode}
    {rest : List Bool} {rest' : List Byte} (hm : s.bpMode = .read) (hd : s.dcol = 0) (hne : c ≠ .eos)
    (hc : c.toInstr.wf = true) (hrest : restBits s = encodeTs c ++ rest) (hvs : CodesStandFor (window s) 0 cs vs)
    (hlen : cs.length < s.ncols.toNat) (hbytes : restBytes s = cs.flatMap encodeVal ++ rest')
    (he : ∀ n, readRowValues (n + 1) (skipBytes (cs.flatMap encodeVal).length
      (storeRow vs (skipBits (encodeTs c).length (takeDod (tsPayload c) s)))) = .error e) :
    decodeLaterRow s = .error e := by
  obtain ⟨n, hn⟩ : ∃ n, s.ncols.toNat = cs.length + (n + 1) := ⟨s.ncols.toNat - cs.length - 1, by omega⟩
  rw [← hd] at hvs
  rw [decodeLaterRow_values hm hd hne hc hrest, hn,
    readRowValues_append (s := skipBits (encodeTs c).length (takeDod (tsPayload c) s)) _ hvs hbytes, he, bind_error]

/-- Settles O51: each clause is the check or the reading that fails; behind the codes that complete, the reading of the next
code (`readValCode_eq`) or its value. -/
theorem decodeFaults : Obligations.DecodeFaults := by
  intro s hs o
  refine ⟨fun hfirst hrun => phaseCommand_decNext.sequence hs ⟨hfirst, hrun⟩, fun hp hm => ?mode, fun hp hm hleft => ?delta,
    fun hp hm hleft hne hr hroom => ?firstValue, fun hp hm hcode => ?tsCode, ?valCode⟩
  case mode =>
    have hread (w : Nat) : bpRead w s = .error .bpMode := (bpRead_eq_error _ _ _).2 (.inl ⟨bpMode_ne_read hm, rfl⟩)
    have hrun : bpReadRun 4 s = .error .bpMode := (bpReadRun_eq_error _ _ _).2 (.inl ⟨bpMode_ne_read hm, rfl⟩)
    refine exec_decNext_faultsAs hs hp ?_
    rcases hp with hp | hp
    · rw [decodeRow_of_decFirst hp, decodeFirstRow, hread, bind_error]
    · rw [decodeRow_of_decRun hp, decodeLaterRow, readTsCode, hrun, bind_error, bind_error]
  case delta =>
    have hread : bpRead 32 s = .error .bpUnderflow :=
      (bpRead_eq_error _ _ _).2 (.inr (.inr ⟨hm, by decide, hleft, rfl⟩))
    exact exec_decNext_faultsAs hs (.inl hp) (by rw [decodeRow_of_decFirst hp, decodeFirstRow, hread, bind_error])
  case firstValue =>
    have hvalues := readFirstValues_underflow (s := { skipBits 32 s with dcol := 0 }) hr hroom
    have hrow := decodeFirstRow_values hm (length_streamBits _ _ _) (restBits_skipBits hleft) hne
    exact exec_decNext_faultsAs hs (.inl hp) (by rw [decodeRow_of_decFirst hp, hrow, hvalues, bind_error])
  case tsCode =>
    exact exec_decNext_faultsAs hs (.inr hp)
      (by rw [decodeRow_of_decRun hp, decodeLaterRow, readTsCode_underflow hm hcode, bind_error])
  case valCode =>
    intro c cs u len hp hm hd hne hc hcs hlen hleft hbits hroom hbytes hrun
    obtain ⟨vs, hvs, rfl⟩ := runInstrs_rowCodes hs hp hd hne hc hcs hrun
    obtain ⟨rest, hrest⟩ := restBits_eq_append.2 ⟨hleft, hbits⟩
    have hfault {e : FaultCode} (he : ∀ n, readRowValues (n + 1) (skipBytes len
        (storeRow vs (skipBits (encodeTs c).length (takeDod (tsPayload c) s)))) = .error e) :
        FaultsAs o e 0x51 s :=
      exec_decNext_faultsAs hs (.inr hp) ((decodeRow_of_decRun hp).trans
        (decodeLaterRow_error hm hd hne hc hrest hvs hlen (restBytes_eq_append hroom hbytes) he))
    have hcol : (storeRow vs (takeDod (tsPayload c) s)).dcol < s.ncols.toNat := by
      rw [storeRow, takeDod, hd, Nat.zero_add, ← hvs.length_eq]
      exact hlen
    refine ⟨fun hcode => hfault fun n => readRowValues_underflow n hcode, fun d rest code hcode hd' => hfault fun n => ?_⟩
    have hvalue := codeValue_of_faultsAs (s := storeRow vs (takeDod (tsPayload c) s)) hs hp hcol hd'
    exact readRowValues_error n hcode hvalue

end Sys2Proof.Machine
end

section
/-! SUPPORT. The rows of an Encoder session that completes: the bits and bytes each command leaves behind what was written before
(R151 to R164). -/

namespace Sys2Proof.Machine

/-! ## Commands that complete -/

/-- A command with a phase check that leaves no fault was in a legal phase and has done its effect. -/
theorem PhaseCommand.completed {i : Instr} {wrong : Phase → Prop} [DecidablePred wrong]
    {f : State → Comp (State × Word × Word)} {s t : State} (h : PhaseCommand i wrong f) (hs : s.fault = 0)
    (he : exec i s = .next t) (ht : t.fault = 0) : ∃ u r0 r1, f s = .ok (u, r0, r1) ∧ t = respond r0 r1 u := by
  rw [h s] at he
  rcases runCommand_cases i s (fun s => if wrong s.phase then raise .sequence else f s) with
    ⟨hf, _⟩ | ⟨_, u, r0, r1, hu, e⟩ | ⟨_, c, _, e⟩
  · exact absurd hs hf
  · rw [e] at he
    cases he
    exact ⟨u, r0, r1, ((check_eq_ok _ _ _ _).1 hu).2, rfl⟩
  · rw [e] at he
    cases he
    exact absurd ht (faultByte_ne_zero c)

/-- Commands that complete keep the invariant of a core without a fault. -/
theorem runInstrs_liveInv {l : List Instr} {s t : State} (hl : ∀ i ∈ l, placeOf i = .port) (hs : LiveInv s)
    (h : runInstrs l s = some t) : LiveInv t := by
  induction l generalizing s with
  | nil => cases h; exact hs
  | cons i l ih =>
    obtain ⟨u, hu, hfault, h⟩ := runInstrs_cons_iff.1 h
    have hinv := exec_keeps_inv (hl i List.mem_cons_self) hs.inv hu
    exact ih (fun j hj => hl j (List.mem_cons_of_mem i hj)) (liveInv_iff.2 ⟨hinv, hfault⟩) h

/-! ## What has been written -/

/-- The bits of the stream, in order (R50). -/
def writtenBits (s : State) : List Bool := streamBits s.bpW 0 s.bpNbits

/-- The bytes of the ByteBuffer, in order (R57). -/
def writtenBytes (s : State) : List Byte := storeBytes s.bbB 0 s.bbLen

theorem writtenBits_appendBits {s : State} (hwf : Store.wf s.bpW = true) (l : List Bool) :
    writtenBits (appendBits l s) = writtenBits s ++ l := by
  have hold := streamBits_congr (p := 0) (n := s.bpNbits) (m := s.bpW) (m' := putBits s.bpW s.bpNbits l) fun k hk =>
    streamBit_putBits_outside hwf (.inl (by omega))
  have hnew := streamBits_putBits hwf s.bpNbits l
  rw [writtenBits, appendBits]
  dsimp only
  rw [streamBits_add, Nat.zero_add, hold, hnew, writtenBits]

theorem writtenBytes_appendBytes {s : State} (hwf : Memory.wf s.bbB = true) (l : List Byte) :
    writtenBytes (appendBytes l s) = writtenBytes s ++ l := by
  have hold : storeBytes (putBytes s.bbB s.bbLen l) 0 s.bbLen = storeBytes s.bbB 0 s.bbLen :=
    List.map_congr_left fun j hj => by
      rw [List.mem_range] at hj
      rw [readByte_putBytes hwf, dif_neg (by omega)]
  have hnew := storeBytes_putBytes hwf s.bbLen l
  rw [writtenBytes, appendBytes]
  dsimp only
  rw [storeBytes_add, Nat.zero_add, hold, hnew, writtenBytes]

theorem putBytes_append (m : Memory) (n : Nat) (l l' : List Byte) :
    putBytes m n (l ++ l') = putBytes (putBytes m n l) (n + l.length) l' := by
  induction l generalizing m n with
  | nil => rfl
  | cons b l ih =>
    rw [List.cons_append, putBytes, putBytes, ih, List.length_cons, ← Nat.add_assoc, Nat.add_right_comm]

/-! ## The values of a row (R157 to R163) -/

/-- The bytes of a row's values from column `j` on: the raw values in a first row, else codes that stand for them against the
windows `x`. -/
def RowBytes (first : Bool) (x : Nat → Window) (j : Nat) (vs : List Word) (bytes : List Byte) : Prop :=
  if first then bytes = vs.flatMap bytes64 else ∃ cs, CodesStandFor x j cs vs ∧ bytes = cs.flatMap encodeVal

theorem rowBytes_first {x : Nat → Window} {j : Nat} {vs : List Word} {bytes : List Byte} :
    RowBytes true x j vs bytes ↔ bytes = vs.flatMap bytes64 := Iff.rfl

theorem rowBytes_later {x : Nat → Window} {j : Nat} {vs : List Word} {bytes : List Byte} :
    RowBytes false x j vs bytes ↔ ∃ cs, CodesStandFor x j cs vs ∧ bytes = cs.flatMap encodeVal := by simp [RowBytes]

theorem RowBytes.nil (first : Bool) (x : Nat → Window) (j : Nat) : RowBytes first x j [] [] := by
  cases first with
  | true => rfl
  | false => exact rowBytes_later.2 ⟨[], .nil j, rfl⟩

theorem RowBytes.cons {first : Bool} {x : Nat → Window} {j : Nat} {v : Word} {vs : List Word} {code bytes : List Byte}
    (hv : RowBytes first x j [v] code) (h : RowBytes first x (j + 1) vs bytes) :
    RowBytes first x j (v :: vs) (code ++ bytes) := by
  cases first with
  | true =>
    rw [rowBytes_first] at hv h ⊢
    rw [hv, h, List.flatMap_cons, List.flatMap_cons, List.flatMap_nil, List.append_nil]
  | false =>
    obtain ⟨cs, hcs, rfl⟩ := rowBytes_later.1 h
    obtain ⟨_, hc, rfl⟩ := rowBytes_later.1 hv
    cases hc with
    | @cons _ c _ _ _ hwf hvalue htail =>
      cases htail
      exact rowBytes_later.2 ⟨c :: cs, .cons hwf hvalue hcs, by simp⟩

/-- A row's bytes depend on the windows of their own columns only. -/
theorem RowBytes.congr {first : Bool} {x y : Nat → Window} {j : Nat} {vs : List Word} {bytes : List Byte}
    (h : RowBytes first x j vs bytes) (hxy : ∀ c, j ≤ c → c < j + vs.length → x c = y c) :
    RowBytes first y j vs bytes := by
  cases first with
  | true => exact h
  | false =>
    obtain ⟨cs, hcs, rfl⟩ := rowBytes_later.1 h
    exact rowBytes_later.2 ⟨cs, hcs.congr hxy, rfl⟩

theorem bbPutAll_appendBytes {l : List Byte} {s t : State} (h : bbPutAll l s = .ok t) : t = appendBytes l s :=
  ((bbPutAll_eq_ok _ _ _).1 h).2

/-- No window of a core without a fault counts more than 127 entries (R31). -/
theorem LiveInv.window_n_le {s : State} (hs : LiveInv s) (c : Nat) : (window s c).n ≤ 127 := by
  by_cases hc : c < s.hw.length
  · rw [window, List.getD_eq_getElem _ _ hc]
    exact (hs.stores.windows.sizes _ (List.getElem_mem hc)).1
  · rw [window, List.getD_eq_default _ _ (Nat.le_of_not_lt hc)]
    exact Nat.zero_le _

/-- The bytes of one value are raw, or a code that stands for it (R157, R158, R160 to R162). -/
theorem appendValue_rowBytes {c : Nat} {raw : Word} {s t : State} (hs : LiveInv s) (h : appendValue c raw s = .ok t) :
    ∃ code, RowBytes s.first (window s) c [raw] code ∧ t = appendBytes code s := by
  cases hf : s.first with
  | true =>
    rw [appendValue, if_pos hf] at h
    exact ⟨bytes64 raw, rowBytes_first.2 (List.append_nil _).symm, bbPutAll_appendBytes h⟩
  | false =>
    rw [appendValue, if_neg (by rw [hf]; nofun)] at h
    obtain ⟨code, hcode, h⟩ := (bind_eq_ok _ _ _).1 h
    obtain ⟨_, hstands⟩ := chosenValueCodeDecodesToTheValue (window s c) raw (hs.window_n_le c)
    obtain ⟨hvalue, hwf⟩ := hstands code hcode
    exact ⟨encodeVal code, rowBytes_later.2 ⟨[code], .cons hwf hvalue (.nil _), (List.append_nil _).symm⟩,
      bbPutAll_appendBytes h⟩

/-- The state after a value that is not the last of its row, coded by `code`. -/
def valueEncoded (v : Word) (code : List Byte) (s : State) : State :=
  { appendBytes code s with
    hw := s.hw.set s.vidx.toNat ((window s s.vidx.toNat).push v), vidx := s.vidx + 1, phase := .encRow }

/-- The state after the values `vs` of a row from column `VIDX` on, coded by `bytes`. -/
def valuesEncoded (vs : List Word) (bytes : List Byte) (s : State) : State :=
  { appendBytes bytes s with
    hw := addRow s.vidx.toNat vs s.hw, vidx := 0, first := false, phase := .encRun }

theorem valuesEncoded_cons {s : State} (hv : (s.vidx + 1).toNat = s.vidx.toNat + 1) (v : Word) (vs : List Word)
    (code bytes : List Byte) (p q : Option Response) :
    withResp q (valuesEncoded vs bytes (withResp p (valueEncoded v code s))) =
      withResp q (valuesEncoded (v :: vs) (code ++ bytes) s) := by
  simp only [withResp, valuesEncoded, valueEncoded, appendBytes, hv, addRow, putBytes_append, List.length_append,
    Nat.add_assoc]
  rfl

/-- `ENC.VAL` that completes goes on to the next column, or ends the row behind the last (R157, R163). -/
theorem exec_encVal_completed {v : Word} {s t : State} (hs : LiveInv s) (hp : s.phase = .encRow)
    (h : exec (.encVal v) s = .next t) (ht : t.fault = 0) :
    ∃ code p, RowBytes s.first (window s) s.vidx.toNat [rawOf s v] code ∧
      t = withResp p (if s.vidx + 1 = s.ncols then valuesEncoded [rawOf s v] code s else valueEncoded (rawOf s v) code s) := by
  obtain ⟨u, r0, r1, hu, rfl⟩ := (phaseCommand_encVal v).completed hs.stores.noFault h ht
  obtain ⟨w, hw, e⟩ := (bind_eq_ok _ _ _).1 hu
  cases e
  obtain ⟨code, hcode, rfl⟩ := appendValue_rowBytes hs hw
  refine ⟨code, some ⟨stOk, 0, 0⟩, hcode, ?_⟩
  rw [nextColumn]
  split
  · next hlast => rw [if_pos (show s.vidx + 1 = s.ncols from hlast)]; rfl
  · next hlast => rw [if_neg (show ¬ s.vidx + 1 = s.ncols from hlast), valueEncoded, ← hp]; rfl

/-- An `ENC.VAL` for each column left of a row completes the row (R157, R163). -/
theorem runInstrs_encVal {vals : List Word} {s t : State} (hs : LiveInv s) (hp : s.phase = .encRow)
    (hlen : s.vidx.toNat + vals.length = s.ncols.toNat) (h : runInstrs (vals.map Instr.encVal) s = some t) :
    ∃ bytes p, RowBytes s.first (window s) s.vidx.toNat (vals.map (rawOf s)) bytes ∧
      t = withResp p (valuesEncoded (vals.map (rawOf s)) bytes s) := by
  have hlt := hs.session.vidxLt hp
  induction vals generalizing s with
  | nil => rw [List.length_nil] at hlen; omega
  | cons v vals ih =>
    obtain ⟨u, hu, hfault, h⟩ := runInstrs_cons_iff.1 h
    have hlive := liveInv_iff.2 ⟨exec_keeps_inv rfl hs.inv hu, hfault⟩
    obtain ⟨code, p, hcode, rfl⟩ := exec_encVal_completed hs hp hu hfault
    rw [List.length_cons] at hlen
    by_cases hlast : s.vidx + 1 = s.ncols
    · have hnil : vals = [] := List.length_eq_zero_iff.1 (by bv_omega)
      subst hnil
      rw [if_pos hlast] at h
      cases h
      exact ⟨code, p, hcode, rfl⟩
    · rw [if_neg hlast] at h hlive
      have hvidx : (s.vidx + 1).toNat = s.vidx.toNat + 1 := by bv_omega
      have hlen' : (s.vidx + 1).toNat + vals.length = s.ncols.toNat := by omega
      have hlt' : (s.vidx + 1).toNat < s.ncols.toNat :=
        lt_of_le_of_ne (by omega) fun h => hlast (BitVec.eq_of_toNat_eq h)
      obtain ⟨bytes, q, hbytes, rfl⟩ := ih hlive rfl hlen' h hlt'
      refine ⟨code ++ bytes, q, hcode.cons ?_, valuesEncoded_cons hvidx _ _ _ _ _ _⟩
      rw [← hvidx]
      refine hbytes.congr fun c hc _ => getD_set_ne _ _ ?_
      have hc' : (s.vidx + 1).toNat ≤ c := hc
      omega

/-! ## The timestamp of a row (R151 to R156) -/

/-- The bits of a row's timestamp: the first delta, or the table's code (R152, R153). -/
def rowBits (x : Word) (s : State) : List Bool := if s.phase = .encFirst then fieldBits (x - s.anchor) 32 else rowCode x s

/-- The delta of a row: from the anchor in the first, else from the row before (R152, R156). -/
def rowDelta (x : Word) (s : State) : Word := x - if s.phase = .encFirst then s.anchor else s.ts

/-- An operation that appends a string and answers has appended it. -/
theorem AppendsBits.eq_of_ok {f : State → Comp State} {l : List Bool} {s t : State} (hf : AppendsBits f l)
    (h : f s = .ok t) : t = appendBits l s := by
  cases hm : s.bpMode with
  | read => rw [hf.frozen hm] at h; cases h
  | write =>
    by_cases hroom : s.bpNbits + l.length ≤ 64 * s.cfg.bpMaxWords
    · rw [hf.fits hm hroom] at h
      exact (Except.ok.inj h).symm
    · rw [hf.full hm (Nat.lt_of_not_le hroom)] at h
      cases h

theorem bpAppend_appendBits {v : Word} {w : Nat} {s t : State} (h : bpAppend v w s = .ok t) :
    t = appendBits (fieldBits v w) s := by
  obtain ⟨_, _, _, _, rfl⟩ := (bpAppend_eq_ok _ _ _ _).1 h
  rw [appendBits, putField_eq_putBits, length_fieldBits]

/-- The core is between two rows of `n` columns, or before the first of them. -/
structure BetweenRows (n : Byte) (s : State) : Prop where
  live : LiveInv s
  phase : s.phase = .encFirst ∨ s.phase = .encRun ∧ s.ncols = n

theorem BetweenRows.first_eq_false {n : Byte} {s : State} (h : BetweenRows n s) : s.first = false := by
  refine Bool.eq_false_iff.2 fun hf => ?_
  have hrow := h.live.session.firstRow hf
  rcases h.phase with hp | ⟨hp, _⟩ <;> rw [hp] at hrow <;> cases hrow

/-- The state after a row's timestamp: its bits, appended in the row's start state, and the codec registers (R152, R153). -/
def rowTimed (n : Byte) (x : Word) (s : State) : State :=
  { appendBits (rowBits x s) s with
    ncols := n, hw := (rowStart n s).hw, ts := x, delta := rowDelta x s, first := decide (s.phase = .encFirst) }

theorem BetweenRows.rowTimestamp_eq {n : Byte} {x : Word} {s t : State} (h : BetweenRows n s)
    (ht : rowTimestamp n x s = .ok t) : t = rowTimed n x s := by
  unfold rowTimed
  rcases h.phase with hp | ⟨hp, hn⟩
  · rw [rowTimestamp_first n x hp] at ht
    obtain ⟨u, hu, e⟩ := (bind_eq_ok _ _ _).1 ht
    cases e
    rw [bpAppend_appendBits hu, appendBits_rowStart hp, rowBits, rowDelta, if_pos hp, if_pos hp, decide_eq_true hp,
      appendBits, length_fieldBits]
  · have hne : s.phase ≠ .encFirst := by rw [hp]; nofun
    rw [rowTimestamp_later x hp hn.symm] at ht
    obtain ⟨u, hu, e⟩ := (bind_eq_ok _ _ _).1 ht
    cases e
    rw [(appendsBits_appendDod _).eq_of_ok hu, rowBits, rowDelta, rowStart, if_neg hne, if_neg hne, if_neg hne,
      decide_eq_false hne, ← h.first_eq_false, ← hn]
    rfl

/-! ## A row (R151 to R163) -/

/-- The state after a row of the time `x` and the values `vs`, coded by `bytes`. -/
def rowEncoded (n : Byte) (x : Word) (vs : List Word) (bytes : List Byte) (s : State) : State :=
  { appendBytes bytes (appendBits (rowBits x s) s) with
    ncols := n, ts := x, delta := rowDelta x s, hw := addRow 0 vs (rowStart n s).hw, vidx := 0, first := false
    phase := .encRun }

/-- A row of no columns is complete at once (R151). -/
theorem enterRow_of_eq {s : State} (h : s.ncols = 0) :
    enterRow s = { s with vidx := 0, first := false, phase := .encRun } := if_pos h

theorem enterRow_of_ne {s : State} (h : s.ncols ≠ 0) : enterRow s = { s with vidx := 0, phase := .encRow } := if_neg h

/-- A row's commands that complete leave the row's bits and bytes behind what was written before. -/
theorem BetweenRows.row {n : Byte} {x : Word} {vals : List Word} {s t : State} (h : BetweenRows n s)
    (hlen : vals.length = n.toNat) (hrun : runInstrs (rowCommands (x, vals)) s = some t) :
    ∃ bytes p, RowBytes (decide (s.phase = .encFirst)) (window (rowStart n s)) 0 (vals.map (rawOf s)) bytes ∧
      t = withResp p (rowEncoded n x (vals.map (rawOf s)) bytes s) := by
  rw [rowCommands, hlen, BitVec.ofNat_toNat, BitVec.setWidth_eq] at hrun
  obtain ⟨u, hu, hfault, hrun⟩ := runInstrs_cons_iff.1 hrun
  have hlive := liveInv_iff.2 ⟨exec_keeps_inv rfl h.live.inv hu, hfault⟩
  obtain ⟨v, r0, r1, hv, rfl⟩ := (phaseCommand_encRow n x).completed h.live.stores.noFault hu hfault
  obtain ⟨_, _, hv⟩ := (bind_eq_ok _ _ _).1 hv
  obtain ⟨w, hw, e⟩ := (bind_eq_ok _ _ _).1 hv
  cases e
  obtain rfl := h.rowTimestamp_eq hw
  by_cases hzero : n = 0
  · have hnil : vals = [] := List.length_eq_zero_iff.1 (by rw [hlen, hzero]; rfl)
    subst hnil
    rw [enterRow_of_eq (s := rowTimed n x s) hzero] at hrun
    cases hrun
    exact ⟨[], _, .nil _ _ _, rfl⟩
  · rw [enterRow_of_ne (s := rowTimed n x s) hzero] at hrun hlive
    have hcols : (0 : Byte).toNat + vals.length = n.toNat := by rw [hlen]; exact Nat.zero_add _
    obtain ⟨bytes, p, hbytes, rfl⟩ := runInstrs_encVal hlive rfl hcols hrun
    exact ⟨bytes, p, hbytes, rfl⟩

/-- The core is between rows again. -/
theorem BetweenRows.next {n : Byte} {r : Word × List Word} {s t : State} (h : BetweenRows n s)
    (hlen : r.2.length = n.toNat) (hrun : runInstrs (rowCommands r) s = some t) : BetweenRows n t := by
  have hport : ∀ i ∈ rowCommands r, placeOf i = .port := by
    intro i hi
    simp only [rowCommands, List.mem_cons, List.mem_map] at hi
    rcases hi with rfl | ⟨v, _, rfl⟩ <;> rfl
  have hlive := runInstrs_liveInv hport h.live hrun
  obtain ⟨bytes, p, _, rfl⟩ := h.row hlen hrun
  exact ⟨hlive, .inr ⟨rfl, rfl⟩⟩

theorem BetweenRows.writtenBits_row {n : Byte} {s : State} (h : BetweenRows n s) (p : Option Response) (x : Word)
    (vs : List Word) (bytes : List Byte) :
    writtenBits (withResp p (rowEncoded n x vs bytes s)) = writtenBits s ++ rowBits x s :=
  writtenBits_appendBits h.live.stores.bitPacker.canonical _

theorem BetweenRows.writtenBytes_row {n : Byte} {s : State} (h : BetweenRows n s) (p : Option Response) (x : Word)
    (vs : List Word) (bytes : List Byte) :
    writtenBytes (withResp p (rowEncoded n x vs bytes s)) = writtenBytes s ++ bytes :=
  writtenBytes_appendBytes h.live.stores.byteBuffer.canonical _

/-! ## The end of the session (R164) -/

theorem bpClose_eq {s t : State} (h : bpClose s = .ok t) :
    t = enterRead { s with bpW := putTrailer s.bpW s.bpNbits, bpNbits := s.bpNbits + 133 } := by
  obtain ⟨hm, hroom⟩ : s.bpMode = .write ∧ s.bpNbits + 133 ≤ 64 * s.cfg.bpMaxWords := by
    obtain ⟨hm, h⟩ := (check_eq_ok _ _ _ _).1 h
    obtain ⟨hroom, _⟩ := (check_eq_ok _ _ _ _).1 h
    exact ⟨not_not.1 hm, Nat.le_of_not_lt hroom⟩
  rw [bpClose_ok hm hroom] at h
  exact (Except.ok.inj h).symm

/-- The state after the finish of a session (R164). -/
def finished (s : State) : State :=
  { enterRead { s with bpW := putTrailer s.bpW s.bpNbits, bpNbits := s.bpNbits + 133 } with phase := .encDone }

/-- `ENC.FINISH` that completes (R164). -/
theorem exec_encFinish_completed {s e : State} (hs : s.fault = 0) (h : exec .encFinish s = .next e) (he : e.fault = 0) :
    ∃ p, e = withResp p (finished s) := by
  obtain ⟨u, r0, r1, hu, rfl⟩ := phaseCommand_encFinish.completed hs h he
  obtain ⟨t, ht, e⟩ := (bind_eq_ok _ _ _).1 hu
  cases e
  rw [bpClose_eq ht]
  exact ⟨_, rfl⟩

/-- The trailer stands behind what was written before (R103). -/
theorem writtenBits_finished {s : State} (hwf : Store.wf s.bpW = true) (p : Option Response) :
    writtenBits (withResp p (finished s)) = writtenBits s ++ trailerBits := by
  have hold := streamBits_congr (p := 0) (n := s.bpNbits) (m := s.bpW) (m' := putTrailer s.bpW s.bpNbits) fun k hk => by
    rw [streamBit_putTrailer hwf, if_neg (by omega)]
  have hnew := streamBits_putTrailer hwf s.bpNbits
  have hsplit := streamBits_add (putTrailer s.bpW s.bpNbits) 0 s.bpNbits 133
  rw [Nat.zero_add, hold, hnew] at hsplit
  have hwords : (withResp p (finished s)).bpW = putTrailer s.bpW s.bpNbits := by
    simp only [withResp, finished, enterRead_bpW]
  have hcount : (withResp p (finished s)).bpNbits = s.bpNbits + 133 := rfl
  rw [writtenBits, hwords, hcount, hsplit, writtenBits]

/-- `e` is the core at the end of a session that has written what `s` has, and more (R164). -/
structure Finishes (s e : State) : Prop where
  live : LiveInv e
  phase : e.phase = .encDone
  cfg : e.cfg = s.cfg
  bpRpos : e.bpRpos = 0
  bbRpos : e.bbRpos = s.bbRpos
  bits : writtenBits s <+: writtenBits e
  bytes : writtenBytes s <+: writtenBytes e

theorem BetweenRows.finishes {n : Byte} {s e : State} (h : BetweenRows n s) (hrun : runInstrs [.encFinish] s = some e) :
    Finishes s e ∧ writtenBits e = writtenBits s ++ trailerBits ∧ writtenBytes e = writtenBytes s := by
  have hlive := runInstrs_liveInv (by simp [placeOf]) h.live hrun
  obtain ⟨_, hexec, hfault, hnil⟩ := runInstrs_cons_iff.1 hrun
  cases hnil
  obtain ⟨p, rfl⟩ := exec_encFinish_completed h.live.stores.noFault hexec hfault
  have hbits := writtenBits_finished h.live.stores.bitPacker.canonical p
  exact ⟨⟨hlive, rfl, rfl, rfl, rfl, ⟨_, hbits.symm⟩, List.prefix_rfl⟩, hbits, rfl⟩

/-- The rows and the finish of a session only append to what was written (R151 to R164). -/
theorem BetweenRows.rows_finish {n : Byte} {rows : List (Word × List Word)} {s e : State} (h : BetweenRows n s)
    (hlen : ∀ r ∈ rows, r.2.length = n.toNat)
    (hrun : runInstrs (rows.flatMap rowCommands ++ [.encFinish]) s = some e) : Finishes s e := by
  induction rows generalizing s with
  | nil => exact (h.finishes hrun).1
  | cons r rows ih =>
    rw [List.flatMap_cons, List.append_assoc] at hrun
    obtain ⟨t, hrow, hrun⟩ := runInstrs_append_iff.1 hrun
    have hr := hlen r List.mem_cons_self
    have hrest := ih (h.next hr hrow) (fun x hx => hlen x (List.mem_cons_of_mem r hx)) hrun
    obtain ⟨bytes, p, _, rfl⟩ := h.row hr hrow
    exact ⟨hrest.live, hrest.phase, hrest.cfg, hrest.bpRpos, hrest.bbRpos,
      List.IsPrefix.trans ⟨_, (h.writtenBits_row p _ _ _).symm⟩ hrest.bits,
      List.IsPrefix.trans ⟨_, (h.writtenBytes_row p _ _ _).symm⟩ hrest.bytes⟩

end Sys2Proof.Machine
end

section
/-! The session decoded in place (R192, R193): the Decoder stays in lock-step with the Encoder, row by row. -/

namespace Sys2Proof.Machine

/-! ## The timestamps to come (R155, R192) -/

/-- The timestamps of the rows to come are in the supported range. -/
def TimesAhead (s : State) (l : List Word) : Prop :=
  if s.phase = .encFirst then timesSupported s.anchor l else dodsSupported s.ts s.delta l

/-- Behind a row's timestamp the others are ahead of its own time and delta. -/
theorem TimesAhead.tail {s : State} {x : Word} {l : List Word} (h : TimesAhead s (x :: l)) :
    dodsSupported x (rowDelta x s) l := by
  unfold TimesAhead at h
  unfold rowDelta
  split_ifs at h ⊢
  · exact h.2
  · exact h.2

/-! ## Lock-step -/

/-- The Encoder in state `s` has the rows `todo` ahead of it until `e`; the Decoder, which decodes what stands in `e`, is in
state `d` and has read exactly what is written in `s`. Both have the same times, and the windows of the columns agree; the
Encoder empties its own at the start of its first row (R152), the Decoder has done so already (R180). -/
structure LockStep (n : Byte) (e : State) (todo : List (Word × List Word)) (s d : State) : Prop where
  run : runInstrs (todo.flatMap rowCommands ++ [.encFinish]) s = some e
  counts : ∀ r ∈ todo, r.2.length = n.toNat
  times : TimesAhead s (todo.map Prod.fst)
  encoder : BetweenRows n s
  decoder : LiveInv d
  phase : d.phase = if s.phase = .encFirst then .decFirst else .decRun
  ncols : d.ncols = n
  anchor : d.anchor = s.anchor
  ts : d.ts = s.ts
  delta : d.delta = s.delta
  windows : ∀ c, c < n.toNat → window d c = window (rowStart n s) c
  columns : n.toNat ≤ s.hw.length
  bits : writtenBits s ++ restBits d = writtenBits e
  bytes : writtenBytes s ++ restBytes d = writtenBytes e

theorem LockStep.decoding {n : Byte} {e s d : State} {todo : List (Word × List Word)} (h : LockStep n e todo s d) :
    d.phase = .decFirst ∨ d.phase = .decRun := by
  rw [h.phase]
  split
  · exact .inl rfl
  · exact .inr rfl

theorem LockStep.mode {n : Byte} {e s d : State} {todo : List (Word × List Word)} (h : LockStep n e todo s d) :
    d.bpMode = .read := h.decoder.session.frozen (by have := h.decoding; tauto)

theorem length_flatMap_bytes64 (vs : List Word) : (vs.flatMap bytes64).length = 8 * vs.length := by
  simp [List.length_flatMap, Nat.mul_comm]

/-- Where a row's bits and bytes are next, `DEC.NEXT` decodes the row: its time and its values. -/
theorem LockStep.decNext {n : Byte} {e s d : State} {x : Word} {vals vs : List Word} {todo : List (Word × List Word)}
    {bytes rest' : List Byte} {rest : List Bool} (h : LockStep n e ((x, vals) :: todo) s d) (hlen : vs.length = n.toNat)
    (hrow : RowBytes (decide (s.phase = .encFirst)) (window (rowStart n s)) 0 vs bytes)
    (hbits : restBits d = rowBits x s ++ rest) (hbytes : restBytes d = bytes ++ rest') :
    exec .decNext d = .next (rowDecoded (rowBits x s).length bytes.length x (rowDelta x s) vs d) := by
  have hcols : vs.length = d.ncols.toNat := by rw [hlen, h.ncols]
  have htimes := h.times
  unfold TimesAhead at htimes
  rcases h.encoder.phase with hp | ⟨hp, _⟩
  · rw [if_pos hp] at htimes
    rw [decide_eq_true hp, rowBytes_first] at hrow
    rw [rowBits, if_pos hp] at hbits
    have hrange : (x - s.anchor).toNat ≤ 0xFFFFFFFE := htimes.1
    have hdelta : (((x - s.anchor).setWidth 32).setWidth 64) = x - s.anchor := setWidth_payload (by omega)
    have hne : (x - s.anchor).setWidth 32 ≠ BitVec.allOnes 32 := setWidth_ne_allOnes (by omega)
    have hexec := exec_decNext_first (d := (x - s.anchor).setWidth 32) h.decoder.stores.noFault (h.phase.trans (if_pos hp))
      h.mode hne (by rwa [hdelta]) hcols (hrow ▸ hbytes)
    have htime : d.anchor + (x - s.anchor) = x := by rw [h.anchor]; bv_omega
    rw [hexec, hdelta, htime, rowBits, if_pos hp, length_fieldBits, rowDelta, if_pos hp, hrow,
      length_flatMap_bytes64]
  · have hne : s.phase ≠ .encFirst := by rw [hp]; nofun
    rw [if_neg hne] at htimes
    rw [decide_eq_false hne, rowBytes_later] at hrow
    rw [rowBits, if_neg hne] at hbits
    obtain ⟨cs, hcs, rfl⟩ := hrow
    obtain ⟨hnotEnd, hwf, hpayload⟩ := tsPayload_tsCodeOf htimes.1
    have hcs' : CodesStandFor (window d) 0 cs vs := hcs.congr fun c _ hc => (h.windows c (by omega)).symm
    have hexec := exec_decNext_later h.decoder.stores.noFault (h.phase.trans (if_neg hne)) h.mode h.decoder.dcolZero hnotEnd
      hwf hbits hcs' (hcs.length_eq.trans hcols) hbytes
    have hdelta : d.delta + (x - s.ts - s.delta) = x - s.ts := by rw [h.delta]; bv_omega
    have htime : d.ts + (x - s.ts) = x := by rw [h.ts]; bv_omega
    rw [hexec, hpayload, unzigzag_zigzag, hdelta, htime, rowBits, if_neg hne, rowDelta, if_neg hne]

/-- The rest of the session only appends to what is written (R151 to R164). -/
theorem LockStep.finishes {n : Byte} {e s d : State} {todo : List (Word × List Word)} (h : LockStep n e todo s d) :
    Finishes s e := h.encoder.rows_finish h.counts h.run

theorem length_rowStart_hw (n : Byte) (s : State) : (rowStart n s).hw.length = s.hw.length := by
  unfold rowStart
  split
  · exact (hwInitBelow_frame _ _).2
  · rfl

theorem length_addRow (j : Nat) (vs : List Word) (hw : List Window) : (addRow j vs hw).length = hw.length := by
  induction vs generalizing j hw with
  | nil => rfl
  | cons v vs ih => rw [addRow, ih, List.length_set]

/-- Windows that agree take the same row alike (R188, R193). -/
theorem getD_addRow_congr {c : Nat} {vs : List Word} {hw hw' : List Window} (hc : c < vs.length)
    (hlen : vs.length ≤ hw.length) (hlen' : vs.length ≤ hw'.length) (h : hw.getD c ⟨[], 0⟩ = hw'.getD c ⟨[], 0⟩) :
    (addRow 0 vs hw).getD c ⟨[], 0⟩ = (addRow 0 vs hw').getD c ⟨[], 0⟩ := by
  have hleft := getD_addRow (j := 0) (hw := hw) hc (by omega)
  have hright := getD_addRow (j := 0) (hw := hw') hc (by omega)
  rw [Nat.zero_add] at hleft hright
  rw [hleft, hright, h]

/-- The next row: the Encoder's commands and one `DEC.NEXT` keep the lock-step, and the row decoded has the row's time and
values. -/
theorem LockStep.row {n : Byte} {e s d : State} {r : Word × List Word} {todo : List (Word × List Word)}
    (h : LockStep n e (r :: todo) s d) :
    ∃ s' d', runInstrs (rowCommands r) s = some s' ∧ exec .decNext d = .next d' ∧ LockStep n e todo s' d' ∧
      s'.phase = .encRun ∧ d'.resp = some ⟨0, 1, 0⟩ ∧ d'.ts = r.1 ∧
      ∀ c (hc : c < r.2.length), d'.storedV.getD c 0 = rawOf s r.2[c] := by
  obtain ⟨x, vals⟩ := r
  have hrun := h.run
  rw [List.flatMap_cons, List.append_assoc] at hrun
  obtain ⟨s', hrow, hrun⟩ := runInstrs_append_iff.1 hrun
  have hlen : vals.length = n.toNat := h.counts _ List.mem_cons_self
  have hcounts : ∀ r ∈ todo, r.2.length = n.toNat := fun r hr => h.counts r (List.mem_cons_of_mem _ hr)
  have hnext := h.encoder.next hlen hrow
  have hfinishes := hnext.rows_finish hcounts hrun
  obtain ⟨bytes, p, hbytes, rfl⟩ := h.encoder.row hlen hrow
  obtain ⟨rest, hrest⟩ := hfinishes.bits
  obtain ⟨rest', hrest'⟩ := hfinishes.bytes
  rw [h.encoder.writtenBits_row, List.append_assoc, ← h.bits] at hrest
  rw [h.encoder.writtenBytes_row, List.append_assoc, ← h.bytes] at hrest'
  have hhead := (List.append_cancel_left hrest).symm
  have hhead' := (List.append_cancel_left hrest').symm
  have hvs : (vals.map (rawOf s)).length = n.toNat := by rw [List.length_map, hlen]
  have hexec := h.decNext hvs hbytes hhead hhead'
  have hfault := h.decoder.stores.noFault
  have hd : n.toNat ≤ d.hw.length := by
    rw [h.decoder.stores.windows.count, ← h.ncols]
    exact h.decoder.session.ncolsLe
  refine ⟨_, _, hrow, hexec, ⟨hrun, hcounts, ?times, hnext, liveInv_iff.2 ⟨exec_keeps_inv rfl h.decoder.inv hexec, hfault⟩,
    rfl, h.ncols, h.anchor, rfl, rfl, fun c hc => ?windows, ?columns, ?unreadBits, ?unreadBytes⟩, rfl, rfl, rfl, fun c hc => ?values⟩
  case times => exact h.times.tail
  case windows =>
    exact getD_addRow_congr (hvs ▸ hc) (hvs ▸ hd) (by rw [hvs, length_rowStart_hw]; exact h.columns) (h.windows c hc)
  case columns =>
    have hlength : (addRow 0 (vals.map (rawOf s)) (rowStart n s).hw).length = s.hw.length := by
      rw [length_addRow, length_rowStart_hw]
    exact h.columns.trans_eq hlength.symm
  case unreadBits =>
    have hrest : restBits (rowDecoded (rowBits x s).length bytes.length x (rowDelta x s) (vals.map (rawOf s)) d) = rest :=
      restBits_skipBits_length hhead
    rw [h.encoder.writtenBits_row, List.append_assoc, hrest, ← hhead, h.bits]
  case unreadBytes =>
    have hrest : restBytes (rowDecoded (rowBits x s).length bytes.length x (rowDelta x s) (vals.map (rawOf s)) d) = rest' :=
      restBytes_skipBytes_length hhead'
    rw [h.encoder.writtenBytes_row, List.append_assoc, hrest, ← hhead', h.bytes]
  case values =>
    have hset := getD_setRow (j := 0) (k := c) (vs := vals.map (rawOf s)) (row := d.storedV) (by rwa [List.length_map])
      (by rw [h.decoder.stores.windows.stored, hvs, ← h.ncols, Nat.zero_add]; exact h.decoder.session.ncolsLe)
    rw [Nat.zero_add, List.getElem_map] at hset
    exact hset

/-! ## The rows of a session (R192, R193) -/

/-- Row by row the Encoder and the Decoder stay in lock-step. -/
theorem LockStep.rows {n : Byte} {e : State} {todo : List (Word × List Word)} {s d : State} (h : LockStep n e todo s d)
    {k : Nat} (hk : k ≤ todo.length) :
    ∃ s' d', runInstrs ((todo.take k).flatMap rowCommands) s = some s' ∧
      runInstrs (List.replicate k .decNext) d = some d' ∧ LockStep n e (todo.drop k) s' d' := by
  induction k generalizing todo s d with
  | zero => exact ⟨s, d, rfl, rfl, h⟩
  | succ k ih =>
    cases todo with
    | nil => exact absurd hk (Nat.not_succ_le_zero k)
    | cons r todo =>
      obtain ⟨s', d', hs', hd', h', _⟩ := h.row
      obtain ⟨s'', d'', hs'', hd'', h''⟩ := ih h' (Nat.le_of_succ_le_succ hk)
      refine ⟨s'', d'', ?_, ?_, h''⟩
      · rw [List.take_succ_cons, List.flatMap_cons]
        exact runInstrs_append_iff.2 ⟨s', hs', hs''⟩
      · rw [List.replicate_succ]
        exact runInstrs_cons_iff.2 ⟨d', hd', h'.decoder.stores.noFault, hd''⟩

theorem rawOf_congr {s t : State} (h : s.cfg = t.cfg) (v : Word) : rawOf s v = rawOf t v := by
  rw [rawOf, rawOf, h]

/-- After row `i` both have run its commands, the Decoder's row is that row, and the windows agree. -/
theorem LockStep.rowAt {n : Byte} {e : State} {rows : List (Word × List Word)} {s d : State} (h : LockStep n e rows s d)
    {i : Nat} (hi : i < rows.length) :
    ∃ s' d', runInstrs ((rows.take (i + 1)).flatMap rowCommands) s = some s' ∧
      runInstrs (List.replicate (i + 1) .decNext) d = some d' ∧ LiveInv d' ∧ d'.phase = .decRun ∧ d'.ncols = n ∧
      d'.resp = some ⟨0, 1, 0⟩ ∧ d'.ts = rows[i].1 ∧
      (∀ c (hc : c < rows[i].2.length), d'.storedV.getD c 0 = rawOf s rows[i].2[c]) ∧
      ∀ c, c < n.toNat → window d' c = window s' c := by
  obtain ⟨u, v, hu, hv, huv⟩ := h.rows (Nat.le_of_lt hi)
  have hcfg : u.cfg = s.cfg := huv.finishes.cfg.symm.trans h.finishes.cfg
  rw [List.drop_eq_getElem_cons hi] at huv
  obtain ⟨s', d', hs', hd', h', hphase, hresp, hts, hvalues⟩ := huv.row
  have hne : s'.phase ≠ .encFirst := by rw [hphase]; nofun
  have hwindows := h'.windows
  rw [rowStart, if_neg hne] at hwindows
  refine ⟨s', d', ?_, ?_, h'.decoder, h'.phase.trans (if_neg hne), h'.ncols, hresp, hts,
    fun c hc => (hvalues c hc).trans (rawOf_congr hcfg _), hwindows⟩
  · rw [List.take_succ_eq_append_getElem hi, List.flatMap_append, List.flatMap_singleton]
    exact runInstrs_append_iff.2 ⟨u, hu, hs'⟩
  · rw [List.replicate_succ']
    exact runInstrs_append_iff.2 ⟨v, hv, runInstrs_cons_iff.2 ⟨d', hd', h'.decoder.stores.noFault, rfl⟩⟩

/-- Behind the last row the Decoder stands at the trailer (R164). -/
theorem LockStep.atTrailer {n : Byte} {e s d : State} (h : LockStep n e [] s d) : AtTrailer d := by
  obtain ⟨_, hbits, _⟩ := h.encoder.finishes h.run
  exact ⟨h.decoder.stores.noFault, h.mode, List.append_cancel_left (h.bits.trans hbits)⟩

theorem AtTrailer.decNext {s : State} (h : AtTrailer s) (hp : s.phase = .decFirst ∨ s.phase = .decRun) :
    ∃ z, exec .decNext s = .next z ∧ z.fault = 0 ∧ z.resp = some ⟨0, 0, 0⟩ ∧ z.phase = .decDone := by
  rcases hp with hp | hp
  · exact ⟨_, exec_decNext_end h.fault (.inl hp) (h.decodeRow_first hp), h.fault, rfl, rfl⟩
  · exact ⟨_, exec_decNext_end h.fault (.inr hp) (h.decodeRow_later hp), h.fault, rfl, rfl⟩

/-- One `DEC.NEXT` more than rows ends the session (R164, R184, R185). -/
theorem LockStep.finalNext {n : Byte} {e : State} {rows : List (Word × List Word)} {s d : State} (h : LockStep n e rows s d) :
    ∃ z, runInstrs (List.replicate (rows.length + 1) .decNext) d = some z ∧ z.resp = some ⟨0, 0, 0⟩ ∧ z.phase = .decDone := by
  obtain ⟨u, v, _, hv, huv⟩ := h.rows (Nat.le_refl _)
  rw [List.drop_length] at huv
  obtain ⟨z, hz, hfault, hresp, hphase⟩ := huv.atTrailer.decNext huv.decoding
  refine ⟨z, ?_, hresp, hphase⟩
  rw [List.replicate_succ']
  exact runInstrs_append_iff.2 ⟨v, hv, runInstrs_cons_iff.2 ⟨z, hz, hfault, rfl⟩⟩

/-! ## The start of the two sessions (R150, R180) -/

theorem writtenBits_begunState (a : Word) (s : State) (r0 r1 : Word) :
    writtenBits (respond r0 r1 (begunState a s)) = fieldBits a 64 := by
  have hcount : (begunState a s).bpNbits = (fieldBits a 64).length := by
    rw [length_fieldBits]
    rfl
  rw [writtenBits, respond_bpW, begunState_bpW, respond_bpNbits, hcount, streamBits_putBits rfl]

/-- What `DEC.INIT` leaves in a core whose stream begins with the anchor `a` (R180). -/
theorem exec_decInit_anchor {a : Word} {n : Byte} {e : State} {rest : List Bool} (he : LiveInv e) (hp : e.phase = .encDone)
    (hn : n.toNat ≤ e.cfg.ncolMax) (h : restBits e = fieldBits a 64 ++ rest) :
    exec (.decInit n) e = .next (respond 0 0 (startDecoder n (takeAnchor a (skipBits 64 e)))) := by
  obtain ⟨hleft, hanchor⟩ := restBits_eq_append.1 ⟨rest, h⟩
  rw [length_fieldBits] at hleft hanchor
  rw [exec_decInit_ok he.stores.noFault (.inr hp) hn (he.session.frozen (.inl hp)) hleft, hanchor,
    wordOfBits_fieldBits _ _ a.isLt]

theorem Inv.bpMaxWords_pos {s : State} (h : Inv s) : 1 ≤ s.cfg.bpMaxWords := by
  have hcfg := h.cfgWf
  simp only [Config.wf, Bool.and_eq_true, decide_eq_true_eq] at hcfg
  omega

/-- A session that completes begins with `ENC.BEGIN`, and `DEC.INIT` at its end is in lock-step with the state behind it. -/
theorem session_lockStep {a : Word} {n : Byte} {rows : List (Word × List Word)} {s e : State} (hinv : Inv s)
    (hs : s.fault = 0) (hp : s.phase = .idle) (hn : n.toNat ≤ s.cfg.ncolMax) (hlen : ∀ r ∈ rows, r.2.length = n.toNat)
    (htimes : timesSupported a (rows.map Prod.fst)) (hrun : runInstrs (sessionCommands a rows) s = some e) :
    ∃ u d, exec (.encBegin a) s = .next u ∧ u.fault = 0 ∧ u.cfg = s.cfg ∧ exec (.decInit n) e = .next d ∧
      LockStep n e rows u d := by
  have hbegin : exec (.encBegin a) s = .next (respond 0 0 (begunState a s)) :=
    exec_encBegin_ok hs hp hinv.bpMaxWords_pos
  rw [sessionCommands, rowsCommands, List.cons_append, runInstrs_cons _ hbegin hs] at hrun
  have hlive : LiveInv (respond 0 0 (begunState a s)) := liveInv_iff.2 ⟨exec_keeps_inv rfl hinv hbegin, hs⟩
  have hencoder : BetweenRows n (respond 0 0 (begunState a s)) := ⟨hlive, .inl rfl⟩
  have hend := hencoder.rows_finish hlen hrun
  have hcolumns : n.toNat ≤ s.hw.length := hinv.windows.symm ▸ hn
  obtain ⟨rest, hwritten⟩ := hend.bits
  rw [writtenBits_begunState] at hwritten
  have hbits : restBits e = fieldBits a 64 ++ rest := by
    rw [restBits, remaining, hend.bpRpos, Nat.sub_zero, hwritten, writtenBits]
  have hbytes : restBytes e = writtenBytes e := by
    rw [restBytes, show e.bbRpos = 0 from hend.bbRpos, Nat.sub_zero, writtenBytes]
  have hcfg : e.cfg = s.cfg := hend.cfg
  have hne : n.toNat ≤ e.hw.length := by rw [hend.live.stores.windows.count, hcfg]; exact hn
  have hinit := exec_decInit_anchor hend.live hend.phase (hcfg ▸ hn) hbits
  have hdecoder := window_startDecoder (s := takeAnchor a (skipBits 64 e)) hne
  rw [startDecoder_eq] at hinit hdecoder
  refine ⟨_, _, hbegin, hs, rfl, hinit, hrun, hlen, htimes, hencoder,
    liveInv_iff.2 ⟨exec_keeps_inv rfl hend.live.inv hinit, hend.live.stores.noFault⟩, rfl, rfl, rfl, rfl, rfl,
    fun c hc => ?windows, hcolumns, ?unreadBits, ?unreadBytes⟩
  case windows =>
    calc
      _ = Window.empty e.cfg.zeroFill := (hdecoder c).trans (if_pos hc)
      _ = Window.empty s.cfg.zeroFill := by rw [hcfg]
      _ = _ := ((window_rowStart (s := respond 0 0 (begunState a s)) rfl hcolumns c).trans (if_pos hc)).symm
  case unreadBits =>
    have hrest := restBits_skipBits_length hbits
    rw [length_fieldBits] at hrest
    rw [writtenBits_begunState, ← hwritten, ← hrest]
    rfl
  case unreadBytes => exact hbytes

/-- Settles O59: at row `i` the Encoder and the Decoder are in lock-step (`LockStep.rowAt`), and behind the last row the Decoder
stands at the trailer (`LockStep.finalNext`). -/
theorem sessionRoundTrips : Obligations.SessionRoundTrips := by
  intro a n rows s e hinv hs hp hn hlen htimes hrun
  obtain ⟨u, d, _, _, hcfg, hinit, hlock⟩ := session_lockStep hinv hs hp hn hlen htimes hrun
  refine ⟨d, hinit, hlock.decoder.stores.noFault, fun i hi => ?_, hlock.finalNext⟩
  obtain ⟨_, d', _, hd', hlive, hphase, hncols, hresp, hts, hvalues, _⟩ := hlock.rowAt hi
  have hfault := hlive.stores.noFault
  refine ⟨d', hd', hresp, (exec_decTs_ok hfault hphase).trans (by rw [hts]), fun c hc => ?_⟩
  have hcol : c.toNat < d'.ncols.toNat := by rwa [hncols, ← hlen _ (List.getElem_mem hi)]
  rw [exec_decVal_ok hfault hphase hcol, hvalues c.toNat hc, rawOf_congr hcfg]

/-- Settles O60: `LockStep.rowAt`, with the Encoder's rows behind its `ENC.BEGIN`. -/
theorem decoderWindowsKeepLockStep : Obligations.DecoderWindowsKeepLockStep := by
  intro a n rows s e d hinv hs hp hn hlen htimes hrun hinit i hi
  obtain ⟨u, d₀, hbegin, hfault, _, hinit₀, hlock⟩ := session_lockStep hinv hs hp hn hlen htimes hrun
  obtain rfl : d₀ = d := by
    rw [hinit₀] at hinit
    injection hinit
  obtain ⟨s', d', hs', hd', _, _, _, hresp, _, _, hwindows⟩ := hlock.rowAt hi
  exact ⟨s', d', (runInstrs_cons _ hbegin hfault).trans hs', hd', hresp, hwindows⟩

end Sys2Proof.Machine
end

section
/-! The system commands against R200 and R205 to R207: `NOP` answers whether the core is faulted or not, and the exports read the
words between `HEAD` and `WORDS_IN_USE` and the bytes below `BB_LEN`. -/

namespace Sys2Proof.Machine

/-! ## `NOP` (R200) -/

/-- Settles O17: `NOP` is outside the frame of the other commands (`runCommand`), in which a faulted core refuses. -/
theorem nopOnlyAnswers : Obligations.NopOnlyAnswers := fun s =>
  calc
    exec .nop s = .next (respond 0 0 s) := exec_nop s
    _ = .next { s with resp := some ⟨0, 0, 0⟩ } := rfl

/-! ## `EXP.WORD` (R205, R206) -/

/-- The words in use are the ones that hold stream bits (R29). -/
theorem lt_wordsInUse_iff (s : State) (k : Nat) : k < wordsInUse s ↔ 64 * k < s.bpNbits := by
  unfold wordsInUse
  omega

theorem exec_expWord_ok {i : Word} {s : State} (hs : s.fault = 0) (hheld : headWord s ≤ i.toNat)
    (hused : i.toNat < wordsInUse s) :
    exec (.expWord i) s = .next (respond (readWord s.bpW i.toNat) 0 s) := by
  rw [exec_expWord, execExpWord]
  exact runCommand_ok (.expWord i) hs (if_neg (not_or.2 ⟨Nat.not_lt.2 hheld, Nat.not_le.2 hused⟩))

theorem exec_expWord_faultsAs {i : Word} {s : State} (hs : s.fault = 0)
    (hout : i.toNat < headWord s ∨ wordsInUse s ≤ i.toNat) : FaultsAs (exec (.expWord i) s) .expIndex 0x61 s := by
  rw [exec_expWord, execExpWord]
  exact runCommand_faultsAs (.expWord i) hs (if_pos hout)

/-! ## `EXP.BYTE` (R207) -/

theorem exec_expByte_ok {i : Word} {s : State} (hs : s.fault = 0) (hi : i.toNat < s.bbLen) :
    exec (.expByte i) s = .next (respond ((readByte s.bbB i.toNat).setWidth 64) 0 s) := by
  rw [exec_expByte, execExpByte]
  exact runCommand_ok (.expByte i) hs (if_neg (Nat.not_le.2 hi))

theorem exec_expByte_faultsAs {i : Word} {s : State} (hs : s.fault = 0) (hi : s.bbLen ≤ i.toNat) :
    FaultsAs (exec (.expByte i) s) .expIndex 0x62 s := by
  rw [exec_expByte, execExpByte]
  exact runCommand_faultsAs (.expByte i) hs (if_pos hi)

/-- Settles O56: "holds stream bits" is "in use" (`lt_wordsInUse_iff`), so each clause is the index check of its command, passed
or failed. -/
theorem exportReadsTheStores : Obligations.ExportReadsTheStores := by
  intro i s hs
  have hused : i.toNat < wordsInUse s ↔ 64 * i.toNat < s.bpNbits := lt_wordsInUse_iff s i.toNat
  have hunused : wordsInUse s ≤ i.toNat ↔ s.bpNbits ≤ 64 * i.toNat := le_iff_le_iff_lt_iff_lt.2 hused
  exact ⟨fun hheld hbits => exec_expWord_ok hs hheld (hused.2 hbits),
    fun hout => exec_expWord_faultsAs hs (hout.imp_right hunused.2), exec_expByte_ok hs, exec_expByte_faultsAs hs⟩

end Sys2Proof.Machine
end

section
/-! The exceptions: what a faulted core still answers (R203, R226), what taking a fault records (R221, R225), and the core
between two commands (R235, R242). -/

namespace Sys2Proof.Machine

/-! ## The commands of a faulted core (R203, R226) -/

/-- Every instruction but the three system commands runs in a frame (`runCommand`, `runCode`) that begins with the refusal
of a faulted core (R203, R226). -/
theorem exec_refused {i : Instr} {s : State} (hs : s.fault ≠ 0) (hnop : i ≠ .nop) (hreset : i ≠ .coreReset)
    (hstatus : i ≠ .coreStatus) : exec i s = .next (refuse s) := by
  cases i with
  | nop => exact absurd rfl hnop
  | coreReset => exact absurd rfl hreset
  | coreStatus => exact absurd rfl hstatus
  | _ => exact if_pos hs

/-- A command word is the word of the encoding of what it stands for, so an instruction whose encoding has one fixed word
stands on that word only (R71, R74). -/
theorem cw_of_decodeCommand {c : Command} {i : Instr} {cw : BitVec 16} {din : Word} (hd : decodeCommand c = some i)
    (he : encode i = .command ⟨cw, din⟩) : c.cw = cw := by
  obtain ⟨_, henc, _⟩ := encode_decodeCommand hd
  rw [he] at henc
  injection henc with hcommand
  exact (congrArg Command.cw hcommand).symm

/-- A faulted core takes every command word but three from the port and refuses it, whether it matches a row or not (R226). -/
theorem step_refused {s : State} {c : Command} {rest : List Command} (hs : s.fault ≠ 0) (hport : s.port = c :: rest)
    (hnop : c.cw ≠ 0x0000) (hreset : c.cw ≠ 0x0100) (hstatus : c.cw ≠ 0x0200) :
    step s = .next (refuse { s with port := rest }) := by
  cases hd : decodeCommand c with
  | none =>
    calc
      step s = illegalCommand c.cw { s with port := rest } := by simp only [step, fetchCommand, hport, hd]
      _ = .next (refuse { s with port := rest }) := illegalCommand_refused hs
  | some i =>
    rw [stepRunsTheDecodedInstruction s c rest i hport hd]
    refine exec_refused hs ?nop ?reset ?status <;> rintro rfl
    case nop => exact hnop (cw_of_decodeCommand hd rfl)
    case reset => exact hreset (cw_of_decodeCommand hd rfl)
    case status => exact hstatus (cw_of_decodeCommand hd rfl)

/-- A command word is looked up by its opcode and its immediate, whatever the data operand (R71, R74). -/
theorem decodeCommand_of_cw {c : Command} (i : Instr) (imm : Byte) (h : c.cw = commandWord (opcodeOf i) imm) :
    decodeCommand c = decodeOp (opcodeOf i).toNat imm c.din := by
  rw [decodeCommand, h, opField_commandWord, immField_commandWord]

/-- Settles O8: every word but the three is refused (`step_refused`), and each of the three runs as it does without a fault:
`NOP` by O17, `CORE.STATUS` by O18. -/
theorem faultedCoreRefusesAllButThree : Obligations.FaultedCoreRefusesAllButThree := by
  intro s c rest hs hport
  have hstep (i : Instr) (hd : decodeCommand c = some i) : step s = exec i { s with port := rest } :=
    stepRunsTheDecodedInstruction s c rest i hport hd
  refine ⟨step_refused hs hport, fun hnop => ?nop, fun hstatus => ?status, fun hreset => ?reset⟩
  case nop => exact (hstep .nop (decodeCommand_of_cw .nop 0 hnop)).trans (nopOnlyAnswers _)
  case status =>
    obtain ⟨r0, hexec, hfault, hop, _⟩ := statusWordFields { s with port := rest }
    exact ⟨r0, (hstep .coreStatus (decodeCommand_of_cw .coreStatus 0 hstatus)).trans hexec, hfault, hop⟩
  case reset =>
    exact ⟨respond 0 0 (resetCore { s with port := rest }), hstep .coreReset (decodeCommand_of_cw .coreReset 0 hreset), rfl, rfl⟩

/-! ## Taking a fault (R221, R225) -/

theorem CodeEffect.fault {s t : State} (h : CodeEffect s t) : t.fault = s.fault := by
  cases h <;> rfl

/-- The fault mechanism is the only way from `FAULT = 0` to another value: what completes leaves `FAULT` as it was (R225). -/
theorem exec_takes_fault {i : Instr} {s t : State} (hs : s.fault = 0) (h : exec i s = .next t) (ht : t.fault ≠ 0) :
    ∃ c, t = takeFault c (opcodeOf i) s := by
  cases exec_answers h with
  | nop => exact absurd hs ht
  | coreReset => exact absurd rfl ht
  | coreStatus => exact absurd hs ht
  | refused hf => exact absurd hs hf
  | faulted _ c => exact ⟨c, rfl⟩
  | completed _ hc => exact absurd (hc.fault.trans hs) ht
  | coded _ _ hc => exact absurd (hc.fault.trans hs) ht

/-- Settles O10: the state is the one `takeFault` leaves (`exec_takes_fault`), whose code is one of R221 (`faultByte_range`). -/
theorem faultMechanism : Obligations.FaultMechanism := by
  intro i s t hs h ht
  obtain ⟨c, rfl⟩ := exec_takes_fault hs h ht
  obtain ⟨hlow, hhigh⟩ := faultByte_range c
  exact ⟨hlow, hhigh, takeFault_faultOp _ _ _, takeFault_resp _ _ _, takeFault_cfg _ _ _, takeFault_port _ _ _⟩

/-! ## Waiting (R235, R242) -/

/-- Settles O7: an empty port gives the step no command to fetch. -/
theorem idleStepHoldsTheState : Obligations.IdleStepHoldsTheState := by
  intro s hport
  have hfetch : fetchCommand s = none := by rw [fetchCommand, hport]
  simp only [step, hfetch]

end Sys2Proof.Machine
end

section
/-! The table of `PHASE` (R243): which commands are illegal in a phase, and which write `PHASE` when they complete. -/

namespace Sys2Proof.Machine

/-! ## The commands that are illegal in a phase -/

/-- A command illegal in the phase raises `SEQUENCE`: it is one of the eight that begin with a phase check (R243). -/
theorem exec_phaseIllegal {i : Instr} {s : State} (hs : s.fault = 0) (h : phaseLegal i s.phase = false) :
    FaultsAs (exec i s) .sequence (opcodeOf i) s := by
  cases i with
  | encBegin a => exact (phaseCommand_encBegin a).sequence hs (by simpa [phaseLegal] using h)
  | encRow n x => exact (phaseCommand_encRow n x).sequence hs (by simpa [phaseLegal] using h)
  | encVal v => exact (phaseCommand_encVal v).sequence hs (by simpa [phaseLegal] using h)
  | encFinish => exact phaseCommand_encFinish.sequence hs (by simpa [phaseLegal] using h)
  | decInit n => exact (phaseCommand_decInit n).sequence hs (by simpa [phaseLegal] using h)
  | decNext => exact phaseCommand_decNext.sequence hs (by simpa [phaseLegal] using h)
  | decTs => exact phaseCommand_decTs.sequence hs (by simpa [phaseLegal] using h)
  | decVal col => exact (phaseCommand_decVal col).sequence hs (by simpa [phaseLegal] using h)
  | _ => exact absurd h nofun

/-- A command that completes was legal in the phase it found. -/
theorem phaseLegal_of_completed {i : Instr} {s t : State} (hs : s.fault = 0) (h : exec i s = .next t) (ht : t.fault = 0) :
    phaseLegal i s.phase = true := by
  by_contra hillegal
  have hfault := exec_phaseIllegal hs (Bool.eq_false_of_not_eq_true hillegal)
  exact not_faultsAs_next ht (h ▸ hfault)

/-! ## What a command that completes writes to `PHASE` -/

/-- A command of the port that completes has done its effect and answered, unless it is `CORE.RESET`. -/
theorem exec_completed {i : Instr} {s t : State} (hi : placeOf i = .port) (hreset : i ≠ .coreReset) (hs : s.fault = 0)
    (h : exec i s = .next t) (ht : t.fault = 0) : ∃ u r0 r1, Completes i s u ∧ t = respond r0 r1 u := by
  cases exec_answers h with
  | nop => exact ⟨s, _, _, .readOnly rfl, rfl⟩
  | coreReset => exact absurd rfl hreset
  | coreStatus => exact ⟨s, _, _, .readOnly rfl, rfl⟩
  | refused hf => exact absurd hs hf
  | faulted _ c => exact absurd ht (faultByte_ne_zero c)
  | completed _ hc r0 r1 => exact ⟨_, r0, r1, hc, rfl⟩
  | coded hcode => exact absurd hi hcode

/-- The commands that write `PHASE` when they complete, but for `CORE.RESET` (R243). -/
def writesPhase : Instr → Bool
  | .encBegin _ | .encRow _ _ | .encVal _ | .encFinish | .decInit _ | .decNext => true
  | _ => false

/-- A completed command that is not one of those leaves `PHASE` as it was. -/
theorem Completes.phase_eq {i : Instr} {s t : State} (h : Completes i s t) (hi : writesPhase i = false) :
    t.phase = s.phase := by
  cases h with
  | readOnly => rfl
  | bpAppend h => obtain ⟨_, _, _, _, rfl⟩ := (bpAppend_eq_ok _ _ _ _).1 h; rfl
  | bpClose h => rw [bpClose_eq h]; rfl
  | bpRead h => obtain ⟨_, p, _, rfl⟩ := bpRead_cursor h; rfl
  | bpReadrun h => obtain ⟨_, p, _, rfl⟩ := bpReadRun_cursor h; rfl
  | bpFreeze h => obtain ⟨_, rfl⟩ := bpFreeze_eq_ok h; rfl
  | bbPut h => obtain ⟨_, rfl⟩ := (bbPut_eq_ok _ _ _).1 h; rfl
  | bbGet h => obtain ⟨_, _, rfl⟩ := (bbGet_eq_ok _ _ _).1 h; rfl
  | hwInit | hwAdd => rfl
  | encBegin | encRow | encVal | encFinish | decInit | decNext => exact absurd hi nofun

theorem Completes.encBegin_phase {a : Word} {s t : State} (h : Completes (.encBegin a) s t) : t.phase = .encFirst := by
  cases h with
  | readOnly hi => exact absurd hi nofun
  | encBegin => rfl

/-- The row's column count is in `NCOLS` when its timestamp has been appended, and it was there before a later row (R151). -/
theorem rowTimestamp_ncols {n : Byte} {x : Word} {s t : State} (h : rowTimestamp n x s = .ok t) :
    (s.phase ≠ .encFirst → n = s.ncols) ∧ t.ncols = n := by
  obtain ⟨hcount, _, u, d, f, ha, rfl⟩ := rowTimestamp_appends h
  obtain ⟨m, k, rfl⟩ := ha.frame
  exact ⟨hcount, rowStart_ncols hcount⟩

theorem Completes.encRow_phase {n : Byte} {x : Word} {s t : State} (h : Completes (.encRow n x) s t) :
    (s.phase = .encRun → n = s.ncols) ∧ t.phase = if n = 0 then .encRun else .encRow := by
  cases h with
  | readOnly hi => exact absurd hi nofun
  | encRow _ _ h =>
    obtain ⟨hcount, rfl⟩ := rowTimestamp_ncols h
    exact ⟨fun hp => hcount (hp ▸ nofun), by rw [enterRow_eq]⟩

/-- The last value of a row leaves the row (R157). -/
theorem nextColumn_phase {s : State} (hp : s.phase = .encRow) :
    (nextColumn s).phase = if s.vidx + 1 = s.ncols then .encRun else .encRow := by
  rw [nextColumn_eq hp]

theorem Completes.encVal_phase {v : Word} {s t : State} (h : Completes (.encVal v) s t) :
    t.phase = if s.vidx + 1 = s.ncols then .encRun else .encRow := by
  cases h with
  | readOnly hi => exact absurd hi nofun
  | encVal hp h =>
    obtain ⟨l, h⟩ := appendValue_bytes h
    obtain ⟨_, rfl⟩ := (bbPutAll_eq_ok _ _ _).1 h
    exact nextColumn_phase hp

theorem Completes.encFinish_phase {s t : State} (h : Completes .encFinish s t) : t.phase = .encDone := by
  cases h with
  | readOnly hi => exact absurd hi nofun
  | encFinish => rfl

theorem Completes.decInit_phase {n : Byte} {s t : State} (h : Completes (.decInit n) s t) : t.phase = .decFirst := by
  cases h with
  | readOnly hi => exact absurd hi nofun
  | decInit => rfl

/-- `DEC.NEXT` that completes answers 1 with a current row, or 0 at the end of the stream (R181). -/
theorem exec_decNext_phase {s t : State} (hs : s.fault = 0) (h : exec .decNext s = .next t) (ht : t.fault = 0) :
    (t.resp = some ⟨0, 1, 0⟩ ∧ t.phase = .decRun) ∨ (t.resp = some ⟨0, 0, 0⟩ ∧ t.phase = .decDone) := by
  obtain ⟨u, r0, r1, hu, rfl⟩ := phaseCommand_decNext.completed hs h ht
  obtain ⟨⟨ended, v⟩, _, hfinish⟩ := (bind_eq_ok _ _ _).1 hu
  cases ended <;> cases hfinish
  · exact .inl ⟨rfl, rfl⟩
  · exact .inr ⟨rfl, rfl⟩

/-- `CORE.RESET` goes to `IDLE` from every phase (R243). -/
theorem exec_coreReset_phase {s t : State} (h : exec .coreReset s = .next t) : t.phase = .idle := by
  cases h
  rfl

/-- Settles O15: an illegal command fails its phase check (`exec_phaseIllegal`); a legal one that completes has done its
effect (`exec_completed`), which writes `PHASE` as the lemma for each command says, and not at all for the others
(`Completes.phase_eq`). -/
theorem phaseTransitions : Obligations.PhaseTransitions := by
  intro i s hi hs
  refine ⟨exec_phaseIllegal hs, fun t h ht => ?_⟩
  have hcompleted := fun hreset => exec_completed hi hreset hs h ht
  refine ⟨phaseLegal_of_completed hs h ht, ?begin, ?row, ?val, ?finish, ?init, ?next, ?reset, ?bitsize, ?other⟩
  case reset => rintro rfl; exact exec_coreReset_phase h
  case next => rintro rfl; exact exec_decNext_phase hs h ht
  case bitsize =>
    rintro rfl
    obtain ⟨hkept, _⟩ := readOnlyCommandsChangeNothing .encBitsize s t rfl hs h ht
    exact hkept
  case begin =>
    rintro a rfl
    obtain ⟨u, _, _, hc, rfl⟩ := hcompleted nofun
    exact hc.encBegin_phase
  case row =>
    rintro n x rfl
    obtain ⟨u, _, _, hc, rfl⟩ := hcompleted nofun
    exact hc.encRow_phase
  case val =>
    rintro v rfl
    obtain ⟨u, _, _, hc, rfl⟩ := hcompleted nofun
    exact hc.encVal_phase
  case finish =>
    rintro rfl
    obtain ⟨u, _, _, hc, rfl⟩ := hcompleted nofun
    exact hc.encFinish_phase
  case init =>
    rintro n rfl
    obtain ⟨u, _, _, hc, rfl⟩ := hcompleted nofun
    exact hc.decInit_phase
  case other =>
    intro hbegin hrow hval hfinish hinit hnext hreset
    obtain ⟨u, _, _, hc, rfl⟩ := hcompleted hreset
    refine hc.phase_eq ?_
    cases i with
    | encBegin a => exact absurd rfl (hbegin a)
    | encRow n x => exact absurd rfl (hrow n x)
    | encVal v => exact absurd rfl (hval v)
    | encFinish => exact absurd rfl hfinish
    | decInit n => exact absurd rfl (hinit n)
    | decNext => exact absurd rfl hnext
    | _ => rfl

end Sys2Proof.Machine
end
